-- ==== Sys2Proof/Word.lean ====
section
/-! DEFINITION. The machine's word types (spec 00 R10 to R12): bytes, half words, words, double words and the
5-bit register numbers, as bit vectors with bit 0 the least significant bit. -/

namespace Sys2Proof

/-- A byte, 8 bits (00 R11). -/
abbrev Byte := BitVec 8

/-- A half word, 16 bits (00 R11). -/
abbrev Half := BitVec 16

/-- A word, 32 bits (00 R11): the width of every register, of `pc` and of an instruction. -/
abbrev Word := BitVec 32

/-- A double word, 64 bits (00 R11). -/
abbrev DWord := BitVec 64

/-- A register number, the 5-bit fields `D`, `S1` and `S2` (30 R82). -/
abbrev Reg := BitVec 5

end Sys2Proof
end

