-- ==== Sys2Proof/Syntax.lean ====
section
/-! DEFINITION. The instructions: one constructor per row of `spec/opcode_table.json`, in the table's order, with
the row's fields as arguments in the order of the assembler syntax's fields (spec 30 R14, R82 to R92). The option
bits `u`, `c`, `i`, `o`, `d`, `n` and `T` are Booleans (30 R94), a precision field is a `Prec` (30 R88). -/

namespace Sys2Proof

/-- The precision of a floating-point operand (43 R190): the field values `00` and `01`; `10` and `11` are not used,
and a word that holds one is no instruction (43 R194). -/
inductive Prec where
  | single
  | double
deriving DecidableEq, Repr

/-- An instruction. -/
inductive Instr where
  -- logical (spec 40)
  | andImm (u : Bool) (d s1 : Reg) (imm : Half)
  | andReg (c : Bool) (d s1 s2 : Reg)
  | xorImm (u : Bool) (d s1 : Reg) (imm : Half)
  | xorReg (c : Bool) (d s1 s2 : Reg)
  | maskImm (u : Bool) (d s1 : Reg) (imm : Half)
  | orImm (u : Bool) (d s1 : Reg) (imm : Half)
  | orReg (c : Bool) (d s1 s2 : Reg)
  -- integer arithmetic (spec 41)
  | addImm (d s1 : Reg) (imm : Half)
  | addReg (i o : Bool) (d s1 s2 : Reg)
  | adduImm (d s1 : Reg) (imm : Half)
  | adduReg (i o : Bool) (d s1 s2 : Reg)
  | subImm (d s1 : Reg) (imm : Half)
  | subReg (i o : Bool) (d s1 s2 : Reg)
  | subuImm (d s1 : Reg) (imm : Half)
  | subuReg (i o : Bool) (d s1 s2 : Reg)
  | cmpImm (d s1 : Reg) (imm : Half)
  | cmpReg (d s1 s2 : Reg)
  | mulsReg (d s1 s2 : Reg)
  | muluImm (d s1 : Reg) (imm : Half)
  | muluReg (dbl : Bool) (d s1 s2 : Reg)
  | divsImm (d s1 : Reg) (imm : Half)
  | divsReg (d s1 s2 : Reg)
  | divuImm (d s1 : Reg) (imm : Half)
  | divuReg (dbl : Bool) (d s1 s2 : Reg)
  -- bit field (spec 42)
  | clrBit (d s1 : Reg) (w5 o5 : BitVec 5)
  | clrReg (d s1 s2 : Reg)
  | setBit (d s1 : Reg) (w5 o5 : BitVec 5)
  | setReg (d s1 s2 : Reg)
  | extBit (d s1 : Reg) (w5 o5 : BitVec 5)
  | extReg (d s1 s2 : Reg)
  | extuBit (d s1 : Reg) (w5 o5 : BitVec 5)
  | extuReg (d s1 s2 : Reg)
  | makBit (d s1 : Reg) (w5 o5 : BitVec 5)
  | makReg (d s1 s2 : Reg)
  | rotBit (d s1 : Reg) (o5 : BitVec 5)
  | rotReg (d s1 s2 : Reg)
  -- floating point (spec 43)
  | fadd (t1 t2 td : Prec) (d s1 s2 : Reg)
  | fcmp (t1 t2 : Prec) (d s1 s2 : Reg)
  | fcvt (t2 td : Prec) (d s2 : Reg)
  | fdiv (t1 t2 td : Prec) (d s1 s2 : Reg)
  | flt (td : Prec) (d s2 : Reg)
  | fmul (t1 t2 td : Prec) (d s1 s2 : Reg)
  | fsub (t1 t2 td : Prec) (d s1 s2 : Reg)
  | fint (t2 : Prec) (d s2 : Reg)
  -- control flow (spec 44)
  | bb0 (n : Bool) (b5 : BitVec 5) (s1 : Reg) (d16 : Half)
  | bb1 (n : Bool) (b5 : BitVec 5) (s1 : Reg) (d16 : Half)
  | br (n : Bool) (d26 : BitVec 26)
  | bsr (n : Bool) (d26 : BitVec 26)
  | jmp (n : Bool) (s2 : Reg)
  | jsr (n : Bool) (s2 : Reg)
  -- load, store, exchange, control register (spec 45)
  | lddImm (d s1 : Reg) (imm : Half)
  | ldImm (d s1 : Reg) (imm : Half)
  | ldhImm (d s1 : Reg) (imm : Half)
  | ldbImm (d s1 : Reg) (imm : Half)
  | ldhuImm (d s1 : Reg) (imm : Half)
  | ldbuImm (d s1 : Reg) (imm : Half)
  | lddReg (d s1 s2 : Reg)
  | ldReg (d s1 s2 : Reg)
  | ldhReg (d s1 s2 : Reg)
  | ldbReg (d s1 s2 : Reg)
  | ldhuReg (d s1 s2 : Reg)
  | ldbuReg (d s1 s2 : Reg)
  | stdImm (d s1 : Reg) (imm : Half)
  | stImm (d s1 : Reg) (imm : Half)
  | sthImm (d s1 : Reg) (imm : Half)
  | stbImm (d s1 : Reg) (imm : Half)
  | stdReg (wt : Bool) (d s1 s2 : Reg)
  | stReg (wt : Bool) (d s1 s2 : Reg)
  | sthReg (wt : Bool) (d s1 s2 : Reg)
  | stbReg (wt : Bool) (d s1 s2 : Reg)
  | ldcr (d : Reg)
  | stcr (s1 : Reg)
  | xmem (d s1 s2 : Reg)
  -- special (spec 46)
  | stop
deriving DecidableEq, Repr

end Sys2Proof
end

