-- ==== Sys2Proof/Decode.lean ====
section
/-! DEFINITION. Decoding and encoding (spec 30). A word is the instruction of the one row of the opcode table whose
fixed bits it has (30 R99); a word that matches no row is no instruction (30 R100). The byte-order helpers that
instruction fetch and data accesses share (20 R52, R53) stand here too. The encoder is written from the formats
(30 R84 to R92) and not from the rows. -/

namespace Sys2Proof

/-- The bits of `x` placed with its bit 0 at bit `k` of a word (a field of a diagram, 30 R81). -/
def place {n : Nat} (x : BitVec n) (k : Nat) : Word := x.setWidth 32 <<< k

/-- LDST_REG_MAJOR (30 R102, D17): the major opcode of the register-indexed `ld` (signed and full sizes) and `st`,
as the source prints it. -/
def ldstRegMajor : BitVec 6 := 0b111100#6

/-- Field `D`, bits 25:21 (30 R82). -/
def fD (w : Word) : Reg := w.extractLsb' 21 5

/-- Field `S1`, bits 20:16 (30 R82). -/
def fS1 (w : Word) : Reg := w.extractLsb' 16 5

/-- Field `S2`, bits 4:0 (30 R82). -/
def fS2 (w : Word) : Reg := w.extractLsb' 0 5

/-- The 16-bit immediate or displacement, bits 15:0 (30 R83). -/
def fImm (w : Word) : Half := w.extractLsb' 0 16

/-- Field `W5`, bits 9:5 (30 R87). -/
def fW5 (w : Word) : BitVec 5 := w.extractLsb' 5 5

/-- Field `O5`, bits 4:0 (30 R87). -/
def fO5 (w : Word) : BitVec 5 := w.extractLsb' 0 5

/-- Field `B5`, bits 25:21 (30 R89). -/
def fB5 (w : Word) : BitVec 5 := w.extractLsb' 21 5

/-- Field `D26`, bits 25:0 (30 R90). -/
def fD26 (w : Word) : BitVec 26 := w.extractLsb' 0 26

/-- The precision field whose low bit is bit `k` (30 R88: the rows fix its high bit to 0). -/
def fPrec (w : Word) (k : Nat) : Prec := if w.getLsbD k then .double else .single

/-- The two-bit value of a precision field: `00` single, `01` double (30 R88). -/
def Prec.bits (p : Prec) : BitVec 2 :=
  match p with
  | .single => 0b00#2
  | .double => 0b01#2

/-- A row of the opcode table: a word `w` is the row's instruction when `w &&& mask = value` (30, introduction). -/
structure Row where
  mask : Word
  value : Word
  build : Word → Instr

/-- The row's fixed bits stand in `w`. -/
def Row.hits (r : Row) (w : Word) : Bool := w &&& r.mask == r.value

/-- Two rows that no word can match both: some bit that both fix has two values. -/
def Row.apart (r q : Row) : Bool := r.value &&& (r.mask &&& q.mask) != q.value &&& (r.mask &&& q.mask)

/-- The logical rows of the opcode table, in its order. -/
def logicalRows : List Row :=
  [⟨0xF8000000#32, 0x40000000#32, fun w => .andImm (w.getLsbD 26) (fD w) (fS1 w) (fImm w)⟩,
   ⟨0xFC00FBE0#32, 0xF4004000#32, fun w => .andReg (w.getLsbD 10) (fD w) (fS1 w) (fS2 w)⟩,
   ⟨0xF8000000#32, 0x50000000#32, fun w => .xorImm (w.getLsbD 26) (fD w) (fS1 w) (fImm w)⟩,
   ⟨0xFC00FBE0#32, 0xF4005000#32, fun w => .xorReg (w.getLsbD 10) (fD w) (fS1 w) (fS2 w)⟩,
   ⟨0xF8000000#32, 0x48000000#32, fun w => .maskImm (w.getLsbD 26) (fD w) (fS1 w) (fImm w)⟩,
   ⟨0xF8000000#32, 0x58000000#32, fun w => .orImm (w.getLsbD 26) (fD w) (fS1 w) (fImm w)⟩,
   ⟨0xFC00FBE0#32, 0xF4005800#32, fun w => .orReg (w.getLsbD 10) (fD w) (fS1 w) (fS2 w)⟩]

/-- The integer arithmetic rows of the opcode table, in its order. -/
def integerRows : List Row :=
  [⟨0xFC000000#32, 0x70000000#32, fun w => .addImm (fD w) (fS1 w) (fImm w)⟩,
   ⟨0xFC00FCE0#32, 0xF4007000#32, fun w => .addReg (w.getLsbD 9) (w.getLsbD 8) (fD w) (fS1 w) (fS2 w)⟩,
   ⟨0xFC000000#32, 0x60000000#32, fun w => .adduImm (fD w) (fS1 w) (fImm w)⟩,
   ⟨0xFC00FCE0#32, 0xF4006000#32, fun w => .adduReg (w.getLsbD 9) (w.getLsbD 8) (fD w) (fS1 w) (fS2 w)⟩,
   ⟨0xFC000000#32, 0x74000000#32, fun w => .subImm (fD w) (fS1 w) (fImm w)⟩,
   ⟨0xFC00FCE0#32, 0xF4007400#32, fun w => .subReg (w.getLsbD 9) (w.getLsbD 8) (fD w) (fS1 w) (fS2 w)⟩,
   ⟨0xFC000000#32, 0x64000000#32, fun w => .subuImm (fD w) (fS1 w) (fImm w)⟩,
   ⟨0xFC00FCE0#32, 0xF4006400#32, fun w => .subuReg (w.getLsbD 9) (w.getLsbD 8) (fD w) (fS1 w) (fS2 w)⟩,
   ⟨0xFC000000#32, 0x7C000000#32, fun w => .cmpImm (fD w) (fS1 w) (fImm w)⟩,
   ⟨0xFC00FFE0#32, 0xF4007C00#32, fun w => .cmpReg (fD w) (fS1 w) (fS2 w)⟩,
   ⟨0xFC00FFE0#32, 0xF4006E00#32, fun w => .mulsReg (fD w) (fS1 w) (fS2 w)⟩,
   ⟨0xFC000000#32, 0x6C000000#32, fun w => .muluImm (fD w) (fS1 w) (fImm w)⟩,
   ⟨0xFC00FEE0#32, 0xF4006C00#32, fun w => .muluReg (w.getLsbD 8) (fD w) (fS1 w) (fS2 w)⟩,
   ⟨0xFC000000#32, 0x78000000#32, fun w => .divsImm (fD w) (fS1 w) (fImm w)⟩,
   ⟨0xFC00FFE0#32, 0xF4007800#32, fun w => .divsReg (fD w) (fS1 w) (fS2 w)⟩,
   ⟨0xFC000000#32, 0x68000000#32, fun w => .divuImm (fD w) (fS1 w) (fImm w)⟩,
   ⟨0xFC00FEE0#32, 0xF4006800#32, fun w => .divuReg (w.getLsbD 8) (fD w) (fS1 w) (fS2 w)⟩]

/-- The bit field rows of the opcode table, in its order. -/
def bitFieldRows : List Row :=
  [⟨0xFC00FC00#32, 0xF0008000#32, fun w => .clrBit (fD w) (fS1 w) (fW5 w) (fO5 w)⟩,
   ⟨0xFC00FFE0#32, 0xF4008000#32, fun w => .clrReg (fD w) (fS1 w) (fS2 w)⟩,
   ⟨0xFC00FC00#32, 0xF0008800#32, fun w => .setBit (fD w) (fS1 w) (fW5 w) (fO5 w)⟩,
   ⟨0xFC00FFE0#32, 0xF4008800#32, fun w => .setReg (fD w) (fS1 w) (fS2 w)⟩,
   ⟨0xFC00FC00#32, 0xF0009000#32, fun w => .extBit (fD w) (fS1 w) (fW5 w) (fO5 w)⟩,
   ⟨0xFC00FFE0#32, 0xF4009000#32, fun w => .extReg (fD w) (fS1 w) (fS2 w)⟩,
   ⟨0xFC00FC00#32, 0xF0009800#32, fun w => .extuBit (fD w) (fS1 w) (fW5 w) (fO5 w)⟩,
   ⟨0xFC00FFE0#32, 0xF4009800#32, fun w => .extuReg (fD w) (fS1 w) (fS2 w)⟩,
   ⟨0xFC00FC00#32, 0xF000A000#32, fun w => .makBit (fD w) (fS1 w) (fW5 w) (fO5 w)⟩,
   ⟨0xFC00FFE0#32, 0xF400A000#32, fun w => .makReg (fD w) (fS1 w) (fS2 w)⟩,
   ⟨0xFC00FFE0#32, 0xF000A800#32, fun w => .rotBit (fD w) (fS1 w) (fO5 w)⟩,
   ⟨0xFC00FFE0#32, 0xF400A800#32, fun w => .rotReg (fD w) (fS1 w) (fS2 w)⟩]

/-- The floating point rows of the opcode table, in its order. -/
def floatRows : List Row :=
  [⟨0xFC00FD40#32, 0x84002800#32, fun w => .fadd (fPrec w 9) (fPrec w 7) (fPrec w 5) (fD w) (fS1 w) (fS2 w)⟩,
   ⟨0xFC00FD60#32, 0x84003800#32, fun w => .fcmp (fPrec w 9) (fPrec w 7) (fD w) (fS1 w) (fS2 w)⟩,
   ⟨0xFC1FFF40#32, 0x84000800#32, fun w => .fcvt (fPrec w 7) (fPrec w 5) (fD w) (fS2 w)⟩,
   ⟨0xFC00FD40#32, 0x84007000#32, fun w => .fdiv (fPrec w 9) (fPrec w 7) (fPrec w 5) (fD w) (fS1 w) (fS2 w)⟩,
   ⟨0xFC1FFFC0#32, 0x84002000#32, fun w => .flt (fPrec w 5) (fD w) (fS2 w)⟩,
   ⟨0xFC00FD40#32, 0x84000000#32, fun w => .fmul (fPrec w 9) (fPrec w 7) (fPrec w 5) (fD w) (fS1 w) (fS2 w)⟩,
   ⟨0xFC00FD40#32, 0x84003000#32, fun w => .fsub (fPrec w 9) (fPrec w 7) (fPrec w 5) (fD w) (fS1 w) (fS2 w)⟩,
   ⟨0xFC1FFF60#32, 0x84004800#32, fun w => .fint (fPrec w 7) (fD w) (fS2 w)⟩]

/-- The control flow rows of the opcode table, in its order. -/
def controlRows : List Row :=
  [⟨0xF8000000#32, 0xD0000000#32, fun w => .bb0 (w.getLsbD 26) (fB5 w) (fS1 w) (fImm w)⟩,
   ⟨0xF8000000#32, 0xD8000000#32, fun w => .bb1 (w.getLsbD 26) (fB5 w) (fS1 w) (fImm w)⟩,
   ⟨0xF8000000#32, 0xC0000000#32, fun w => .br (w.getLsbD 26) (fD26 w)⟩,
   ⟨0xF8000000#32, 0xC8000000#32, fun w => .bsr (w.getLsbD 26) (fD26 w)⟩,
   ⟨0xFFFFFBE0#32, 0xF400C000#32, fun w => .jmp (w.getLsbD 10) (fS2 w)⟩,
   ⟨0xFFFFFBE0#32, 0xF400C800#32, fun w => .jsr (w.getLsbD 10) (fS2 w)⟩]

/-- The load, store, exchange and control register rows of the opcode table, in its order. -/
def loadStoreRows (major : BitVec 6) : List Row :=
  [⟨0xFC000000#32, 0x10000000#32, fun w => .lddImm (fD w) (fS1 w) (fImm w)⟩,
   ⟨0xFC000000#32, 0x14000000#32, fun w => .ldImm (fD w) (fS1 w) (fImm w)⟩,
   ⟨0xFC000000#32, 0x18000000#32, fun w => .ldhImm (fD w) (fS1 w) (fImm w)⟩,
   ⟨0xFC000000#32, 0x1C000000#32, fun w => .ldbImm (fD w) (fS1 w) (fImm w)⟩,
   ⟨0xFC000000#32, 0x08000000#32, fun w => .ldhuImm (fD w) (fS1 w) (fImm w)⟩,
   ⟨0xFC000000#32, 0x0C000000#32, fun w => .ldbuImm (fD w) (fS1 w) (fImm w)⟩,
   ⟨0xFC00FFE0#32, (place major 26 ||| 0x00001000#32), fun w => .lddReg (fD w) (fS1 w) (fS2 w)⟩,
   ⟨0xFC00FFE0#32, (place major 26 ||| 0x00001400#32), fun w => .ldReg (fD w) (fS1 w) (fS2 w)⟩,
   ⟨0xFC00FFE0#32, (place major 26 ||| 0x00001800#32), fun w => .ldhReg (fD w) (fS1 w) (fS2 w)⟩,
   ⟨0xFC00FFE0#32, (place major 26 ||| 0x00001C00#32), fun w => .ldbReg (fD w) (fS1 w) (fS2 w)⟩,
   ⟨0xFC00FFE0#32, 0xF4000800#32, fun w => .ldhuReg (fD w) (fS1 w) (fS2 w)⟩,
   ⟨0xFC00FFE0#32, 0xF4000C00#32, fun w => .ldbuReg (fD w) (fS1 w) (fS2 w)⟩,
   ⟨0xFC000000#32, 0x20000000#32, fun w => .stdImm (fD w) (fS1 w) (fImm w)⟩,
   ⟨0xFC000000#32, 0x24000000#32, fun w => .stImm (fD w) (fS1 w) (fImm w)⟩,
   ⟨0xFC000000#32, 0x28000000#32, fun w => .sthImm (fD w) (fS1 w) (fImm w)⟩,
   ⟨0xFC000000#32, 0x2C000000#32, fun w => .stbImm (fD w) (fS1 w) (fImm w)⟩,
   ⟨0xFC00FDE0#32, (place major 26 ||| 0x00002000#32), fun w => .stdReg (w.getLsbD 9) (fD w) (fS1 w) (fS2 w)⟩,
   ⟨0xFC00FDE0#32, (place major 26 ||| 0x00002400#32), fun w => .stReg (w.getLsbD 9) (fD w) (fS1 w) (fS2 w)⟩,
   ⟨0xFC00FDE0#32, (place major 26 ||| 0x00002800#32), fun w => .sthReg (w.getLsbD 9) (fD w) (fS1 w) (fS2 w)⟩,
   ⟨0xFC00FDE0#32, (place major 26 ||| 0x00002C00#32), fun w => .stbReg (w.getLsbD 9) (fD w) (fS1 w) (fS2 w)⟩,
   ⟨0xFC1FFFFF#32, 0x80000000#32, fun w => .ldcr (fD w)⟩,
   ⟨0xFFE0FFFF#32, 0x80008000#32, fun w => .stcr (fS1 w)⟩,
   ⟨0xFC00FFE0#32, 0xF4000000#32, fun w => .xmem (fD w) (fS1 w) (fS2 w)⟩]

/-- The special rows of the opcode table, in its order. -/
def specialRows : List Row :=
  [⟨0xFFFFFFFF#32, 0xFFFFFFFF#32, fun _ => .stop⟩]

/-- The 74 rows of `spec/opcode_table.json` (30 R99), with LDST_REG_MAJOR as an argument (30 R102). -/
def rows (major : BitVec 6) : List Row :=
  logicalRows ++ integerRows ++ bitFieldRows ++ floatRows ++ controlRows ++ loadStoreRows major ++ specialRows

/-- The instruction of a word for a value of LDST_REG_MAJOR, or none where no row matches (30 R99, R100). -/
def decodeWith (major : BitVec 6) (w : Word) : Option Instr :=
  ((rows major).find? (fun r => r.hits w)).map (fun r => r.build w)

/-- The instruction of a word (30 R99), or none: the word is no instruction (30 R100). -/
def decode (w : Word) : Option Instr := decodeWith ldstRegMajor w

/-- The value of bytes in ascending address order: little endian, byte `k` supplies bits `8k+7:8k` (20 R52). -/
def assembleLittle : List Byte → DWord
  | [] => 0#64
  | b :: bs => assembleLittle bs <<< 8 ||| b.setWidth 64

/-- The value of at most 8 bytes in ascending address order, in the byte order `le` (20 R52). -/
def assemble (le : Bool) (bs : List Byte) : DWord := assembleLittle (if le then bs else bs.reverse)

/-- The `n` low bytes of `v`, least significant first. -/
def bytesLittle : Nat → DWord → List Byte
  | 0, _ => []
  | n + 1, v => v.setWidth 8 :: bytesLittle n (v >>> 8)

/-- The `n` low bytes of `v` in ascending address order, in the byte order `le` (20 R53). -/
def bytesOf (le : Bool) (n : Nat) (v : DWord) : List Byte :=
  if le then bytesLittle n v else (bytesLittle n v).reverse

/-- Why bytes are refused by the decoder. -/
inductive DecodeReject where
  /-- Fewer than the four bytes of an instruction (30 R80). -/
  | fewerThanFourBytes
  /-- The word matches no row of the opcode table (30 R100). -/
  | notAnInstruction (w : Word)
deriving DecidableEq, Repr

/-- The instruction that a list of bytes in ascending address order begins with, and the bytes after it: every
instruction is four bytes (30 R80), read in the byte order `le` (20 R57). -/
def decodeBytes (le : Bool) (bs : List Byte) : Except DecodeReject (Instr × List Byte) :=
  match bs with
  | b0 :: b1 :: b2 :: b3 :: rest =>
    let w := (assemble le [b0, b1, b2, b3]).setWidth 32
    match decode w with
    | some i => .ok (i, rest)
    | none => .error (.notAnInstruction w)
  | _ => .error .fewerThanFourBytes

/-- The bytes of the instruction whose bits are the low `nbits` bits of `w`, in the byte order `le`. -/
def tableWordBytes (le : Bool) (nbits w : Nat) : List Byte := bytesOf le 4 (BitVec.ofNat 64 (w % 2 ^ nbits % 2 ^ 32))

/-- The instruction the decoder reads from an opcode-table word, laid out little endian as in every figure (00 R8). -/
def decodeTableWord (nbits w : Nat) : Option Instr :=
  match decodeBytes true (tableWordBytes true nbits w) with
  | .ok (i, _) => some i
  | .error _ => none

/-! ## The encoder -/

/-- Format `IMM16L` (30 R84). -/
def encImm16L (op : BitVec 5) (u : Bool) (d s1 : Reg) (imm : Half) : Word :=
  place op 27 ||| place (BitVec.ofBool u) 26 ||| place d 21 ||| place s1 16 ||| place imm 0

/-- Format `IMM16` (30 R85). -/
def encImm16 (op : BitVec 6) (d s1 : Reg) (imm : Half) : Word :=
  place op 26 ||| place d 21 ||| place s1 16 ||| place imm 0

/-- Format `TRI` (30 R86): `sub` is bits 15:5 with its option bits 0. -/
def encTri (major : BitVec 6) (d s1 : Reg) (sub : BitVec 11) (s2 : Reg) : Word :=
  place major 26 ||| place d 21 ||| place s1 16 ||| place sub 5 ||| place s2 0

/-- An option bit at bit `k` (30 R86). -/
def optionBit (b : Bool) (k : Nat) : Word := place (BitVec.ofBool b) k

/-- Format `BIT` (30 R87). -/
def encBit (d s1 : Reg) (sub : BitVec 6) (w5 o5 : BitVec 5) : Word :=
  place 0b111100#6 26 ||| place d 21 ||| place s1 16 ||| place sub 10 ||| place w5 5 ||| place o5 0

/-- Format `FP` (30 R88). -/
def encFp (d s1 : Reg) (sub : BitVec 5) (t1 t2 td : Prec) (s2 : Reg) : Word :=
  place 0b100001#6 26 ||| place d 21 ||| place s1 16 ||| place sub 11 ||| place t1.bits 9 ||| place t2.bits 7
    ||| place td.bits 5 ||| place s2 0

/-- Format `BB` (30 R89). -/
def encBb (op : BitVec 5) (n : Bool) (b5 : BitVec 5) (s1 : Reg) (d16 : Half) : Word :=
  place op 27 ||| place (BitVec.ofBool n) 26 ||| place b5 21 ||| place s1 16 ||| place d16 0

/-- Format `BR26` (30 R90). -/
def encBr26 (op : BitVec 5) (n : Bool) (d26 : BitVec 26) : Word :=
  place op 27 ||| place (BitVec.ofBool n) 26 ||| place d26 0

/-- Format `JMP` (30 R91). -/
def encJmp (sub : BitVec 5) (n : Bool) (s2 : Reg) : Word :=
  place 0b111101#6 26 ||| place sub 11 ||| place (BitVec.ofBool n) 10 ||| place s2 0

/-- The word of an instruction, for a value of LDST_REG_MAJOR (30 R84 to R92, R102). -/
def encodeWith (major : BitVec 6) (i : Instr) : Word :=
  match i with
  | .andImm u d s1 imm => encImm16L 0b01000#5 u d s1 imm
  | .andReg c d s1 s2 => encTri 0b111101#6 d s1 0b01000000000#11 s2 ||| optionBit c 10
  | .xorImm u d s1 imm => encImm16L 0b01010#5 u d s1 imm
  | .xorReg c d s1 s2 => encTri 0b111101#6 d s1 0b01010000000#11 s2 ||| optionBit c 10
  | .maskImm u d s1 imm => encImm16L 0b01001#5 u d s1 imm
  | .orImm u d s1 imm => encImm16L 0b01011#5 u d s1 imm
  | .orReg c d s1 s2 => encTri 0b111101#6 d s1 0b01011000000#11 s2 ||| optionBit c 10
  | .addImm d s1 imm => encImm16 0b011100#6 d s1 imm
  | .addReg i o d s1 s2 => encTri 0b111101#6 d s1 0b01110000000#11 s2 ||| optionBit i 9 ||| optionBit o 8
  | .adduImm d s1 imm => encImm16 0b011000#6 d s1 imm
  | .adduReg i o d s1 s2 => encTri 0b111101#6 d s1 0b01100000000#11 s2 ||| optionBit i 9 ||| optionBit o 8
  | .subImm d s1 imm => encImm16 0b011101#6 d s1 imm
  | .subReg i o d s1 s2 => encTri 0b111101#6 d s1 0b01110100000#11 s2 ||| optionBit i 9 ||| optionBit o 8
  | .subuImm d s1 imm => encImm16 0b011001#6 d s1 imm
  | .subuReg i o d s1 s2 => encTri 0b111101#6 d s1 0b01100100000#11 s2 ||| optionBit i 9 ||| optionBit o 8
  | .cmpImm d s1 imm => encImm16 0b011111#6 d s1 imm
  | .cmpReg d s1 s2 => encTri 0b111101#6 d s1 0b01111100000#11 s2
  | .mulsReg d s1 s2 => encTri 0b111101#6 d s1 0b01101110000#11 s2
  | .muluImm d s1 imm => encImm16 0b011011#6 d s1 imm
  | .muluReg dbl d s1 s2 => encTri 0b111101#6 d s1 0b01101100000#11 s2 ||| optionBit dbl 8
  | .divsImm d s1 imm => encImm16 0b011110#6 d s1 imm
  | .divsReg d s1 s2 => encTri 0b111101#6 d s1 0b01111000000#11 s2
  | .divuImm d s1 imm => encImm16 0b011010#6 d s1 imm
  | .divuReg dbl d s1 s2 => encTri 0b111101#6 d s1 0b01101000000#11 s2 ||| optionBit dbl 8
  | .clrBit d s1 w5 o5 => encBit d s1 0b100000#6 w5 o5
  | .clrReg d s1 s2 => encTri 0b111101#6 d s1 0b10000000000#11 s2
  | .setBit d s1 w5 o5 => encBit d s1 0b100010#6 w5 o5
  | .setReg d s1 s2 => encTri 0b111101#6 d s1 0b10001000000#11 s2
  | .extBit d s1 w5 o5 => encBit d s1 0b100100#6 w5 o5
  | .extReg d s1 s2 => encTri 0b111101#6 d s1 0b10010000000#11 s2
  | .extuBit d s1 w5 o5 => encBit d s1 0b100110#6 w5 o5
  | .extuReg d s1 s2 => encTri 0b111101#6 d s1 0b10011000000#11 s2
  | .makBit d s1 w5 o5 => encBit d s1 0b101000#6 w5 o5
  | .makReg d s1 s2 => encTri 0b111101#6 d s1 0b10100000000#11 s2
  | .rotBit d s1 o5 => encBit d s1 0b101010#6 0#5 o5
  | .rotReg d s1 s2 => encTri 0b111101#6 d s1 0b10101000000#11 s2
  | .fadd t1 t2 td d s1 s2 => encFp d s1 0b00101#5 t1 t2 td s2
  | .fcmp t1 t2 d s1 s2 => encFp d s1 0b00111#5 t1 t2 .single s2
  | .fcvt t2 td d s2 => encFp d 0#5 0b00001#5 .single t2 td s2
  | .fdiv t1 t2 td d s1 s2 => encFp d s1 0b01110#5 t1 t2 td s2
  | .flt td d s2 => encFp d 0#5 0b00100#5 .single .single td s2
  | .fmul t1 t2 td d s1 s2 => encFp d s1 0b00000#5 t1 t2 td s2
  | .fsub t1 t2 td d s1 s2 => encFp d s1 0b00110#5 t1 t2 td s2
  | .fint t2 d s2 => encFp d 0#5 0b01001#5 .single t2 .single s2
  | .bb0 n b5 s1 d16 => encBb 0b11010#5 n b5 s1 d16
  | .bb1 n b5 s1 d16 => encBb 0b11011#5 n b5 s1 d16
  | .br n d26 => encBr26 0b11000#5 n d26
  | .bsr n d26 => encBr26 0b11001#5 n d26
  | .jmp n s2 => encJmp 0b11000#5 n s2
  | .jsr n s2 => encJmp 0b11001#5 n s2
  | .lddImm d s1 imm => encImm16 0b000100#6 d s1 imm
  | .ldImm d s1 imm => encImm16 0b000101#6 d s1 imm
  | .ldhImm d s1 imm => encImm16 0b000110#6 d s1 imm
  | .ldbImm d s1 imm => encImm16 0b000111#6 d s1 imm
  | .ldhuImm d s1 imm => encImm16 0b000010#6 d s1 imm
  | .ldbuImm d s1 imm => encImm16 0b000011#6 d s1 imm
  | .lddReg d s1 s2 => encTri major d s1 0b00010000000#11 s2
  | .ldReg d s1 s2 => encTri major d s1 0b00010100000#11 s2
  | .ldhReg d s1 s2 => encTri major d s1 0b00011000000#11 s2
  | .ldbReg d s1 s2 => encTri major d s1 0b00011100000#11 s2
  | .ldhuReg d s1 s2 => encTri 0b111101#6 d s1 0b00001000000#11 s2
  | .ldbuReg d s1 s2 => encTri 0b111101#6 d s1 0b00001100000#11 s2
  | .stdImm d s1 imm => encImm16 0b001000#6 d s1 imm
  | .stImm d s1 imm => encImm16 0b001001#6 d s1 imm
  | .sthImm d s1 imm => encImm16 0b001010#6 d s1 imm
  | .stbImm d s1 imm => encImm16 0b001011#6 d s1 imm
  | .stdReg wt d s1 s2 => encTri major d s1 0b00100000000#11 s2 ||| optionBit wt 9
  | .stReg wt d s1 s2 => encTri major d s1 0b00100100000#11 s2 ||| optionBit wt 9
  | .sthReg wt d s1 s2 => encTri major d s1 0b00101000000#11 s2 ||| optionBit wt 9
  | .stbReg wt d s1 s2 => encTri major d s1 0b00101100000#11 s2 ||| optionBit wt 9
  | .ldcr d => place 0b100000#6 26 ||| place d 21
  | .stcr s1 => place 0b100000#6 26 ||| place s1 16 ||| 0x8000#32
  | .xmem d s1 s2 => encTri 0b111101#6 d s1 0b00000000000#11 s2
  | .stop => 0xFFFFFFFF#32

/-- The word of an instruction (30 R84 to R92). -/
def encode (i : Instr) : Word := encodeWith ldstRegMajor i

end Sys2Proof
end

