-- ==== Sys2Proof/Config.lean ====
section
/-! DEFINITION. What an emulated machine's configuration fixes (spec 00 R8, 70 R337), the alternatives of the
spec's named parameters (00 R9, 92, 93; their values stand in `Machine/Params.lean` and `Decode.lean`), and the
free values: constants without a body, about which nothing can be proved. -/

namespace Sys2Proof.Config

/-- The execution mode, chosen by the configuration and by no instruction (00 R7). -/
inductive ExecMode where
  | serial
  | superscalar
deriving DecidableEq, Repr

/-- Placement policy of an emulated cache (00 R8). -/
inductive Placement where
  | associative
  | setAssociative
  | direct
deriving DecidableEq, Repr

/-- Write policy of the emulated data cache (00 R8). -/
inductive WritePolicy where
  | copyBack
  | writeThrough
deriving DecidableEq, Repr

/-- The parameters an emulated cache has (00 R8). No rule of the machine depends on them (20 R69). -/
structure Cache where
  enabled : Bool
  accessTime : Nat
  placement : Placement
  lines : Nat
  bytesPerLine : Nat
  linesPerSet : Nat
deriving DecidableEq, Repr

/-- The emulator's configuration (70 R337): INITIAL_CR (10 R45: byte order in bit 30, exception inhibition in
bit 0, rounding mode in bits 11:10), the execution mode, and the two caches with the data cache's write policy. -/
structure Emulator where
  initialCR : Word
  mode : ExecMode
  dcache : Cache
  dcachePolicy : WritePolicy
  icache : Cache
deriving DecidableEq, Repr

/-- A disabled cache of the least line size the spec admits. DESIGN CHOICE (log entry 29): the spec gives no
default cache parameters; nothing reads them. -/
def Cache.off : Cache :=
  { enabled := false, accessTime := 0, placement := .direct, lines := 1, bytesPerLine := 8, linesPerSet := 1 }

/-- The configuration of every example of the source (70 R337, 10 R45): little endian, serial, exceptions
inhibited, `INITIAL_CR = 0x40000001`. -/
def Emulator.default : Emulator :=
  { initialCR := 0x40000001#32, mode := .serial, dcache := Cache.off, dcachePolicy := .writeThrough,
    icache := Cache.off }

/-- The byte order the program was loaded with: bit 30 of INITIAL_CR (20 R57, 70 R333). -/
def Emulator.littleEndian (c : Emulator) : Bool := c.initialCR.getLsbD 30

/-- SUB_CARRY (41 R142, D9). -/
inductive SubCarry where
  | borrow
  | notBorrow
deriving DecidableEq, Repr

/-- DIVS_ROUNDING (41 R164, D11). -/
inductive DivsRounding where
  | truncate
  | floor
deriving DecidableEq, Repr

/-- OVF_INHIBITED_RD (41 R143, D8). -/
inductive OvfInhibitedRd where
  | unchanged
  | wrapped
deriving DecidableEq, Repr

/-- CR_UNUSED_BITS (10 R34, D5). -/
inductive CrUnusedBits where
  | asWritten
  | anyValue
deriving DecidableEq, Repr

/-- FCMP_NAN (43 R196, D32). -/
inductive FcmpNan where
  | unorderedResult
  | reservedOperand
deriving DecidableEq, Repr

/-- FETCH_ORDER (20 R57, D18). -/
inductive FetchOrder where
  | faultOnChange
  | fixedAtLoad
deriving DecidableEq, Repr

/-- SMC (20 R67, D19). -/
inductive SelfModifyingCode where
  | fault
  | visible
deriving DecidableEq, Repr

/-- EXC_ENTRY (60 R296, D15): the spec describes one value. -/
inductive ExcEntry where
  | terminal
deriving DecidableEq, Repr

/-- FREE VALUE (10 R35, D20; log entry 27): what CR bits 13 and 12 hold after the n-th draw, in superscalar mode,
following an inhibited integer exception. -/
opaque superscalarFlags : Nat → BitVec 2

/-- FREE VALUE (10 R34, D5; log entry 18): what the unused CR bits read as at the n-th draw, under
CR_UNUSED_BITS = any. -/
opaque unusedCrBits : Nat → Word

/-- FREE VALUE (70 R351; log entry 32): whether host command `E` stops at once when a breakpoint stands at the
current `pc`. -/
opaque stopsAtCurrentBreakpoint : Bool

end Sys2Proof.Config
end

