-- ==== Sys2Proof/Machine/State.lean ====
section
/-! DEFINITION. The machine's state as plain data (spec 10), the reasons a step stops (spec 60 R302, 93), and the
state after reset (10 R44, 70 R331). -/

namespace Sys2Proof.Machine

/-- The six exceptions the source names (60 R290). -/
inductive Cause where
  | integerOverflow
  | integerDivideByZero
  | fpReservedOperand
  | fpDivideByZero
  | fpOverflow
  | fpUnderflow
deriving DecidableEq, Repr

/-- Whether instructions are still executed: running, ended by `stop` (46 R280), or ended by an exception raised with
`CR.EI = 0`, with its cause and the address of the instruction that caused it (60 R296). The last two are terminal. -/
inductive RunState where
  | running
  | stopped
  | exception (cause : Cause) (pc : Word)
deriving DecidableEq, Repr

/-- Main memory (10 R38): the bytes that differ from `0x00`, by strictly rising address (`Memory.wf` in `Ops.lean`).
An address that is not listed reads as `0x00` (70 R335; log entry 3). -/
abbrev Memory := List Host.Cell

/-- The state of the machine (spec 10). -/
structure State where
  /-- The general registers `r0` to `r31` (10 R20); `r0` is read and written as 10 R21 says in `Ops.lean`. -/
  regs : Vector Word 32
  /-- The program counter (10 R25): the address of the instruction to be executed. -/
  pc : Word
  /-- The control register `CR` (10 R26). -/
  cr : Word
  /-- Main memory (10 R38). -/
  mem : Memory
  /-- The addresses the program has stored to since loading, strictly rising (20 R67). -/
  stored : List Nat
  /-- The pending delayed branch: its target, or none (10 R39). -/
  delay : Option Word
  /-- Running, stopped or ended by an exception (46 R280, 60 R296). -/
  run : RunState
  /-- The active breakpoints, strictly rising addresses (10 R42, 70 R351): host side, read by host command `E` only. -/
  breakpoints : List Nat
  /-- `Tot. Inst`, the number of executed instructions (10 R42): host side. -/
  totInst : Nat
  /-- The emulator's configuration (70 R337), fixed while the machine exists. -/
  cfg : Config.Emulator
  /-- THE MODEL'S OWN, not the spec's: how many free values have been drawn (log entry 28). -/
  freeCount : Nat
deriving DecidableEq, Repr

/-- Why a step stops without a next state: the faults of 60 R302, each with the address of the instruction, and the
two terminal states of a run, from which there is no next step. -/
inductive Fault where
  /-- A fetch, load, store or exchange touches an address above `0x3ffff` (20 R58). Raised by the check of an access
  and by the fetch. Safe: the model stops where the source gives the access no meaning (D3). -/
  | addressOutOfRange (pc addr : Word)
  /-- A half-word access at an odd address, or a wider one at an address that is not a multiple of 4 (20 R55). Raised
  by the check of an access. Safe: the source states no result (D4). -/
  | misaligned (pc addr : Word) (bytes : Nat)
  /-- The fetched word is no instruction (30 R100, 60 R303). Raised by `step`. Safe (D6). -/
  | illegalInstruction (pc word : Word)
  /-- A control-flow instruction is executed while a delayed branch is pending (44 R221). Raised by the six
  control-flow meanings. Safe (D16). -/
  | controlTransferInDelaySlot (pc : Word)
  /-- A 64-bit register operand is named by `r31` (10 R24). Raised by every meaning that reads or writes a pair.
  Safe (D12). -/
  | pairAtR31 (pc : Word)
  /-- A floating-point exception condition holds while exceptions are inhibited (60 R298). Raised by the
  floating-point meanings. Safe (D14). -/
  | unspecifiedFloatingPoint (pc : Word) (cause : Cause)
  /-- `stcr` would change `CR.LE` from its value at load (20 R57). Raised by `stcr` under FETCH_ORDER =
  fault-on-change. Safe (D18). -/
  | byteOrderChanged (pc : Word)
  /-- An instruction is fetched from a byte the program has stored to (20 R67). Raised by the fetch under
  SMC = fault. Safe (D19). -/
  | fetchAfterStore (pc : Word)
  /-- The machine is `Stopped`: `stop` has ended the run and nothing executes afterwards (46 R280, 93 U25). Raised by
  `step`. Safe: no next step exists. -/
  | machineStopped
  /-- The run has ended in `Exception(cause, pc)`: no further instruction executes (60 R296, 93 U15). Raised by
  `step`. Safe: no next step exists. -/
  | machineInException (cause : Cause) (pc : Word)
deriving DecidableEq, Repr

/-- Why an instruction has no meaning. -/
inductive Refusal where
  /-- The instruction is not modelled yet; raised by an arm of `exec` only. Safe: nothing can be proved of it. -/
  | notModelled (mnemonic : String)
deriving DecidableEq, Repr

/-- The state when the emulator is started with configuration `cfg`, before an image is copied (70 R331, 10 R44):
registers 0, `CR = INITIAL_CR`, `pc` 0, memory all `0x00`, no delayed branch, no breakpoint, counters 0. -/
def State.start (cfg : Config.Emulator) : State :=
  { regs := Vector.replicate 32 0#32, pc := 0#32, cr := cfg.initialCR, mem := [], stored := [], delay := none,
    run := .running, breakpoints := [], totInst := 0, cfg := cfg, freeCount := 0 }

/-- The machine right after reset, in the configuration of every example of the source (10 R45, 70 R337). -/
def State.reset : State := State.start Config.Emulator.default

end Sys2Proof.Machine
end

