-- ==== Sys2Proof/Machine/Params.lean ====
section
/-! DEFINITION. The values of the spec's named parameters (spec 00 R9, tabulated in 93), each at the default the spec
chooses. The parameter LDST_REG_MAJOR is `ldstRegMajor` of `Decode.lean`; INITIAL_CR and the execution mode are parts
of the configuration in `State.cfg`; ENTRY is part of an image (`Loader.lean`); RESERVED_OPERAND,
FP_EXCEPTION_CONDITIONS and FP_NUMERICS are the functions of `Float.lean`. -/

namespace Sys2Proof.Machine

open Sys2Proof.Config

/-- SUB_CARRY = borrow (41 R142, D9). -/
def subCarry : SubCarry := .borrow

/-- DIVS_ROUNDING = truncate (41 R164, D11). -/
def divsRounding : DivsRounding := .truncate

/-- OVF_INHIBITED_RD = unchanged (41 R143, D8). -/
def ovfInhibitedRd : OvfInhibitedRd := .unchanged

/-- FLAG_STICKY = true (10 R33, D7): an integer arithmetic instruction that meets no condition leaves `CR.OV` and
`CR.DZ` alone. -/
def flagSticky : Bool := true

/-- CR_UNUSED_BITS = as-written (10 R34, D5). -/
def crUnusedBits : CrUnusedBits := .asWritten

/-- FCMP_NAN = unordered-result (43 R196, D32). -/
def fcmpNan : FcmpNan := .unorderedResult

/-- FETCH_ORDER = fault-on-change (20 R57, D18). -/
def fetchOrder : FetchOrder := .faultOnChange

/-- SMC = fault (20 R67, D19). -/
def smc : SelfModifyingCode := .fault

/-- EXC_ENTRY = terminal (60 R296, D15). -/
def excEntry : ExcEntry := .terminal

end Sys2Proof.Machine
end

