-- ==== Sys2Proof/Machine/Ops.lean ====
section
/-! DEFINITION. The named operations on memory, registers and the control register; completing an instruction
(44 R221); transferring control, with and without a delay slot; TAKING AN EXCEPTION (60 R296). There is no return
from an exception: no instruction for it exists and no handler runs (60 R299). -/

namespace Sys2Proof.Machine

/-- What an instruction's meaning answers. -/
abbrev Result := Host.Outcome State Fault Refusal

/-! ## Memory -/

/-- What a byte that is not listed reads as (70 R331, R335; log entry 3). -/
def blankByte : Byte := 0x00#8

/-- The number of implemented byte addresses, 2^18 (20 R50). -/
def memSize : Nat := 0x40000

/-- The canonical form of a memory: addresses strictly rising and no entry that an unlisted address reads as. -/
abbrev Memory.wf (m : Memory) : Prop := m.Pairwise (fun x y => x.1 < y.1) ∧ ∀ c ∈ m, c.2 ≠ blankByte

/-- The byte at an address. -/
def Memory.read (m : Memory) (a : Nat) : Byte :=
  match m with
  | [] => blankByte
  | (x, b) :: t => if x = a then b else Memory.read t a

/-- The memory with one byte written, in canonical form: writing `0x00` removes the entry. -/
def Memory.write (m : Memory) (a : Nat) (b : Byte) : Memory :=
  match m with
  | [] => if b = blankByte then [] else [(a, b)]
  | (x, c) :: t =>
    if a < x then (if b = blankByte then (x, c) :: t else (a, b) :: (x, c) :: t)
    else if a = x then (if b = blankByte then t else (a, b) :: t)
    else (x, c) :: Memory.write t a b

/-- The `n` bytes from an address on, in ascending order. -/
def Memory.readBytes (m : Memory) (a : Nat) (n : Nat) : List Byte :=
  match n with
  | 0 => []
  | n + 1 => m.read a :: Memory.readBytes m (a + 1) n

/-- The memory with bytes written from an address on. -/
def Memory.writeBytes (m : Memory) (a : Nat) (bs : List Byte) : Memory :=
  match bs with
  | [] => m
  | b :: bs => Memory.writeBytes (m.write a b) (a + 1) bs

/-- An address added to a strictly rising list of addresses. -/
def insertAddr (l : List Nat) (a : Nat) : List Nat :=
  match l with
  | [] => [a]
  | x :: t => if a < x then a :: x :: t else if a = x then x :: t else x :: insertAddr t a

/-- The `n` addresses from `a` on added to a strictly rising list of addresses. -/
def insertAddrs (l : List Nat) (a : Nat) (n : Nat) : List Nat :=
  match n with
  | 0 => l
  | n + 1 => insertAddrs (insertAddr l a) (a + 1) n

/-- The byte of main memory at an address. -/
def State.byteAt (s : State) (a : Nat) : Byte := s.mem.read a

/-! ## The control register's fields (10 R26) -/

/-- `CR.EI`, bit 0: exceptions are inhibited (10 R27). -/
def State.ei (s : State) : Bool := s.cr.getLsbD 0

/-- `CR.RM`, bits 11:10: the rounding mode (10 R28). -/
def State.rm (s : State) : BitVec 2 := s.cr.extractLsb' 10 2

/-- `CR.OV`, bit 12: an integer overflow happened (10 R31). -/
def State.ov (s : State) : Bool := s.cr.getLsbD 12

/-- `CR.DZ`, bit 13: an integer division by zero happened (10 R32). -/
def State.dz (s : State) : Bool := s.cr.getLsbD 13

/-- `CR.C`, bit 28: the carry (10 R29). -/
def State.carry (s : State) : Bool := s.cr.getLsbD 28

/-- `CR.LE`, bit 30: little endian (10 R30). -/
def State.le (s : State) : Bool := s.cr.getLsbD 30

/-- A word with bit `k` made `b` and every other bit kept. -/
def withBit (w : Word) (k : Nat) (b : Bool) : Word :=
  (w &&& ~~~(1#32 <<< k)) ||| ((BitVec.ofBool b).setWidth 32 <<< k)

/-- The state with bit `k` of `CR` made `b`. -/
def State.setCrBit (s : State) (k : Nat) (b : Bool) : State := { s with cr := withBit s.cr k b }

/-- `CR.C <- b` (41 R141). -/
def State.setCarry (s : State) (b : Bool) : State := s.setCrBit 28 b

/-- The bits of `CR` the source uses: 30, 28, 13, 12, 11, 10 and 0 (10 R26). -/
def crUsedBits : Word := 0x50003C01#32

/-! ## Registers (10 R20 to R24) -/

/-- `x[r]`: register `r`, `r0` reading 0 (10 R21). -/
def State.reg (s : State) (r : Reg) : Word := if r = 0#5 then 0#32 else s.regs[r.toNat]'r.isLt

/-- `x[r] <- v`; a write to `r0` is discarded (10 R21). -/
def State.setReg (s : State) (r : Reg) (v : Word) : State :=
  if r = 0#5 then s else { s with regs := s.regs.set r.toNat v r.isLt }

/-- `hi ∥ lo`, the double word of two words (00 R10). -/
def joinWords (hi lo : Word) : DWord := (hi.setWidth 64 <<< 32) ||| lo.setWidth 64

/-- `xpair(r)`: register `r` the more significant word, register `r + 1` the less significant one (10 R23). It is
used for `r` other than 31 only (`guardPairs`). -/
def State.pair (s : State) (r : Reg) : DWord := joinWords (s.reg r) (s.reg (r + 1#5))

/-- `xpair(r) <- v`: the high word to `r`, then the low word to `r + 1` (00 R13, 10 R23). -/
def State.setPair (s : State) (r : Reg) (v : DWord) : State :=
  (s.setReg r (v.extractLsb' 32 32)).setReg (r + 1#5) (v.extractLsb' 0 32)

/-- The fault `PairAtR31` if one of the registers named as a pair is `r31` (10 R24), else what follows. It comes
before the operands are used (60 R293). -/
def guardPairs (ps : List Reg) (s : State) (k : Result) : Result :=
  if ps.any (· == 31#5) then .fault (.pairAtR31 s.pc) else k

/-! ## Completing an instruction -/

/-- The address of the next instruction of an instruction that transfers no control: the pending branch's target, or
`pc + 4` (44 R221). -/
def State.nextPc (s : State) : Word := match s.delay with
  | none => s.pc + 4#32
  | some t => t

/-- An instruction that transfers no control is complete: `pc` advances or a pending branch takes effect (44 R221),
and the instruction is counted (10 R42). -/
def State.retire (s : State) : State :=
  { s with pc := s.nextPc, delay := none, totInst := s.totInst + 1 }

/-- TAKING AN EXCEPTION (60 R296): `raise E(pc)` with EXC_ENTRY = terminal. The instruction has written nothing; the
run state records the cause and the instruction's address; `pc` and `delay` stay (60 R301). -/
def raise (c : Cause) (s : State) : Result :=
  match excEntry with
  | .terminal => .next { s with run := .exception c s.pc }

/-- `stop` (46 R280): the run ends, `pc` goes past the instruction, a pending branch is dropped (46 R282) and the
instruction is counted (46 R281). -/
def State.halt (s : State) : State :=
  { s with run := .stopped, pc := s.pc + 4#32, delay := none, totInst := s.totInst + 1 }

/-! ## Transferring control (44 R220 to R222) -/

/-- The fault `ControlTransferInDelaySlot` while a delayed branch is pending (44 R221), else the state `t`. -/
def unlessInDelaySlot (s t : State) : Result :=
  match s.delay with
  | some _ => .fault (.controlTransferInDelaySlot s.pc)
  | none => .next t

/-- A taken branch (44 R221): without `.n`, `pc <- target`; with `.n`, `delay <- target` and the delay slot is next. -/
def State.branch (s : State) (n : Bool) (target : Word) : State :=
  if n then { s with pc := s.pc + 4#32, delay := some target, totInst := s.totInst + 1 }
  else { s with pc := target, totInst := s.totInst + 1 }

/-- The return address of a call: `pc + 4`, or `pc + 8` past the delay slot (44 R222). -/
def State.returnAddress (s : State) (n : Bool) : Word := if n then s.pc + 8#32 else s.pc + 4#32

/-! ## Memory accesses (20 R52 to R58) -/

/-- The alignment of an access of `n` bytes: half words 2, words and double words 4 (20 R55). -/
def alignment (n : Nat) : Nat := if n = 8 then 4 else n

/-- The check of an access of `n` bytes at `addr`, before anything is changed (20 R55, R58, 45 R241): the range
first, then the alignment. -/
def checkAccess (s : State) (addr : Word) (n : Nat) : Except Fault Unit :=
  if memSize < addr.toNat + n then .error (.addressOutOfRange s.pc addr)
  else if addr.toNat % alignment n ≠ 0 then .error (.misaligned s.pc addr n)
  else .ok ()

/-- `MemRead(addr, n)` (20 R52), the value in the low `8n` bits. -/
def memRead (s : State) (addr : Word) (n : Nat) : Except Fault DWord :=
  match checkAccess s addr n with
  | .error f => .error f
  | .ok () => .ok (assemble s.le (s.mem.readBytes addr.toNat n))

/-- The state with the low `8n` bits of `v` stored at `addr` (20 R53), the bytes recorded as stored (20 R67). -/
def State.store (s : State) (addr : Word) (n : Nat) (v : DWord) : State :=
  { s with mem := s.mem.writeBytes addr.toNat (bytesOf s.le n v), stored := insertAddrs s.stored addr.toNat n }

/-- `MemWrite(addr, n, v)` (20 R53). -/
def memWrite (s : State) (addr : Word) (n : Nat) (v : DWord) : Except Fault State :=
  match checkAccess s addr n with
  | .error f => .error f
  | .ok () => .ok (s.store addr n v)

/-! ## Instruction fetch (20 R56, R57, R67) -/

/-- The byte order an instruction word is fetched in: that of `CR.LE`, or of the load (20 R57). -/
def fetchLittleEndian (s : State) : Bool :=
  match fetchOrder with
  | .faultOnChange => s.le
  | .fixedAtLoad => s.cfg.littleEndian

/-- Whether the program has stored to one of the four bytes at `pc` (20 R67). -/
def fetchesStoredByte (s : State) : Bool :=
  s.stored.any (fun a => s.pc.toNat ≤ a && a < s.pc.toNat + 4)

/-- The four bytes at `pc`, or the fault of the fetch (20 R56, R58, R67). -/
def fetchBytes (s : State) : Except Fault (List Byte) :=
  match checkAccess s s.pc 4 with
  | .error f => .error f
  | .ok () =>
    if smc = .fault && fetchesStoredByte s then .error (.fetchAfterStore s.pc)
    else .ok (s.mem.readBytes s.pc.toNat 4)

/-- The instruction at `pc` (20 R57, 30 R99), or the fault of its fetch or of a word that is no instruction
(30 R100). -/
def fetchInstr (s : State) : Except Fault Instr :=
  match fetchBytes s with
  | .error f => .error f
  | .ok bs =>
    match decodeBytes (fetchLittleEndian s) bs with
    | .ok (i, _) => .ok i
    | .error (.notAnInstruction w) => .error (.illegalInstruction s.pc w)
    | .error .fewerThanFourBytes => .error (.illegalInstruction s.pc 0#32)

end Sys2Proof.Machine
end

