-- ==== Sys2Proof/Machine/Operands.lean ====
section
/-! DEFINITION. Every operand form of the instruction set (spec 30 R93, R103): immediates, the halves of the logical
immediate forms, complemented registers, effective addresses, branch targets, bit fields, sign and zero extension. -/

namespace Sys2Proof.Machine

/-- `zext_16(IMM16)` (30 R83). -/
def zext16 (imm : Half) : Word := imm.setWidth 32

/-- `sext_16(SIMM16)` (30 R83). -/
def sext16 (imm : Half) : Word := imm.signExtend 32

/-- The low half word, bits 15:0. -/
def lowHalf (w : Word) : Half := w.extractLsb' 0 16

/-- The high half word, bits 31:16. -/
def highHalf (w : Word) : Half := w.extractLsb' 16 16

/-- `hi ∥ lo`, the word of two half words (00 R10). -/
def joinHalves (hi lo : Half) : Word := (hi.setWidth 32 <<< 16) ||| lo.setWidth 32

/-- An operation on one half of a word, the other half passed through: the low half, or with `.u` the high one
(40 R130). -/
def onHalf (u : Bool) (f : Half → Half) (a : Word) : Word :=
  if u then joinHalves (f (highHalf a)) (lowHalf a) else joinHalves (highHalf a) (f (lowHalf a))

/-- `mask` (40 R135): the selected half and `imm`, the other half cleared. -/
def maskHalf (u : Bool) (imm : Half) (a : Word) : Word :=
  if u then joinHalves (highHalf a &&& imm) 0#16 else joinHalves 0#16 (lowHalf a &&& imm)

/-- The second operand of a logical register form, complemented with `.c` (40 R130). -/
def complementIf (c : Bool) (b : Word) : Word := if c then ~~~b else b

/-- The effective address of an immediate form: `x[S1] + sext_16(SI16)` (45 R240). -/
def eaImm (s : State) (s1 : Reg) (imm : Half) : Word := s.reg s1 + sext16 imm

/-- The effective address of a register form: `x[S1] + x[S2]` (45 R240). -/
def eaReg (s : State) (s1 s2 : Reg) : Word := s.reg s1 + s.reg s2

/-- The target of a branch on a bit: `pc + 4 * sext_16(D16)` (44 R220). -/
def target16 (s : State) (d16 : Half) : Word := s.pc + 4#32 * d16.signExtend 32

/-- The target of `br` and `bsr`: `pc + 4 * sext_26(D26)` (44 R220). -/
def target26 (s : State) (d26 : BitVec 26) : Word := s.pc + 4#32 * d26.signExtend 32

/-- The target of `jmp` and `jsr`: `x[S2] & 0xFFFFFFFC` (44 R220). -/
def targetReg (s : State) (s2 : Reg) : Word := s.reg s2 &&& 0xFFFFFFFC#32

/-! ## Extension of loaded values (45 R241) -/

/-- `sext_8` of the low byte. -/
def sextByte (v : DWord) : Word := (v.setWidth 8).signExtend 32

/-- `zext_8` of the low byte. -/
def zextByte (v : DWord) : Word := (v.setWidth 8).setWidth 32

/-- `sext_16` of the low half word. -/
def sextHalf (v : DWord) : Word := (v.setWidth 16).signExtend 32

/-- `zext_16` of the low half word. -/
def zextHalf (v : DWord) : Word := (v.setWidth 16).setWidth 32

/-- The low word. -/
def lowWord (v : DWord) : Word := v.setWidth 32

/-! ## Bit fields (42 R170) -/

/-- `W5` in the register form: bits 9:5 of `rS2`. -/
def widthOf (b : Word) : BitVec 5 := b.extractLsb' 5 5

/-- `O5` in the register form: bits 4:0 of `rS2`. -/
def offsetOf (b : Word) : BitVec 5 := b.extractLsb' 0 5

/-- `W`: the width, 32 where `W5 = 0`. -/
def fieldWidth (w5 : BitVec 5) : Nat := if w5 = 0#5 then 32 else w5.toNat

/-- `top = min(O5 + W - 1, 31)`: a field is cut at bit 31 (D21). -/
def fieldTop (w5 o5 : BitVec 5) : Nat := min (o5.toNat + fieldWidth w5 - 1) 31

/-- `ones = 2^W - 1`. -/
def fieldOnes (w5 : BitVec 5) : Word := BitVec.ofNat 32 (2 ^ fieldWidth w5 - 1)

/-- `fmask = (ones << O5) mod 2^32`. -/
def fieldMask (w5 o5 : BitVec 5) : Word := fieldOnes w5 <<< o5.toNat

/-- `clr` (42 R171). -/
def clrField (a : Word) (w5 o5 : BitVec 5) : Word := a &&& ~~~(fieldMask w5 o5)

/-- `set` (42 R173). -/
def setField (a : Word) (w5 o5 : BitVec 5) : Word := a ||| fieldMask w5 o5

/-- `ext` (42 R175): the `n = top - O5 + 1` bits of the field, sign extended. -/
def extField (a : Word) (w5 o5 : BitVec 5) : Word :=
  (a.extractLsb' o5.toNat (fieldTop w5 o5 - o5.toNat + 1)).signExtend 32

/-- `extu` (42 R177). -/
def extuField (a : Word) (w5 o5 : BitVec 5) : Word := (a >>> o5.toNat) &&& fieldOnes w5

/-- `mak` (42 R179). -/
def makField (a : Word) (w5 o5 : BitVec 5) : Word := (a &&& fieldOnes w5) <<< o5.toNat

/-- `rot` (42 R181): bit `k` goes to bit `(k - O5) mod 32`. -/
def rotField (a : Word) (o5 : BitVec 5) : Word := a.rotateRight o5.toNat

end Sys2Proof.Machine
end

