-- ==== Sys2Proof/Machine/Flags.lean ====
section
/-! DEFINITION. Every flag computation: carry and borrow (spec 41 R141, R142), signed overflow (R143), division by
zero (R144) and how each ends with exceptions inhibited or enabled (60 R296, R297), and the condition strings of
`cmp` (41 R163) and `fcmp` (43 R196). -/

namespace Sys2Proof.Machine

open Sys2Proof.Config

/-- `x` as a number, 1 or 0. -/
def bitNat (x : Bool) : Nat := if x then 1 else 0

/-- The result of an integer addition or subtraction: whether the exact signed result fits 32 bits, the low 32 bits,
and the carry or borrow out. -/
structure IntResult where
  fits : Bool
  word : Word
  carryOut : Bool
deriving DecidableEq, Repr

/-- The exact signed result is in [-2^31, 2^31 - 1] (41 R143). -/
def signedFits (z : Int) : Bool := -2147483648 ≤ z && z ≤ 2147483647

/-- `a + b + cin` (41 R141): the carry out is bit 32 of the unsigned sum. -/
def addExact (a b : Word) (cin : Bool) : IntResult :=
  { fits := signedFits (a.toInt + b.toInt + bitNat cin)
    word := BitVec.ofNat 32 (a.toNat + b.toNat + bitNat cin)
    carryOut := 4294967296 ≤ a.toNat + b.toNat + bitNat cin }

/-- `a - b - bin` with a borrow out under SUB_CARRY = borrow; `a + ~b + cin` with a carry out under the other value
(41 R142). -/
def subExact (mode : SubCarry) (a b : Word) (c : Bool) : IntResult :=
  match mode with
  | .borrow =>
    { fits := signedFits (a.toInt - b.toInt - bitNat c)
      word := BitVec.ofInt 32 (a.toNat - b.toNat - bitNat c)
      carryOut := (a.toNat : Int) - b.toNat - bitNat c < 0 }
  | .notBorrow =>
    { fits := signedFits (a.toInt - b.toInt - bitNat (!c))
      word := BitVec.ofInt 32 (a.toNat - b.toNat - bitNat (!c))
      carryOut := !((a.toNat : Int) - b.toNat - bitNat (!c) < 0) }

/-- The carry or borrow in: `CR.C` with `.ci` (41 R141, R142). Without it, nothing is added or subtracted, which
under SUB_CARRY = not-borrow is a carry of 1. -/
def subCarryIn (mode : SubCarry) (s : State) (i : Bool) : Bool :=
  if i then s.carry else match mode with
    | .borrow => false
    | .notBorrow => true

/-- The carry in of an addition: `CR.C` with `.ci`, else 0 (41 R141). -/
def addCarryIn (s : State) (i : Bool) : Bool := i && s.carry

/-- `CR.C <- c` with `.co`, else `CR.C` unchanged (41 R141, R142). -/
def State.setCarryIf (s : State) (o c : Bool) : State := if o then s.setCarry c else s

/-- An integer arithmetic instruction that meets no condition leaves `CR.OV` and `CR.DZ` alone (10 R33), unless
FLAG_STICKY is false. -/
def State.settleFlags (s : State) : State :=
  if flagSticky then s else (s.setCrBit 12 false).setCrBit 13 false

/-- An integer condition is recorded in `CR` bit `k` with exceptions inhibited (60 R297): the bit becomes 1 in serial
mode. In superscalar mode bits 13 and 12 are free values (10 R35, D20). -/
def State.recordFlag (s : State) (k : Nat) : State :=
  match s.cfg.mode with
  | .serial => s.settleFlags.setCrBit k true
  | .superscalar =>
    { (s.setCrBit 12 ((superscalarFlags s.freeCount).getLsbD 0)).setCrBit 13
        ((superscalarFlags s.freeCount).getLsbD 1) with
      freeCount := s.freeCount + 1 }

/-- An integer overflow (41 R143): raised with `CR.EI = 0`; with `CR.EI = 1` `CR.OV` records it, and neither the
register nor the carry is written. Under OVF_INHIBITED_RD = wrapped both are: `written` is the state with them. -/
def overflow (s written : State) : Result :=
  if s.ei then
    match ovfInhibitedRd with
    | .unchanged => .next (s.recordFlag 12).retire
    | .wrapped => .next (written.recordFlag 12).retire
  else raise .integerOverflow s

/-- An integer division by zero (41 R144): raised with `CR.EI = 0`; recorded in `CR.DZ` with `CR.EI = 1`, nothing
written. -/
def divideByZero (s : State) : Result :=
  if s.ei then .next (s.recordFlag 13).retire else raise .integerDivideByZero s

/-- The end of a signed instruction with result `r` (41 R143): overflow, or the register and with `.co` the carry
written. -/
def finishSigned (s : State) (o : Bool) (d : Reg) (r : IntResult) : Result :=
  let written := (s.setReg d r.word).setCarryIf o r.carryOut
  if r.fits then .next written.settleFlags.retire else overflow s written

/-- The end of an unsigned instruction with result `r`: no overflow is detected (41 R143). -/
def finishUnsigned (s : State) (o : Bool) (d : Reg) (r : IntResult) : Result :=
  .next ((s.setReg d r.word).setCarryIf o r.carryOut).settleFlags.retire

/-- The end of an integer instruction that writes `v` to register `d` and no flag. -/
def finishInteger (s : State) (d : Reg) (v : Word) : Result := .next (s.setReg d v).settleFlags.retire

/-- The end of an instruction outside the integer arithmetic group that writes `v` to register `d` and no flag
(40 R138, 42 R183). -/
def writeBack (s : State) (d : Reg) (v : Word) : Result := .next (s.setReg d v).retire

/-! ## Multiplication and division -/

/-- The exact signed product (41 R156). -/
def mulSigned (a b : Word) : IntResult :=
  { fits := signedFits (a.toInt * b.toInt), word := BitVec.ofInt 32 (a.toInt * b.toInt), carryOut := false }

/-- The exact unsigned product, 64 bits (41 R158). -/
def mulUnsigned (a b : Word) : DWord := BitVec.ofNat 64 (a.toNat * b.toNat)

/-- The exact signed quotient for a divisor that is not 0, toward zero or toward minus infinity (41 R164). -/
def quotient (mode : DivsRounding) (a b : Int) : Int :=
  match mode with
  | .truncate => a.tdiv b
  | .floor => a.fdiv b

/-- The signed quotient as a result (41 R159): it does not fit for -2^31 / -1 only. -/
def divSigned (mode : DivsRounding) (a b : Word) : IntResult :=
  { fits := signedFits (quotient mode a.toInt b.toInt), word := BitVec.ofInt 32 (quotient mode a.toInt b.toInt),
    carryOut := false }

/-! ## Condition strings -/

/-- A condition at bit `k` of a string. -/
def condition (k : Nat) (b : Bool) : Word := place (BitVec.ofBool b) k

/-- Byte `k` of a word. -/
def byteOf (w : Word) (k : Nat) : Byte := w.extractLsb' (8 * k) 8

/-- Some byte of `a` equals the byte of `b` in the same position (41 R163, D31). -/
def someByteEqual (a b : Word) : Bool :=
  byteOf a 0 == byteOf b 0 || byteOf a 1 == byteOf b 1 || byteOf a 2 == byteOf b 2 || byteOf a 3 == byteOf b 3

/-- Some half word of `a` equals the half word of `b` in the same position (41 R163, D31). -/
def someHalfEqual (a b : Word) : Bool := highHalf a == highHalf b || lowHalf a == lowHalf b

/-- The result string of `cmp` (41 R163). -/
def cmpString (a b : Word) : Word :=
  condition 2 (a == b) ||| condition 3 (a != b)
    ||| condition 4 (b.toInt < a.toInt) ||| condition 5 (a.toInt ≤ b.toInt)
    ||| condition 6 (a.toInt < b.toInt) ||| condition 7 (b.toInt ≤ a.toInt)
    ||| condition 8 (b.toNat < a.toNat) ||| condition 9 (a.toNat ≤ b.toNat)
    ||| condition 10 (a.toNat < b.toNat) ||| condition 11 (b.toNat ≤ a.toNat)
    ||| condition 12 (someByteEqual a b) ||| condition 13 (!someByteEqual a b)
    ||| condition 14 (someHalfEqual a b) ||| condition 15 (!someHalfEqual a b)

/-- The result string of `fcmp` (43 R196) from the order of the operands, none where one is a NaN: then `un` and `ne`
are 1 and the relations are 0. -/
def fcmpString (o : Option Ordering) : Word :=
  condition 0 o.isNone ||| condition 1 (o == some .eq) ||| condition 2 (o != some .eq)
    ||| condition 3 (o == some .gt) ||| condition 4 (o == some .lt || o == some .eq)
    ||| condition 5 (o == some .lt) ||| condition 6 (o == some .gt || o == some .eq)

end Sys2Proof.Machine
end

