-- ==== Sys2Proof/Machine/BitField.lean ====
section
/-! DEFINITION. The bit-field instructions (spec 42). In the register form `rS2` gives the width and the offset
(42 R170). -/

namespace Sys2Proof.Machine

/-- `clr rD,rS1,W5<O5>` (42 R171). -/
def execClrBit (d s1 : Reg) (w5 o5 : BitVec 5) (s : State) : Result :=
  writeBack s d (clrField (s.reg s1) w5 o5)

/-- `clr rD,rS1,rS2` (42 R172). -/
def execClrReg (d s1 s2 : Reg) (s : State) : Result :=
  writeBack s d (clrField (s.reg s1) (widthOf (s.reg s2)) (offsetOf (s.reg s2)))

/-- `set rD,rS1,W5<O5>` (42 R173). -/
def execSetBit (d s1 : Reg) (w5 o5 : BitVec 5) (s : State) : Result :=
  writeBack s d (setField (s.reg s1) w5 o5)

/-- `set rD,rS1,rS2` (42 R174). -/
def execSetReg (d s1 s2 : Reg) (s : State) : Result :=
  writeBack s d (setField (s.reg s1) (widthOf (s.reg s2)) (offsetOf (s.reg s2)))

/-- `ext rD,rS1,W5<O5>` (42 R175). -/
def execExtBit (d s1 : Reg) (w5 o5 : BitVec 5) (s : State) : Result :=
  writeBack s d (extField (s.reg s1) w5 o5)

/-- `ext rD,rS1,rS2` (42 R176). -/
def execExtReg (d s1 s2 : Reg) (s : State) : Result :=
  writeBack s d (extField (s.reg s1) (widthOf (s.reg s2)) (offsetOf (s.reg s2)))

/-- `extu rD,rS1,W5<O5>` (42 R177). -/
def execExtuBit (d s1 : Reg) (w5 o5 : BitVec 5) (s : State) : Result :=
  writeBack s d (extuField (s.reg s1) w5 o5)

/-- `extu rD,rS1,rS2` (42 R178). -/
def execExtuReg (d s1 s2 : Reg) (s : State) : Result :=
  writeBack s d (extuField (s.reg s1) (widthOf (s.reg s2)) (offsetOf (s.reg s2)))

/-- `mak rD,rS1,W5<O5>` (42 R179). -/
def execMakBit (d s1 : Reg) (w5 o5 : BitVec 5) (s : State) : Result :=
  writeBack s d (makField (s.reg s1) w5 o5)

/-- `mak rD,rS1,rS2` (42 R180). -/
def execMakReg (d s1 s2 : Reg) (s : State) : Result :=
  writeBack s d (makField (s.reg s1) (widthOf (s.reg s2)) (offsetOf (s.reg s2)))

/-- `rot rD,rS1,<O5>` (42 R181). -/
def execRotBit (d s1 : Reg) (o5 : BitVec 5) (s : State) : Result :=
  writeBack s d (rotField (s.reg s1) o5)

/-- `rot rD,rS1,rS2` (42 R182). -/
def execRotReg (d s1 s2 : Reg) (s : State) : Result :=
  writeBack s d (rotField (s.reg s1) (offsetOf (s.reg s2)))

end Sys2Proof.Machine
end

