-- ==== Sys2Proof/Machine/ControlFlow.lean ====
section
/-! DEFINITION. The control-flow instructions (spec 44). In the delay slot of a taken `.n` branch each of them is the
fault `ControlTransferInDelaySlot`, taken or not (44 R221, 60 R302). -/

namespace Sys2Proof.Machine

/-- `bb0 B5,rS1,D16`, `bb0.n` (44 R223). -/
def execBb0 (n : Bool) (b5 : BitVec 5) (s1 : Reg) (d16 : Half) (s : State) : Result :=
  unlessInDelaySlot s (if (s.reg s1).getLsbD b5.toNat then s.retire else s.branch n (target16 s d16))

/-- `bb1 B5,rS1,D16`, `bb1.n` (44 R224). -/
def execBb1 (n : Bool) (b5 : BitVec 5) (s1 : Reg) (d16 : Half) (s : State) : Result :=
  unlessInDelaySlot s (if (s.reg s1).getLsbD b5.toNat then s.branch n (target16 s d16) else s.retire)

/-- `br D26`, `br.n` (44 R225). -/
def execBr (n : Bool) (d26 : BitVec 26) (s : State) : Result :=
  unlessInDelaySlot s (s.branch n (target26 s d26))

/-- `bsr D26`, `bsr.n` (44 R226): `r1` receives the return address. -/
def execBsr (n : Bool) (d26 : BitVec 26) (s : State) : Result :=
  unlessInDelaySlot s ((s.setReg 1#5 (s.returnAddress n)).branch n (target26 s d26))

/-- `jmp (rS2)`, `jmp.n` (44 R227). -/
def execJmp (n : Bool) (s2 : Reg) (s : State) : Result :=
  unlessInDelaySlot s (s.branch n (targetReg s s2))

/-- `jsr (rS2)`, `jsr.n` (44 R228): the target is read before `r1` is written (44 R222). -/
def execJsr (n : Bool) (s2 : Reg) (s : State) : Result :=
  unlessInDelaySlot s ((s.setReg 1#5 (s.returnAddress n)).branch n (targetReg s s2))

end Sys2Proof.Machine
end

