-- ==== Sys2Proof/Machine/Float.lean ====
section
/-! DEFINITION. FP_NUMERICS at the spec's default (spec 43 R190 to R193, D13, D14): the two formats, operands taken as
exact rational numbers, one rounding from the exact result in the mode of `CR.RM`, the exception conditions and the
sign of an exact zero. The layouts and the tie rule are the ones 43 R190 and R192 give (93 G1 to G4). -/

namespace Sys2Proof.Machine

/-- A floating-point format (43 R190): fraction bits, exponent bits, bias. -/
structure Format where
  fracBits : Nat
  expBits : Nat
  bias : Nat
deriving DecidableEq, Repr

/-- The format of a precision (43 R190). -/
def format (p : Prec) : Format :=
  match p with
  | .single => { fracBits := 23, expBits := 8, bias := 127 }
  | .double => { fracBits := 52, expBits := 11, bias := 1023 }

/-- The exponent of the smallest normal number, -126 or -1022 (43 R193). -/
def Format.minExp (f : Format) : Int := 1 - f.bias

/-- The exponent of the largest finite number, 127 or 1023. -/
def Format.maxExp (f : Format) : Int := f.bias

/-- `m * 2^k` as a rational number. -/
def dyadic (m : Nat) (k : Int) : ℚ :=
  match k with
  | .ofNat n => ((m * 2 ^ n : Nat) : ℚ)
  | .negSucc n => mkRat m (2 ^ (n + 1))

/-- The bits of an operand or result: one register or a pair (43 R191). -/
inductive FpBits where
  | single (w : Word)
  | double (w : DWord)
deriving DecidableEq, Repr

/-- The bits as a number. -/
def FpBits.toNat (b : FpBits) : Nat :=
  match b with
  | .single w => w.toNat
  | .double w => w.toNat

/-- The precision of the bits. -/
def FpBits.prec (b : FpBits) : Prec :=
  match b with
  | .single _ => .single
  | .double _ => .double

/-- The classes of a bit pattern (43 R190), with the sign (true for minus) and the magnitude of a number. -/
inductive FpClass where
  | nan
  | infinity (neg : Bool)
  | zero (neg : Bool)
  | subnormal (neg : Bool) (mag : ℚ)
  | normal (neg : Bool) (mag : ℚ)
deriving DecidableEq, Repr

/-- The sign bit. -/
def FpBits.sign (b : FpBits) : Bool := b.toNat / 2 ^ ((format b.prec).fracBits + (format b.prec).expBits) % 2 == 1

/-- The biased exponent field. -/
def FpBits.expField (b : FpBits) : Nat := b.toNat / 2 ^ (format b.prec).fracBits % 2 ^ (format b.prec).expBits

/-- The fraction field. -/
def FpBits.fracField (b : FpBits) : Nat := b.toNat % 2 ^ (format b.prec).fracBits

/-- The class of a bit pattern (43 R190). -/
def FpBits.classify (b : FpBits) : FpClass :=
  let f := format b.prec
  if b.expField = 2 ^ f.expBits - 1 then
    if b.fracField = 0 then .infinity b.sign else .nan
  else if b.expField = 0 then
    if b.fracField = 0 then .zero b.sign else .subnormal b.sign (dyadic b.fracField (f.minExp - f.fracBits))
  else .normal b.sign (dyadic (2 ^ f.fracBits + b.fracField) (b.expField - f.bias - f.fracBits))

/-- A rational with a sign put on. -/
def signed (neg : Bool) (m : ℚ) : ℚ := if neg then -m else m

/-- The exact value of a number; 0 stands for a NaN and for the infinities, which no arithmetic reaches. -/
def FpClass.value (c : FpClass) : ℚ :=
  match c with
  | .nan => 0
  | .infinity _ => 0
  | .zero _ => 0
  | .subnormal neg m => signed neg m
  | .normal neg m => signed neg m

/-- The sign; a NaN has none that matters. -/
def FpClass.neg (c : FpClass) : Bool :=
  match c with
  | .nan => false
  | .infinity neg => neg
  | .zero neg => neg
  | .subnormal neg _ => neg
  | .normal neg _ => neg

/-- RESERVED_OPERAND (43 R193, D14): a NaN, an infinity or a subnormal number. -/
def FpClass.reserved (c : FpClass) : Bool :=
  match c with
  | .nan => true
  | .infinity _ => true
  | .zero _ => false
  | .subnormal _ _ => true
  | .normal _ _ => false

/-- A zero of either sign. -/
def FpClass.isZero (c : FpClass) : Bool :=
  match c with
  | .zero _ => true
  | _ => false

/-! ## Rounding (43 R192) -/

/-- Whether the magnitude `q + r/d`, `r < d`, is rounded away from `q`, for a rounding mode (10 R28): 00 to nearest
with ties to even, 01 toward zero, 10 toward minus infinity, 11 toward plus infinity. -/
def roundsUp (rm : BitVec 2) (neg : Bool) (q r d : Nat) : Bool :=
  if rm = 0b00#2 then decide (d < 2 * r) || (decide (2 * r = d) && q % 2 == 1)
  else if rm = 0b01#2 then false
  else if rm = 0b10#2 then neg && r != 0
  else !neg && r != 0

/-- The magnitude of a rational rounded to an integer. -/
def roundMagnitude (rm : BitVec 2) (neg : Bool) (x : ℚ) : Nat :=
  let n := x.num.natAbs
  let q := n / x.den
  if roundsUp rm neg q (n % x.den) x.den then q + 1 else q

/-- A rational rounded to an integer (43 R202). -/
def roundToInt (rm : BitVec 2) (x : ℚ) : Int :=
  if x < 0 then -(roundMagnitude rm true x : Int) else roundMagnitude rm false x

/-- The exponent `e` with `2^e ≤ n/d < 2^(e+1)`, for positive `n` and `d`. -/
def ilog2 (n d : Nat) : Int :=
  let e : Int := (Nat.log2 n : Int) - Nat.log2 d
  if d * 2 ^ e.toNat ≤ n * 2 ^ (-e).toNat then e else e - 1

/-- The exponent of a rational that is not 0. -/
def exponentOf (x : ℚ) : Int := ilog2 x.num.natAbs x.den

/-- The bits of a sign, a biased exponent and a fraction (43 R190). -/
def packFp (p : Prec) (neg : Bool) (biased frac : Nat) : FpBits :=
  let f := format p
  let n := bitNat neg * 2 ^ (f.fracBits + f.expBits) + biased * 2 ^ f.fracBits + frac
  match p with
  | .single => .single (BitVec.ofNat 32 n)
  | .double => .double (BitVec.ofNat 64 n)

/-- A rational that is not 0 rounded to the significand width of a format as if the exponent range were unbounded
(43 R193): the integer significand, at least `2^fracBits` and below `2^(fracBits+1)`, and the exponent of its leading
bit. -/
def roundSignificand (f : Format) (rm : BitVec 2) (x : ℚ) : Nat × Int :=
  let e := exponentOf x
  let m := roundMagnitude rm (x < 0) (x * dyadic 1 (f.fracBits - e))
  if m = 2 ^ (f.fracBits + 1) then (2 ^ f.fracBits, e + 1) else (m, e)

/-- `round(x, p, CR.RM)` for an exact result (43 R192, R193): overflow by the magnitude after rounding, underflow by
the exact magnitude, else the bits of a normal number, or of a zero of sign `zeroNeg`. -/
def roundResult (p : Prec) (rm : BitVec 2) (zeroNeg : Bool) (x : ℚ) : Except Cause FpBits :=
  let f := format p
  if x = 0 then .ok (packFp p zeroNeg 0 0)
  else
    let r := roundSignificand f rm x
    if f.maxExp < r.2 then .error .fpOverflow
    else if exponentOf x < f.minExp then .error .fpUnderflow
    else .ok (packFp p (x < 0) (r.2 + f.bias).toNat (r.1 - 2 ^ f.fracBits))

/-! ## The operations -/

/-- The sign of an exact zero sum (43 R193): that of both operands where they agree, else minus only when rounding
toward minus infinity. -/
def zeroSumSign (rm : BitVec 2) (a b : Bool) : Bool := if a = b then a else rm == 0b10#2

/-- `fadd` (43 R195). -/
def fpAdd (p : Prec) (rm : BitVec 2) (a b : FpClass) : Except Cause FpBits :=
  if a.reserved || b.reserved then .error .fpReservedOperand
  else roundResult p rm (zeroSumSign rm a.neg b.neg) (a.value + b.value)

/-- `fsub` (43 R201). -/
def fpSub (p : Prec) (rm : BitVec 2) (a b : FpClass) : Except Cause FpBits :=
  if a.reserved || b.reserved then .error .fpReservedOperand
  else roundResult p rm (zeroSumSign rm a.neg (!b.neg)) (a.value - b.value)

/-- `fmul` (43 R200). -/
def fpMul (p : Prec) (rm : BitVec 2) (a b : FpClass) : Except Cause FpBits :=
  if a.reserved || b.reserved then .error .fpReservedOperand
  else roundResult p rm (a.neg != b.neg) (a.value * b.value)

/-- `fdiv` (43 R198): the divide-by-zero check after the reserved-operand check. -/
def fpDiv (p : Prec) (rm : BitVec 2) (a b : FpClass) : Except Cause FpBits :=
  if a.reserved || b.reserved then .error .fpReservedOperand
  else if b.isZero then .error .fpDivideByZero
  else roundResult p rm (a.neg != b.neg) (a.value / b.value)

/-- `fcvt` (43 R197); a zero keeps its sign. -/
def fpConvert (p : Prec) (rm : BitVec 2) (b : FpClass) : Except Cause FpBits :=
  if b.reserved then .error .fpReservedOperand else roundResult p rm b.neg b.value

/-- `flt` (43 R199): the integer 0 gives +0.0. -/
def fpFromInt (p : Prec) (rm : BitVec 2) (n : Int) : Except Cause FpBits := roundResult p rm false (n : ℚ)

/-- `int` (43 R202). -/
def fpToInt (rm : BitVec 2) (b : FpClass) : Except Cause Word :=
  if b.reserved then .error .fpReservedOperand
  else if signedFits (roundToInt rm b.value) then .ok (BitVec.ofInt 32 (roundToInt rm b.value))
  else .error .fpOverflow

/-- The order of two rationals. -/
def ratOrder (a b : ℚ) : Ordering := if a < b then .lt else if a = b then .eq else .gt

/-- The order of two operands of `fcmp` (43 R196), none where one is a NaN: infinities and subnormal numbers by value,
+0 equal to -0. -/
def fpOrder (a b : FpClass) : Option Ordering :=
  match a, b with
  | .nan, _ => none
  | _, .nan => none
  | .infinity x, .infinity y => some (if x = y then .eq else if x then .lt else .gt)
  | .infinity x, _ => some (if x then .lt else .gt)
  | _, .infinity y => some (if y then .gt else .lt)
  | a, b => some (ratOrder a.value b.value)

/-- `fcmp` (43 R196) under a value of FCMP_NAN. -/
def fpCompare (mode : Config.FcmpNan) (a b : FpClass) : Except Cause Word :=
  match mode with
  | .unorderedResult => .ok (fcmpString (fpOrder a b))
  | .reservedOperand =>
    if a.reserved || b.reserved then .error .fpReservedOperand else .ok (fcmpString (fpOrder a b))

/-! ## Operands, results and conditions -/

/-- The bits of the operand named by register `r` (43 R191). -/
def State.fpBits (s : State) (p : Prec) (r : Reg) : FpBits :=
  match p with
  | .single => .single (s.reg r)
  | .double => .double (s.pair r)

/-- The operand named by register `r`. -/
def State.fpOperand (s : State) (p : Prec) (r : Reg) : FpClass := (s.fpBits p r).classify

/-- A result written to `rD`, or to `rD` and `rD+1` (43 R191). -/
def State.setFp (s : State) (d : Reg) (b : FpBits) : State :=
  match b with
  | .single w => s.setReg d w
  | .double w => s.setPair d w

/-- A floating-point exception condition (43 R193): raised with `CR.EI = 0` (60 R296); with `CR.EI = 1` the source
defines nothing and the case is the fault `UnspecifiedFloatingPoint` (60 R298). -/
def fpCondition (s : State) (c : Cause) : Result :=
  if s.ei then .fault (.unspecifiedFloatingPoint s.pc c) else raise c s

/-- The end of an instruction with a floating-point result (43 R203). -/
def finishFp (s : State) (d : Reg) (r : Except Cause FpBits) : Result :=
  match r with
  | .ok b => .next (s.setFp d b).retire
  | .error c => fpCondition s c

/-- The end of a floating-point instruction with an integer result (43 R203). -/
def finishFpWord (s : State) (d : Reg) (r : Except Cause Word) : Result :=
  match r with
  | .ok w => writeBack s d w
  | .error c => fpCondition s c

end Sys2Proof.Machine
end

