-- ==== Sys2Proof/WellFormed.lean ====
section
/-! DEFINITION. What the types of `Syntax.lean` and `Config.lean` leave unchecked: an instruction that names `r31`
as a register pair (spec 10 R24), and the bounds on an emulated cache (00 R8). Both checks are decidable. -/

namespace Sys2Proof

/-- The register `f` where an operand of precision `p` is a pair (43 R191): a double-precision operand only. -/
def Prec.pair (p : Prec) (f : Reg) : List Reg :=
  match p with
  | .single => []
  | .double => [f]

/-- The registers an instruction names as 64-bit pairs (10 R23): those of `ld.d`, `st.d`, `mulu.d`, `divu.d` and of
every double-precision floating-point operand or result. -/
def Instr.pairs (i : Instr) : List Reg :=
  match i with
  | .andImm _ _ _ _ | .andReg _ _ _ _ | .xorImm _ _ _ _ | .xorReg _ _ _ _ | .maskImm _ _ _ _ => []
  | .orImm _ _ _ _ | .orReg _ _ _ _ => []
  | .addImm _ _ _ | .addReg _ _ _ _ _ | .adduImm _ _ _ | .adduReg _ _ _ _ _ => []
  | .subImm _ _ _ | .subReg _ _ _ _ _ | .subuImm _ _ _ | .subuReg _ _ _ _ _ => []
  | .cmpImm _ _ _ | .cmpReg _ _ _ | .mulsReg _ _ _ | .muluImm _ _ _ => []
  | .muluReg dbl d _ _ => if dbl then [d] else []
  | .divsImm _ _ _ | .divsReg _ _ _ | .divuImm _ _ _ => []
  | .divuReg dbl d s1 _ => if dbl then [s1, d] else []
  | .clrBit _ _ _ _ | .clrReg _ _ _ | .setBit _ _ _ _ | .setReg _ _ _ | .extBit _ _ _ _ | .extReg _ _ _ => []
  | .extuBit _ _ _ _ | .extuReg _ _ _ | .makBit _ _ _ _ | .makReg _ _ _ | .rotBit _ _ _ | .rotReg _ _ _ => []
  | .fadd t1 t2 td d s1 s2 => t1.pair s1 ++ t2.pair s2 ++ td.pair d
  | .fcmp t1 t2 _ s1 s2 => t1.pair s1 ++ t2.pair s2
  | .fcvt t2 td d s2 => t2.pair s2 ++ td.pair d
  | .fdiv t1 t2 td d s1 s2 => t1.pair s1 ++ t2.pair s2 ++ td.pair d
  | .flt td d _ => td.pair d
  | .fmul t1 t2 td d s1 s2 => t1.pair s1 ++ t2.pair s2 ++ td.pair d
  | .fsub t1 t2 td d s1 s2 => t1.pair s1 ++ t2.pair s2 ++ td.pair d
  | .fint t2 _ s2 => t2.pair s2
  | .bb0 _ _ _ _ | .bb1 _ _ _ _ | .br _ _ | .bsr _ _ | .jmp _ _ | .jsr _ _ => []
  | .lddImm d _ _ => [d]
  | .ldImm _ _ _ | .ldhImm _ _ _ | .ldbImm _ _ _ | .ldhuImm _ _ _ | .ldbuImm _ _ _ => []
  | .lddReg d _ _ => [d]
  | .ldReg _ _ _ | .ldhReg _ _ _ | .ldbReg _ _ _ | .ldhuReg _ _ _ | .ldbuReg _ _ _ => []
  | .stdImm d _ _ => [d]
  | .stImm _ _ _ | .sthImm _ _ _ | .stbImm _ _ _ => []
  | .stdReg _ d _ _ => [d]
  | .stReg _ _ _ _ | .sthReg _ _ _ _ | .stbReg _ _ _ _ => []
  | .ldcr _ | .stcr _ | .xmem _ _ _ | .stop => []

/-- An instruction is well formed when it names no pair at `r31`, which has no register 32 beside it (10 R24). Every
other bound is in the types: a field's width, and `Prec` for the precisions. -/
def Instr.wellFormed (i : Instr) : Bool := i.pairs.all (· != 31#5)

/-- A cache line holds at least 8 bytes and a multiple of 8 (00 R8, 20 R69). -/
def Config.Cache.wellFormed (c : Config.Cache) : Bool := 8 ≤ c.bytesPerLine && c.bytesPerLine % 8 == 0

/-- A configuration is well formed when both caches are. -/
def Config.Emulator.wellFormed (c : Config.Emulator) : Bool := c.dcache.wellFormed && c.icache.wellFormed

end Sys2Proof
end

