-- ==== Sys2Proof/Machine/FloatingPoint.lean ====
section
/-! DEFINITION. The floating-point instructions (spec 43). A pair at `r31` faults before the operands are used
(60 R293). -/

namespace Sys2Proof.Machine

/-- `fadd` (43 R195). -/
def execFadd (t1 t2 td : Prec) (d s1 s2 : Reg) (s : State) : Result :=
  guardPairs (t1.pair s1 ++ t2.pair s2 ++ td.pair d) s
    (finishFp s d (fpAdd td s.rm (s.fpOperand t1 s1) (s.fpOperand t2 s2)))

/-- `fsub` (43 R201). -/
def execFsub (t1 t2 td : Prec) (d s1 s2 : Reg) (s : State) : Result :=
  guardPairs (t1.pair s1 ++ t2.pair s2 ++ td.pair d) s
    (finishFp s d (fpSub td s.rm (s.fpOperand t1 s1) (s.fpOperand t2 s2)))

/-- `fmul` (43 R200). -/
def execFmul (t1 t2 td : Prec) (d s1 s2 : Reg) (s : State) : Result :=
  guardPairs (t1.pair s1 ++ t2.pair s2 ++ td.pair d) s
    (finishFp s d (fpMul td s.rm (s.fpOperand t1 s1) (s.fpOperand t2 s2)))

/-- `fdiv` (43 R198). -/
def execFdiv (t1 t2 td : Prec) (d s1 s2 : Reg) (s : State) : Result :=
  guardPairs (t1.pair s1 ++ t2.pair s2 ++ td.pair d) s
    (finishFp s d (fpDiv td s.rm (s.fpOperand t1 s1) (s.fpOperand t2 s2)))

/-- `fcmp` (43 R196). -/
def execFcmp (t1 t2 : Prec) (d s1 s2 : Reg) (s : State) : Result :=
  guardPairs (t1.pair s1 ++ t2.pair s2) s
    (finishFpWord s d (fpCompare fcmpNan (s.fpOperand t1 s1) (s.fpOperand t2 s2)))

/-- `fcvt` (43 R197). -/
def execFcvt (t2 td : Prec) (d s2 : Reg) (s : State) : Result :=
  guardPairs (t2.pair s2 ++ td.pair d) s (finishFp s d (fpConvert td s.rm (s.fpOperand t2 s2)))

/-- `flt` (43 R199). -/
def execFlt (td : Prec) (d s2 : Reg) (s : State) : Result :=
  guardPairs (td.pair d) s (finishFp s d (fpFromInt td s.rm (s.reg s2).toInt))

/-- `int` (43 R202). -/
def execFint (t2 : Prec) (d s2 : Reg) (s : State) : Result :=
  guardPairs (t2.pair s2) s (finishFpWord s d (fpToInt s.rm (s.fpOperand t2 s2)))

end Sys2Proof.Machine
end

