-- ==== Sys2Proof/Machine/Integer.lean ====
section
/-! DEFINITION. The integer arithmetic instructions (spec 41). -/

namespace Sys2Proof.Machine

/-- `add rD,rS1,SIMM16` (41 R146). -/
def execAddImm (d s1 : Reg) (imm : Half) (s : State) : Result :=
  finishSigned s false d (addExact (s.reg s1) (sext16 imm) false)

/-- `add rD,rS1,rS2`, `add.ci`, `add.co`, `add.cio` (41 R147). -/
def execAddReg (i o : Bool) (d s1 s2 : Reg) (s : State) : Result :=
  finishSigned s o d (addExact (s.reg s1) (s.reg s2) (addCarryIn s i))

/-- `addu rD,rS1,IMM16` (41 R148). -/
def execAdduImm (d s1 : Reg) (imm : Half) (s : State) : Result :=
  finishUnsigned s false d (addExact (s.reg s1) (zext16 imm) false)

/-- `addu rD,rS1,rS2`, `addu.ci`, `addu.co`, `addu.cio` (41 R149). -/
def execAdduReg (i o : Bool) (d s1 s2 : Reg) (s : State) : Result :=
  finishUnsigned s o d (addExact (s.reg s1) (s.reg s2) (addCarryIn s i))

/-- `sub rD,rS1,SIMM16` (41 R150). -/
def execSubImm (d s1 : Reg) (imm : Half) (s : State) : Result :=
  finishSigned s false d (subExact subCarry (s.reg s1) (sext16 imm) (subCarryIn subCarry s false))

/-- `sub rD,rS1,rS2`, `sub.ci`, `sub.co`, `sub.cio` (41 R151). -/
def execSubReg (i o : Bool) (d s1 s2 : Reg) (s : State) : Result :=
  finishSigned s o d (subExact subCarry (s.reg s1) (s.reg s2) (subCarryIn subCarry s i))

/-- `subu rD,rS1,IMM16` (41 R152). -/
def execSubuImm (d s1 : Reg) (imm : Half) (s : State) : Result :=
  finishUnsigned s false d (subExact subCarry (s.reg s1) (zext16 imm) (subCarryIn subCarry s false))

/-- `subu rD,rS1,rS2`, `subu.ci`, `subu.co`, `subu.cio` (41 R153). -/
def execSubuReg (i o : Bool) (d s1 s2 : Reg) (s : State) : Result :=
  finishUnsigned s o d (subExact subCarry (s.reg s1) (s.reg s2) (subCarryIn subCarry s i))

/-- `cmp rD,rS1,SIMM16` (41 R154). -/
def execCmpImm (d s1 : Reg) (imm : Half) (s : State) : Result :=
  finishInteger s d (cmpString (s.reg s1) (sext16 imm))

/-- `cmp rD,rS1,rS2` (41 R155). -/
def execCmpReg (d s1 s2 : Reg) (s : State) : Result :=
  finishInteger s d (cmpString (s.reg s1) (s.reg s2))

/-- `muls rD,rS1,rS2` (41 R156). -/
def execMulsReg (d s1 s2 : Reg) (s : State) : Result :=
  finishSigned s false d (mulSigned (s.reg s1) (s.reg s2))

/-- `mulu rD,rS1,IMM16` (41 R157): the low 32 bits of the product. -/
def execMuluImm (d s1 : Reg) (imm : Half) (s : State) : Result :=
  finishInteger s d (lowWord (mulUnsigned (s.reg s1) (zext16 imm)))

/-- `mulu rD,rS1,rS2`, `mulu.d` (41 R158): with `.d` the 64 bits of the product go to the pair `rD`, `rD+1`. -/
def execMuluReg (dbl : Bool) (d s1 s2 : Reg) (s : State) : Result :=
  if dbl then
    guardPairs [d] s (.next (s.setPair d (mulUnsigned (s.reg s1) (s.reg s2))).settleFlags.retire)
  else finishInteger s d (lowWord (mulUnsigned (s.reg s1) (s.reg s2)))

/-- `divs rD,rS1,SIMM16` (41 R159): the zero test comes first (60 R293). -/
def execDivsImm (d s1 : Reg) (imm : Half) (s : State) : Result :=
  if sext16 imm = 0#32 then divideByZero s
  else finishSigned s false d (divSigned divsRounding (s.reg s1) (sext16 imm))

/-- `divs rD,rS1,rS2` (41 R160). -/
def execDivsReg (d s1 s2 : Reg) (s : State) : Result :=
  if s.reg s2 = 0#32 then divideByZero s
  else finishSigned s false d (divSigned divsRounding (s.reg s1) (s.reg s2))

/-- `divu rD,rS1,IMM16` (41 R161). -/
def execDivuImm (d s1 : Reg) (imm : Half) (s : State) : Result :=
  if zext16 imm = 0#32 then divideByZero s
  else finishInteger s d (BitVec.ofNat 32 ((s.reg s1).toNat / (zext16 imm).toNat))

/-- `divu rD,rS1,rS2`, `divu.d` (41 R162): with `.d` the dividend is the pair `rS1`, `rS1+1` and the 64-bit quotient
goes to the pair `rD`, `rD+1`. -/
def execDivuReg (dbl : Bool) (d s1 s2 : Reg) (s : State) : Result :=
  guardPairs (if dbl then [s1, d] else []) s
    (if s.reg s2 = 0#32 then divideByZero s
     else if dbl then
      .next (s.setPair d (BitVec.ofNat 64 ((s.pair s1).toNat / (s.reg s2).toNat))).settleFlags.retire
     else finishInteger s d (BitVec.ofNat 32 ((s.reg s1).toNat / (s.reg s2).toNat)))

end Sys2Proof.Machine
end

