-- ==== Sys2Proof/Machine/LoadStore.lean ====
section
/-! DEFINITION. The load, store, exchange and control-register instructions (spec 45). -/

namespace Sys2Proof.Machine

/-- `LOAD(n, ext)` (45 R241): the access is checked before anything is changed, then `rD` is written. -/
def load (s : State) (n : Nat) (ext : DWord → Word) (d : Reg) (ea : Word) : Result :=
  match memRead s ea n with
  | .error f => .fault f
  | .ok v => writeBack s d (ext v)

/-- `LOADD` (45 R241): the pair check, then the access, then `x[D]` and `x[D+1]`. -/
def loadDouble (s : State) (d : Reg) (ea : Word) : Result :=
  guardPairs [d] s
    (match memRead s ea 8 with
     | .error f => .fault f
     | .ok v => .next (s.setPair d v).retire)

/-- `STORE(n)` (45 R241): the low `n` bytes of `v` at `ea`. -/
def storeBytes (s : State) (n : Nat) (v : DWord) (ea : Word) : Result :=
  match memWrite s ea n v with
  | .error f => .fault f
  | .ok t => .next t.retire

/-- `STORED` (45 R241). -/
def storeDouble (s : State) (d : Reg) (ea : Word) : Result :=
  guardPairs [d] s (storeBytes s 8 (s.pair d) ea)

/-- `ld.d rD,rS1,SI16` (45 R242). -/
def execLddImm (d s1 : Reg) (imm : Half) (s : State) : Result :=
  loadDouble s d (eaImm s s1 imm)

/-- `ld rD,rS1,SI16` (45 R243). -/
def execLdImm (d s1 : Reg) (imm : Half) (s : State) : Result :=
  load s 4 lowWord d (eaImm s s1 imm)

/-- `ld.h rD,rS1,SI16` (45 R244). -/
def execLdhImm (d s1 : Reg) (imm : Half) (s : State) : Result :=
  load s 2 sextHalf d (eaImm s s1 imm)

/-- `ld.b rD,rS1,SI16` (45 R245). -/
def execLdbImm (d s1 : Reg) (imm : Half) (s : State) : Result :=
  load s 1 sextByte d (eaImm s s1 imm)

/-- `ld.hu rD,rS1,SI16` (45 R246). -/
def execLdhuImm (d s1 : Reg) (imm : Half) (s : State) : Result :=
  load s 2 zextHalf d (eaImm s s1 imm)

/-- `ld.bu rD,rS1,SI16` (45 R247). -/
def execLdbuImm (d s1 : Reg) (imm : Half) (s : State) : Result :=
  load s 1 zextByte d (eaImm s s1 imm)

/-- `ld.d rD,rS1,rS2` (45 R248). -/
def execLddReg (d s1 s2 : Reg) (s : State) : Result :=
  loadDouble s d (eaReg s s1 s2)

/-- `ld rD,rS1,rS2` (45 R249). -/
def execLdReg (d s1 s2 : Reg) (s : State) : Result :=
  load s 4 lowWord d (eaReg s s1 s2)

/-- `ld.h rD,rS1,rS2` (45 R250). -/
def execLdhReg (d s1 s2 : Reg) (s : State) : Result :=
  load s 2 sextHalf d (eaReg s s1 s2)

/-- `ld.b rD,rS1,rS2` (45 R251). -/
def execLdbReg (d s1 s2 : Reg) (s : State) : Result :=
  load s 1 sextByte d (eaReg s s1 s2)

/-- `ld.hu rD,rS1,rS2` (45 R252). -/
def execLdhuReg (d s1 s2 : Reg) (s : State) : Result :=
  load s 2 zextHalf d (eaReg s s1 s2)

/-- `ld.bu rD,rS1,rS2` (45 R253). -/
def execLdbuReg (d s1 s2 : Reg) (s : State) : Result :=
  load s 1 zextByte d (eaReg s s1 s2)

/-- `st.d rD,rS1,SI16` (45 R254). -/
def execStdImm (d s1 : Reg) (imm : Half) (s : State) : Result :=
  storeDouble s d (eaImm s s1 imm)

/-- `st rD,rS1,SI16` (45 R255). -/
def execStImm (d s1 : Reg) (imm : Half) (s : State) : Result :=
  storeBytes s 4 ((s.reg d).setWidth 64) (eaImm s s1 imm)

/-- `st.h rD,rS1,SI16` (45 R256). -/
def execSthImm (d s1 : Reg) (imm : Half) (s : State) : Result :=
  storeBytes s 2 ((s.reg d).setWidth 64) (eaImm s s1 imm)

/-- `st.b rD,rS1,SI16` (45 R257). -/
def execStbImm (d s1 : Reg) (imm : Half) (s : State) : Result :=
  storeBytes s 1 ((s.reg d).setWidth 64) (eaImm s s1 imm)

/-- `st.d rD,rS1,rS2`, `st.d.wt` (45 R258): `.wt` has no effect on the result (45 R265). -/
def execStdReg (_wt : Bool) (d s1 s2 : Reg) (s : State) : Result :=
  storeDouble s d (eaReg s s1 s2)

/-- `st rD,rS1,rS2`, `st.wt` (45 R259): `.wt` has no effect on the result (45 R265). -/
def execStReg (_wt : Bool) (d s1 s2 : Reg) (s : State) : Result :=
  storeBytes s 4 ((s.reg d).setWidth 64) (eaReg s s1 s2)

/-- `st.h rD,rS1,rS2`, `st.h.wt` (45 R260): `.wt` has no effect on the result (45 R265). -/
def execSthReg (_wt : Bool) (d s1 s2 : Reg) (s : State) : Result :=
  storeBytes s 2 ((s.reg d).setWidth 64) (eaReg s s1 s2)

/-- `st.b rD,rS1,rS2`, `st.b.wt` (45 R261): `.wt` has no effect on the result (45 R265). -/
def execStbReg (_wt : Bool) (d s1 s2 : Reg) (s : State) : Result :=
  storeBytes s 1 ((s.reg d).setWidth 64) (eaReg s s1 s2)

/-- `ldcr rD` (45 R262): all 32 bits of `CR`; under CR_UNUSED_BITS = any the unused ones are a free value
(10 R34). -/
def execLdcr (d : Reg) (s : State) : Result :=
  match crUnusedBits with
  | .asWritten => writeBack s d s.cr
  | .anyValue =>
    writeBack { s with freeCount := s.freeCount + 1 } d
      ((s.cr &&& crUsedBits) ||| (Config.unusedCrBits s.freeCount &&& ~~~crUsedBits))

/-- `stcr rS1` (45 R263): all 32 bits of `CR`. Under FETCH_ORDER = fault-on-change a value whose bit 30 is not the
byte order the program was loaded with is the fault `ByteOrderChanged` (20 R57). -/
def execStcr (s1 : Reg) (s : State) : Result :=
  if fetchOrder = .faultOnChange && (s.reg s1).getLsbD 30 != s.cfg.littleEndian then .fault (.byteOrderChanged s.pc)
  else .next { s with cr := s.reg s1 }.retire

/-- `xmem rD,rS1,rS2` (45 R264): registers are read first, the check comes before any change. -/
def execXmem (d s1 s2 : Reg) (s : State) : Result :=
  match memRead s (eaReg s s1 s2) 4 with
  | .error f => .fault f
  | .ok old => writeBack (s.store (eaReg s s1 s2) 4 ((s.reg d).setWidth 64)) d (lowWord old)

end Sys2Proof.Machine
end

