-- ==== Sys2Proof/Machine/Logical.lean ====
section
/-! DEFINITION. The logical instructions (spec 40). -/

namespace Sys2Proof.Machine

/-- `and rD,rS1,IMM16`, `and.u` (40 R131). -/
def execAndImm (u : Bool) (d s1 : Reg) (imm : Half) (s : State) : Result :=
  writeBack s d (onHalf u (· &&& imm) (s.reg s1))

/-- `and rD,rS1,rS2`, `and.c` (40 R132). -/
def execAndReg (c : Bool) (d s1 s2 : Reg) (s : State) : Result :=
  writeBack s d (s.reg s1 &&& complementIf c (s.reg s2))

/-- `xor rD,rS1,IMM16`, `xor.u` (40 R133). -/
def execXorImm (u : Bool) (d s1 : Reg) (imm : Half) (s : State) : Result :=
  writeBack s d (onHalf u (· ^^^ imm) (s.reg s1))

/-- `xor rD,rS1,rS2`, `xor.c` (40 R134). -/
def execXorReg (c : Bool) (d s1 s2 : Reg) (s : State) : Result :=
  writeBack s d (s.reg s1 ^^^ complementIf c (s.reg s2))

/-- `mask rD,rS1,IMM16`, `mask.u` (40 R135). -/
def execMaskImm (u : Bool) (d s1 : Reg) (imm : Half) (s : State) : Result :=
  writeBack s d (maskHalf u imm (s.reg s1))

/-- `or rD,rS1,IMM16`, `or.u` (40 R136). -/
def execOrImm (u : Bool) (d s1 : Reg) (imm : Half) (s : State) : Result :=
  writeBack s d (onHalf u (· ||| imm) (s.reg s1))

/-- `or rD,rS1,rS2`, `or.c` (40 R137). -/
def execOrReg (c : Bool) (d s1 s2 : Reg) (s : State) : Result :=
  writeBack s d (s.reg s1 ||| complementIf c (s.reg s2))

end Sys2Proof.Machine
end

