-- ==== Sys2Proof/Machine/Special.lean ====
section
/-! DEFINITION. The special instruction (spec 46). -/

namespace Sys2Proof.Machine

/-- `stop` (46 R280): the run ends; no register, no bit of `CR` and no byte of memory changes. -/
def execStop (s : State) : Result := .next s.halt

end Sys2Proof.Machine
end

