-- ==== Sys2Proof/Machine/Dispatch.lean ====
section
/-! DEFINITION. One arm per instruction: what executing it does. -/

namespace Sys2Proof.Machine

def exec (i : Instr) (s : State) : Host.Outcome State Fault Refusal :=
  match i with
  | .andImm u d s1 imm => Sys2Proof.Machine.execAndImm u d s1 imm s
  | .andReg c d s1 s2 => Sys2Proof.Machine.execAndReg c d s1 s2 s
  | .xorImm u d s1 imm => Sys2Proof.Machine.execXorImm u d s1 imm s
  | .xorReg c d s1 s2 => Sys2Proof.Machine.execXorReg c d s1 s2 s
  | .maskImm u d s1 imm => Sys2Proof.Machine.execMaskImm u d s1 imm s
  | .orImm u d s1 imm => Sys2Proof.Machine.execOrImm u d s1 imm s
  | .orReg c d s1 s2 => Sys2Proof.Machine.execOrReg c d s1 s2 s
  | .addImm d s1 imm => Sys2Proof.Machine.execAddImm d s1 imm s
  | .addReg ci co d s1 s2 => Sys2Proof.Machine.execAddReg ci co d s1 s2 s
  | .adduImm d s1 imm => Sys2Proof.Machine.execAdduImm d s1 imm s
  | .adduReg ci co d s1 s2 => Sys2Proof.Machine.execAdduReg ci co d s1 s2 s
  | .subImm d s1 imm => Sys2Proof.Machine.execSubImm d s1 imm s
  | .subReg ci co d s1 s2 => Sys2Proof.Machine.execSubReg ci co d s1 s2 s
  | .subuImm d s1 imm => Sys2Proof.Machine.execSubuImm d s1 imm s
  | .subuReg ci co d s1 s2 => Sys2Proof.Machine.execSubuReg ci co d s1 s2 s
  | .cmpImm d s1 imm => Sys2Proof.Machine.execCmpImm d s1 imm s
  | .cmpReg d s1 s2 => Sys2Proof.Machine.execCmpReg d s1 s2 s
  | .mulsReg d s1 s2 => Sys2Proof.Machine.execMulsReg d s1 s2 s
  | .muluImm d s1 imm => Sys2Proof.Machine.execMuluImm d s1 imm s
  | .muluReg dbl d s1 s2 => Sys2Proof.Machine.execMuluReg dbl d s1 s2 s
  | .divsImm d s1 imm => Sys2Proof.Machine.execDivsImm d s1 imm s
  | .divsReg d s1 s2 => Sys2Proof.Machine.execDivsReg d s1 s2 s
  | .divuImm d s1 imm => Sys2Proof.Machine.execDivuImm d s1 imm s
  | .divuReg dbl d s1 s2 => Sys2Proof.Machine.execDivuReg dbl d s1 s2 s
  | .clrBit d s1 w5 o5 => Sys2Proof.Machine.execClrBit d s1 w5 o5 s
  | .clrReg d s1 s2 => Sys2Proof.Machine.execClrReg d s1 s2 s
  | .setBit d s1 w5 o5 => Sys2Proof.Machine.execSetBit d s1 w5 o5 s
  | .setReg d s1 s2 => Sys2Proof.Machine.execSetReg d s1 s2 s
  | .extBit d s1 w5 o5 => Sys2Proof.Machine.execExtBit d s1 w5 o5 s
  | .extReg d s1 s2 => Sys2Proof.Machine.execExtReg d s1 s2 s
  | .extuBit d s1 w5 o5 => Sys2Proof.Machine.execExtuBit d s1 w5 o5 s
  | .extuReg d s1 s2 => Sys2Proof.Machine.execExtuReg d s1 s2 s
  | .makBit d s1 w5 o5 => Sys2Proof.Machine.execMakBit d s1 w5 o5 s
  | .makReg d s1 s2 => Sys2Proof.Machine.execMakReg d s1 s2 s
  | .rotBit d s1 o5 => Sys2Proof.Machine.execRotBit d s1 o5 s
  | .rotReg d s1 s2 => Sys2Proof.Machine.execRotReg d s1 s2 s
  | .fadd t1 t2 td d s1 s2 => Sys2Proof.Machine.execFadd t1 t2 td d s1 s2 s
  | .fcmp t1 t2 d s1 s2 => Sys2Proof.Machine.execFcmp t1 t2 d s1 s2 s
  | .fcvt t2 td d s2 => Sys2Proof.Machine.execFcvt t2 td d s2 s
  | .fdiv t1 t2 td d s1 s2 => Sys2Proof.Machine.execFdiv t1 t2 td d s1 s2 s
  | .flt td d s2 => Sys2Proof.Machine.execFlt td d s2 s
  | .fmul t1 t2 td d s1 s2 => Sys2Proof.Machine.execFmul t1 t2 td d s1 s2 s
  | .fsub t1 t2 td d s1 s2 => Sys2Proof.Machine.execFsub t1 t2 td d s1 s2 s
  | .fint t2 d s2 => Sys2Proof.Machine.execFint t2 d s2 s
  | .bb0 n b5 s1 d16 => Sys2Proof.Machine.execBb0 n b5 s1 d16 s
  | .bb1 n b5 s1 d16 => Sys2Proof.Machine.execBb1 n b5 s1 d16 s
  | .br n d26 => Sys2Proof.Machine.execBr n d26 s
  | .bsr n d26 => Sys2Proof.Machine.execBsr n d26 s
  | .jmp n s2 => Sys2Proof.Machine.execJmp n s2 s
  | .jsr n s2 => Sys2Proof.Machine.execJsr n s2 s
  | .lddImm d s1 imm => Sys2Proof.Machine.execLddImm d s1 imm s
  | .ldImm d s1 imm => Sys2Proof.Machine.execLdImm d s1 imm s
  | .ldhImm d s1 imm => Sys2Proof.Machine.execLdhImm d s1 imm s
  | .ldbImm d s1 imm => Sys2Proof.Machine.execLdbImm d s1 imm s
  | .ldhuImm d s1 imm => Sys2Proof.Machine.execLdhuImm d s1 imm s
  | .ldbuImm d s1 imm => Sys2Proof.Machine.execLdbuImm d s1 imm s
  | .lddReg d s1 s2 => Sys2Proof.Machine.execLddReg d s1 s2 s
  | .ldReg d s1 s2 => Sys2Proof.Machine.execLdReg d s1 s2 s
  | .ldhReg d s1 s2 => Sys2Proof.Machine.execLdhReg d s1 s2 s
  | .ldbReg d s1 s2 => Sys2Proof.Machine.execLdbReg d s1 s2 s
  | .ldhuReg d s1 s2 => Sys2Proof.Machine.execLdhuReg d s1 s2 s
  | .ldbuReg d s1 s2 => Sys2Proof.Machine.execLdbuReg d s1 s2 s
  | .stdImm d s1 imm => Sys2Proof.Machine.execStdImm d s1 imm s
  | .stImm d s1 imm => Sys2Proof.Machine.execStImm d s1 imm s
  | .sthImm d s1 imm => Sys2Proof.Machine.execSthImm d s1 imm s
  | .stbImm d s1 imm => Sys2Proof.Machine.execStbImm d s1 imm s
  | .stdReg wt d s1 s2 => Sys2Proof.Machine.execStdReg wt d s1 s2 s
  | .stReg wt d s1 s2 => Sys2Proof.Machine.execStReg wt d s1 s2 s
  | .sthReg wt d s1 s2 => Sys2Proof.Machine.execSthReg wt d s1 s2 s
  | .stbReg wt d s1 s2 => Sys2Proof.Machine.execStbReg wt d s1 s2 s
  | .ldcr d => Sys2Proof.Machine.execLdcr d s
  | .stcr s1 => Sys2Proof.Machine.execStcr s1 s
  | .xmem d s1 s2 => Sys2Proof.Machine.execXmem d s1 s2 s
  | .stop => Sys2Proof.Machine.execStop s

end Sys2Proof.Machine
end

