-- ==== Sys2Proof/Machine/Step.lean ====
section
/-! DEFINITION. One step of the machine (spec 44 R221): fetch, decode, execute. -/

namespace Sys2Proof.Machine

/-- One instruction: the faults of its fetch and decoding come before anything it does (60 R293). The delay slot and
the advance of `pc` are in the meanings (`State.retire`, `State.branch`). From the two terminal states there is no
next step (46 R280, 60 R296). -/
def step (s : State) : Host.Outcome State Fault Refusal :=
  match s.run with
  | .stopped => .fault .machineStopped
  | .exception c pc => .fault (.machineInException c pc)
  | .running =>
    match fetchInstr s with
    | .error f => .fault f
    | .ok i => exec i s

/-- The state with an opcode-table word stored as the instruction at `pc`, in the byte order it is fetched in, the four
bytes not counted as stored by the program: what loading an image with that word does (70 R333). For a running machine
whose `pc` is a multiple of 4 inside memory, the next step runs exactly it. -/
def State.withFetchWord (s : State) (nbits w : Nat) : State :=
  { s with
    mem := s.mem.writeBytes s.pc.toNat (tableWordBytes (fetchLittleEndian s) nbits w)
    stored := s.stored.filter (fun a => !(s.pc.toNat ≤ a && a < s.pc.toNat + 4)) }

end Sys2Proof.Machine
end

