-- ==== Sys2Proof/Machine/Text.lean ====
section
/-! DEFINITION. Text for the host side: printing and reading numbers, cutting lines into words (spec 30 R104, R107,
R119, 70 R350, R352, R358). All recursion is structural. -/

namespace Sys2Proof.Machine

/-- Characters of a line. -/
abbrev Text := List Char

/-- The decimal digit or upper-case hexadecimal digit of a number below 16. -/
def digitChar (n : Nat) : Char := if n < 10 then Char.ofNat (48 + n) else Char.ofNat (55 + n)

/-- The value of a digit in a base of at most 16, in lower or upper case. -/
def digitValue (base : Nat) (c : Char) : Option Nat :=
  let v := if '0' ≤ c && c ≤ '9' then c.toNat - 48
    else if 'a' ≤ c && c ≤ 'f' then c.toNat - 87
    else if 'A' ≤ c && c ≤ 'F' then c.toNat - 55 else 16
  if v < base then some v else none

/-- A number's digits in a base, put before `acc`; `fuel` bounds their count. -/
def digitsOnto (base : Nat) (fuel n : Nat) (acc : Text) : Text :=
  match fuel with
  | 0 => acc
  | k + 1 => if n < base then digitChar n :: acc else digitsOnto base k (n / base) (digitChar (n % base) :: acc)

/-- A natural number in decimal. -/
def decimal (n : Nat) : Text := digitsOnto 10 (n + 1) n []

/-- A signed number in decimal. -/
def signedDecimal (z : Int) : Text := if z < 0 then '-' :: decimal z.natAbs else decimal z.natAbs

/-- A number in exactly `k` upper-case hexadecimal digits. -/
def hexFixed (k n : Nat) : Text :=
  match k with
  | 0 => []
  | k + 1 => hexFixed k (n / 16) ++ [digitChar (n % 16)]

/-- A number in at least two decimal digits, as the disassembler prints registers and bit numbers (30 R119). -/
def decimal2 (n : Nat) : Text := if n < 10 then '0' :: decimal n else decimal n

/-- Texts joined with a separator. -/
def joinText (sep : Text) (ts : List Text) : Text :=
  match ts with
  | [] => []
  | [t] => t
  | t :: u :: ts => t ++ sep ++ joinText sep (u :: ts)

/-- The number the digits stand for, after `acc`; none where one is no digit. -/
def readDigits (base : Nat) (acc : Nat) (t : Text) : Option Nat :=
  match t with
  | [] => some acc
  | c :: cs =>
    match digitValue base c with
    | none => none
    | some v => readDigits base (acc * base + v) cs

/-- A number in decimal, or in hexadecimal after `0x` (30 R107, 70 R350). DESIGN CHOICE (log entry 33): hexadecimal
digits in either case. -/
def readNumber (t : Text) : Option Nat :=
  match t with
  | [] => none
  | '0' :: 'x' :: c :: cs => readDigits 16 0 (c :: cs)
  | c :: cs => readDigits 10 0 (c :: cs)

/-- A blank or a tabulator (30 R104). DESIGN CHOICE (log entry 33): a carriage return counts as one, so that lines may
end with it. -/
def isBlank (c : Char) : Bool := c == ' ' || c == '\t' || c == '\r'

/-- A letter, upper or lower case (30 R105). DESIGN CHOICE (log entry 33): of the ASCII letters only. -/
def isLetter (c : Char) : Bool := ('a' ≤ c && c ≤ 'z') || ('A' ≤ c && c ≤ 'Z')

/-- A letter or a digit (30 R105). -/
def isAlnum (c : Char) : Bool := isLetter c || ('0' ≤ c && c ≤ '9')

/-- A letter followed by letters and digits: a label's name (30 R105). -/
def isName (t : Text) : Bool :=
  match t with
  | [] => false
  | c :: cs => isLetter c && cs.all isAlnum

/-- A line without the blanks at both ends. -/
def trim (t : Text) : Text := ((t.dropWhile isBlank).reverse.dropWhile isBlank).reverse

/-- The pieces of a text between the characters that satisfy `p`, empty pieces included. -/
def splitWhere (p : Char → Bool) (t : Text) : List Text :=
  match t with
  | [] => [[]]
  | c :: cs =>
    if p c then [] :: splitWhere p cs
    else match splitWhere p cs with
      | [] => [[c]]
      | w :: ws => (c :: w) :: ws

/-- The words of a line, separated by blanks. -/
def wordsOf (t : Text) : List Text := (splitWhere isBlank t).filter (fun w => !w.isEmpty)

/-- The entry of a name in a table. -/
def lookupName {α : Type} (n : Text) (l : List (Text × α)) : Option α :=
  match l with
  | [] => none
  | (m, v) :: t => if m = n then some v else lookupName n t

end Sys2Proof.Machine
end

