-- ==== Sys2Proof/Machine/Disasm.lean ====
section
/-! DEFINITION. The disassembly format of host command `D` and of the status line (spec 30 R94, R119, 70 R354):
registers and bit numbers in two digits, immediates in unsigned decimal (conflict C11), branch displacements in
signed decimal. What the figures do not show (bit fields, the copy encodings of `fcvt`) is log entry 32. -/

namespace Sys2Proof.Machine

/-- A register as the disassembler prints it. -/
def regText (r : Reg) : Text := 'r' :: decimal2 r.toNat

/-- A mnemonic and its operands. -/
def asmText (mnemonic : String) (suffix : String) (ops : List Text) : Text :=
  mnemonic.toList ++ suffix.toList ++ (if ops.isEmpty then [] else ' ' :: joinText [','] ops)

/-- An option's suffix where it is on (30 R94). -/
def onSuffix (b : Bool) (s : String) : String := if b then s else ""

/-- `.ci`, `.co`, `.cio` (30 R94). -/
def carrySuffix (i o : Bool) : String :=
  match i, o with
  | false, false => ""
  | true, false => ".ci"
  | false, true => ".co"
  | true, true => ".cio"

/-- The letter of a precision (30 R94). -/
def precLetter (p : Prec) : String :=
  match p with
  | .single => "s"
  | .double => "d"

/-- The floating-point suffix: destination, then sources (30 R94). -/
def fpSuffix (ps : List Prec) : String := ps.foldl (fun s p => s ++ precLetter p) "."

/-- `W5<O5>`. -/
def fieldText (w5 o5 : BitVec 5) : Text := decimal w5.toNat ++ ['<'] ++ decimal o5.toNat ++ ['>']

/-- `rD,rS1,IMM16`. -/
def immOps (d s1 : Reg) (imm : Half) : List Text := [regText d, regText s1, decimal imm.toNat]

/-- `rD,rS1,rS2`. -/
def triOps (d s1 s2 : Reg) : List Text := [regText d, regText s1, regText s2]

/-- `rD,rS1,W5<O5>`. -/
def bitOps (d s1 : Reg) (w5 o5 : BitVec 5) : List Text := [regText d, regText s1, fieldText w5 o5]

/-- `B5,rS1,D16`. -/
def bbOps (b5 : BitVec 5) (s1 : Reg) (d16 : Half) : List Text :=
  [decimal2 b5.toNat, regText s1, signedDecimal d16.toInt]

/-- An instruction as the disassembler prints it (30 R119). -/
def disassemble (i : Instr) : Text :=
  match i with
  | .andImm u d s1 imm => asmText "and" (onSuffix u ".u") (immOps d s1 imm)
  | .andReg c d s1 s2 => asmText "and" (onSuffix c ".c") (triOps d s1 s2)
  | .xorImm u d s1 imm => asmText "xor" (onSuffix u ".u") (immOps d s1 imm)
  | .xorReg c d s1 s2 => asmText "xor" (onSuffix c ".c") (triOps d s1 s2)
  | .maskImm u d s1 imm => asmText "mask" (onSuffix u ".u") (immOps d s1 imm)
  | .orImm u d s1 imm => asmText "or" (onSuffix u ".u") (immOps d s1 imm)
  | .orReg c d s1 s2 => asmText "or" (onSuffix c ".c") (triOps d s1 s2)
  | .addImm d s1 imm => asmText "add" "" (immOps d s1 imm)
  | .addReg i o d s1 s2 => asmText "add" (carrySuffix i o) (triOps d s1 s2)
  | .adduImm d s1 imm => asmText "addu" "" (immOps d s1 imm)
  | .adduReg i o d s1 s2 => asmText "addu" (carrySuffix i o) (triOps d s1 s2)
  | .subImm d s1 imm => asmText "sub" "" (immOps d s1 imm)
  | .subReg i o d s1 s2 => asmText "sub" (carrySuffix i o) (triOps d s1 s2)
  | .subuImm d s1 imm => asmText "subu" "" (immOps d s1 imm)
  | .subuReg i o d s1 s2 => asmText "subu" (carrySuffix i o) (triOps d s1 s2)
  | .cmpImm d s1 imm => asmText "cmp" "" (immOps d s1 imm)
  | .cmpReg d s1 s2 => asmText "cmp" "" (triOps d s1 s2)
  | .mulsReg d s1 s2 => asmText "muls" "" (triOps d s1 s2)
  | .muluImm d s1 imm => asmText "mulu" "" (immOps d s1 imm)
  | .muluReg dbl d s1 s2 => asmText "mulu" (onSuffix dbl ".d") (triOps d s1 s2)
  | .divsImm d s1 imm => asmText "divs" "" (immOps d s1 imm)
  | .divsReg d s1 s2 => asmText "divs" "" (triOps d s1 s2)
  | .divuImm d s1 imm => asmText "divu" "" (immOps d s1 imm)
  | .divuReg dbl d s1 s2 => asmText "divu" (onSuffix dbl ".d") (triOps d s1 s2)
  | .clrBit d s1 w5 o5 => asmText "clr" "" (bitOps d s1 w5 o5)
  | .clrReg d s1 s2 => asmText "clr" "" (triOps d s1 s2)
  | .setBit d s1 w5 o5 => asmText "set" "" (bitOps d s1 w5 o5)
  | .setReg d s1 s2 => asmText "set" "" (triOps d s1 s2)
  | .extBit d s1 w5 o5 => asmText "ext" "" (bitOps d s1 w5 o5)
  | .extReg d s1 s2 => asmText "ext" "" (triOps d s1 s2)
  | .extuBit d s1 w5 o5 => asmText "extu" "" (bitOps d s1 w5 o5)
  | .extuReg d s1 s2 => asmText "extu" "" (triOps d s1 s2)
  | .makBit d s1 w5 o5 => asmText "mak" "" (bitOps d s1 w5 o5)
  | .makReg d s1 s2 => asmText "mak" "" (triOps d s1 s2)
  | .rotBit d s1 o5 => asmText "rot" "" [regText d, regText s1, ['<'] ++ decimal o5.toNat ++ ['>']]
  | .rotReg d s1 s2 => asmText "rot" "" (triOps d s1 s2)
  | .fadd t1 t2 td d s1 s2 => asmText "fadd" (fpSuffix [td, t1, t2]) (triOps d s1 s2)
  | .fcmp t1 t2 d s1 s2 => asmText "fcmp" (fpSuffix [.single, t1, t2]) (triOps d s1 s2)
  | .fcvt t2 td d s2 => asmText "fcvt" (fpSuffix [td, t2]) [regText d, regText s2]
  | .fdiv t1 t2 td d s1 s2 => asmText "fdiv" (fpSuffix [td, t1, t2]) (triOps d s1 s2)
  | .flt td d s2 => asmText "flt" (fpSuffix [td, .single]) [regText d, regText s2]
  | .fmul t1 t2 td d s1 s2 => asmText "fmul" (fpSuffix [td, t1, t2]) (triOps d s1 s2)
  | .fsub t1 t2 td d s1 s2 => asmText "fsub" (fpSuffix [td, t1, t2]) (triOps d s1 s2)
  | .fint t2 d s2 => asmText "int" (fpSuffix [.single, t2]) [regText d, regText s2]
  | .bb0 n b5 s1 d16 => asmText "bb0" (onSuffix n ".n") (bbOps b5 s1 d16)
  | .bb1 n b5 s1 d16 => asmText "bb1" (onSuffix n ".n") (bbOps b5 s1 d16)
  | .br n d26 => asmText "br" (onSuffix n ".n") [signedDecimal d26.toInt]
  | .bsr n d26 => asmText "bsr" (onSuffix n ".n") [signedDecimal d26.toInt]
  | .jmp n s2 => asmText "jmp" (onSuffix n ".n") [['('] ++ regText s2 ++ [')']]
  | .jsr n s2 => asmText "jsr" (onSuffix n ".n") [['('] ++ regText s2 ++ [')']]
  | .lddImm d s1 imm => asmText "ld" ".d" (immOps d s1 imm)
  | .ldImm d s1 imm => asmText "ld" "" (immOps d s1 imm)
  | .ldhImm d s1 imm => asmText "ld" ".h" (immOps d s1 imm)
  | .ldbImm d s1 imm => asmText "ld" ".b" (immOps d s1 imm)
  | .ldhuImm d s1 imm => asmText "ld" ".hu" (immOps d s1 imm)
  | .ldbuImm d s1 imm => asmText "ld" ".bu" (immOps d s1 imm)
  | .lddReg d s1 s2 => asmText "ld" ".d" (triOps d s1 s2)
  | .ldReg d s1 s2 => asmText "ld" "" (triOps d s1 s2)
  | .ldhReg d s1 s2 => asmText "ld" ".h" (triOps d s1 s2)
  | .ldbReg d s1 s2 => asmText "ld" ".b" (triOps d s1 s2)
  | .ldhuReg d s1 s2 => asmText "ld" ".hu" (triOps d s1 s2)
  | .ldbuReg d s1 s2 => asmText "ld" ".bu" (triOps d s1 s2)
  | .stdImm d s1 imm => asmText "st" ".d" (immOps d s1 imm)
  | .stImm d s1 imm => asmText "st" "" (immOps d s1 imm)
  | .sthImm d s1 imm => asmText "st" ".h" (immOps d s1 imm)
  | .stbImm d s1 imm => asmText "st" ".b" (immOps d s1 imm)
  | .stdReg wt d s1 s2 => asmText "st" (".d" ++ onSuffix wt ".wt") (triOps d s1 s2)
  | .stReg wt d s1 s2 => asmText "st" (onSuffix wt ".wt") (triOps d s1 s2)
  | .sthReg wt d s1 s2 => asmText "st" (".h" ++ onSuffix wt ".wt") (triOps d s1 s2)
  | .stbReg wt d s1 s2 => asmText "st" (".b" ++ onSuffix wt ".wt") (triOps d s1 s2)
  | .ldcr d => asmText "ldcr" "" [regText d]
  | .stcr s1 => asmText "stcr" "" [regText s1]
  | .xmem d s1 s2 => asmText "xmem" "" (triOps d s1 s2)
  | .stop => asmText "stop" "" []

/-- The message for a word that is no instruction (30 R100, R119). -/
def notAnInstruction : Text := "instruccion incorrecta".toList

/-- A word as the disassembler prints it. -/
def disassembleWord (w : Word) : Text :=
  match decode w with
  | some i => disassemble i
  | none => notAnInstruction

/-- The word at an address in the byte order instructions are fetched in; an address outside memory gives the bytes
that are not listed. -/
def State.codeWord (s : State) (a : Nat) : Word :=
  (assemble (fetchLittleEndian s) (s.mem.readBytes a 4)).setWidth 32

/-- The label of an address. DESIGN CHOICE (log entry 32): of several labels the first of the table, which is the one
defined first in the source. -/
def labelAt (labels : List (Text × Nat)) (a : Nat) : Option Text :=
  match labels with
  | [] => none
  | (n, b) :: t => if b = a then some n else labelAt t a

/-- A line of host command `D`: the label if the address has one, the address, the instruction (70 R354). -/
def disassemblyLine (labels : List (Text × Nat)) (s : State) (a : Nat) : Text :=
  (match labelAt labels a with
    | some n => n ++ [':', ' ']
    | none => []) ++ decimal a ++ [' '] ++ disassembleWord (s.codeWord a)

/-- The lines of host command `D` from an address on. -/
def disassembly (labels : List (Text × Nat)) (s : State) (a n : Nat) : List Text :=
  match n with
  | 0 => []
  | n + 1 => disassemblyLine labels s a :: disassembly labels s (a + 4) n

end Sys2Proof.Machine
end

