-- ==== Sys2Proof/Machine/Loader.lean ====
section
/-! DEFINITION. Loading a program (spec 70 R330 to R337): the image and the state the machine starts in. A malformed
image or configuration is refused (93 U23). -/

namespace Sys2Proof.Machine

/-- A program image (70 R330): blocks of bytes at their addresses, reserved ranges (`res`) as an address and a count
of bytes, the entry address, and the label table host commands use (30 R115). -/
structure Image where
  blocks : List (Nat × List Byte)
  reserved : List (Nat × Nat)
  entry : Nat
  labels : List (Text × Nat)
deriving DecidableEq, Repr

/-- Two ranges, each an address and a count of bytes, share no byte. -/
def apartRanges (x y : Nat × Nat) : Bool := x.1 + x.2 ≤ y.1 || y.1 + y.2 ≤ x.1

/-- No two of the ranges share a byte. -/
def allApart (rs : List (Nat × Nat)) : Bool :=
  match rs with
  | [] => true
  | r :: rs => rs.all (apartRanges r) && allApart rs

/-- The ranges an image occupies. -/
def Image.ranges (m : Image) : List (Nat × Nat) := m.blocks.map (fun b => (b.1, b.2.length)) ++ m.reserved

/-- A well-formed image: the entry is a multiple of 4 at most `0x3fffc` (70 R332, D1), every range lies in memory
(93 U23), no two overlap (70 R330), a reserved range is a whole number of words (30 R113). -/
def Image.wellFormed (m : Image) : Bool :=
  m.entry % 4 == 0 && decide (m.entry ≤ 0x3fffc) && m.ranges.all (fun r => r.1 + r.2 ≤ memSize) && allApart m.ranges
    && m.reserved.all (fun r => r.2 % 4 == 0)

/-- The bytes of a reserved range: arbitrary values fixed at load (70 R334, D25), one for each address. -/
def reservedBytes (free : Nat → Byte) (a n : Nat) : List Byte :=
  match n with
  | 0 => []
  | n + 1 => free a :: reservedBytes free (a + 1) n

/-- Memory after loading: all `0x00`, then the blocks and the reserved ranges (70 R331). -/
def Image.memory (m : Image) (free : Nat → Byte) : Memory :=
  m.reserved.foldl (fun mem r => mem.writeBytes r.1 (reservedBytes free r.1 r.2))
    (m.blocks.foldl (fun mem b => mem.writeBytes b.1 b.2) [])

/-- Starting the emulator with an image (70 R331), for given contents of the reserved bytes; none where the image or
the configuration is malformed. -/
def loadImage (cfg : Config.Emulator) (m : Image) (free : Nat → Byte) : Option State :=
  if m.wellFormed && cfg.wellFormed then
    some { State.start cfg with mem := m.memory free, pc := BitVec.ofNat 32 m.entry }
  else none

end Sys2Proof.Machine
end

