-- ==== Sys2Proof/Machine/Console.lean ====
section
/-! DEFINITION. The host interface (spec 70 R350 to R360): the commands at the prompt, the displays and the messages.
Host commands are outside `step` (93 U28): they act between two instructions only (R350). What the source does not
show is answered `undescribed` or, for a malformed command, `refused` (log entry 32). -/

namespace Sys2Proof.Machine

/-- A host command (70 R350). -/
inductive Command where
  /-- `H`: help (R357). -/
  | help
  /-- `Q`: leave the emulator (R357). -/
  | quit
  /-- `P`: list the active breakpoints (R351). -/
  | listBreakpoints
  /-- `P + a` (R351). -/
  | addBreakpoint (a : Nat)
  /-- `P - a` (R351). -/
  | dropBreakpoint (a : Nat)
  /-- `V a n`: main memory (R352). -/
  | view (a n : Nat)
  /-- `V C a n`: the data cache (R352). -/
  | viewCache (a n : Nat)
  /-- `E`: run (R356). -/
  | execute
  /-- `T n`: step (R356). -/
  | trace (n : Nat)
  /-- `R`: the status display (R353). -/
  | registers
  /-- `R n v`: set a register (R353). -/
  | setRegister (n v : Nat)
  /-- `I a v`: set a word of memory (R353). -/
  | setWord (a v : Nat)
  /-- `D a n`: disassembly (R354). -/
  | disassemble (a n : Nat)
  /-- `B`: the history buffer (R355). -/
  | history
  /-- `S`: cache statistics (R357). -/
  | statistics
  /-- `C`: the configuration (R357). -/
  | configuration
deriving DecidableEq, Repr

/-- The emulator at its prompt: the machine, the fault its run has ended in (60 R302), the program's labels (30 R105)
and the last command (70 R359). -/
structure Session where
  machine : State
  fault : Option Fault
  labels : List (Text × Nat)
  last : Option Command
deriving DecidableEq, Repr

/-- The prompt (R350). -/
def prompt : Text := "88110 > ".toList

/-- Whether the run can go on: no `stop`, no exception and no fault has ended it (46 R280, 60 R296, R302). -/
def Session.canRun (ses : Session) : Bool := ses.machine.run = .running && ses.fault.isNone

/-- What the emulator answers. -/
inductive Answer where
  /-- The lines printed and the session afterwards. -/
  | shown (lines : List Text) (s : Session)
  /-- The source says what the command does to the machine and not what it prints (91 N35, N5). -/
  | undescribed (s : Session)
  /-- The lines are printed, and more that the source names and does not show (R353). -/
  | shownInPart (lines : List Text) (s : Session)
  /-- `E` has not come to its end within the steps allowed: the program is still running (R356). -/
  | running (s : Session)
  /-- The emulator is left (R357). -/
  | left
  /-- A malformed command, an argument out of range, or a command the source gives no meaning here (93 U28, U25). -/
  | refused
deriving DecidableEq, Repr

/-! ## Displays -/

/-- A bit as `0` or `1`. -/
def bitText (b : Bool) : Text := if b then ['1'] else ['0']

/-- `R01 = 00000000 h` (R358). -/
def registerText (s : State) (k : Nat) : Text :=
  ['R'] ++ decimal2 k ++ " = ".toList ++ hexFixed 8 (s.reg (BitVec.ofNat 5 k)).toNat ++ " h".toList

/-- A line of registers, from `k` on, at most four and none above `R31`. -/
def registerLine (s : State) (k : Nat) : Text :=
  joinText [' '] (((List.range 4).map (k + ·)).filterMap (fun j => if j ≤ 31 then some (registerText s j) else none))

/-- The status display (R358). `cycles` stands for `Ciclo`, to which no rule gives a value (R345, U29). -/
def statusDisplay (cycles : Nat) (s : State) : List Text :=
  ["PC=".toList ++ decimal s.pc.toNat ++ [' '] ++ disassembleWord (s.codeWord s.pc.toNat) ++ " Tot. Inst: ".toList
      ++ decimal s.totInst ++ " << Ciclo : ".toList ++ decimal cycles,
    "FL=".toList ++ bitText s.le ++ " FE=".toList ++ bitText s.ei ++ " FC=".toList ++ bitText s.carry
      ++ " FV=".toList ++ bitText s.ov ++ " FR=".toList ++ decimal s.rm.toNat]
    ++ (List.range 8).map (fun k => registerLine s (4 * k + 1))

/-- A word of memory as its four bytes in ascending address order (R352). -/
def wordText (s : State) (a : Nat) : Text := (s.mem.readBytes a 4).flatMap (fun b => hexFixed 2 b.toNat)

/-- A line of `V`: the four words from a multiple of 16 on, without those before `start` (R352). -/
def viewLine (s : State) (start row : Nat) : Text :=
  joinText [' '] (decimal row ::
    ([row, row + 4, row + 8, row + 12].filterMap (fun a => if start ≤ a then some (wordText s a) else none)))

/-- The lines of `V` (R352): the range divided by 4, rounded up, from the line that holds the start address. -/
def viewLines (s : State) (start n : Nat) : List Text :=
  (List.range ((n + 3) / 4)).map (fun k => viewLine s start (start / 16 * 16 + 16 * k))

/-! ## Running (R356) -/

/-- How `E` or `T` comes to an end. -/
inductive RunEnd where
  /-- The count of steps is exhausted. -/
  | paused (s : State)
  /-- `stop` was executed (46 R280). -/
  | stopped (s : State)
  /-- A breakpoint was reached; the instruction there has not executed (R351). -/
  | breakpoint (s : State)
  /-- An exception was raised (60 R296). -/
  | exception (s : State)
  /-- The step faulted, in this state (60 R302). -/
  | fault (f : Fault) (s : State)
  /-- The step was refused, in this state. -/
  | refused (r : Refusal) (s : State)
deriving DecidableEq, Repr

/-- At most `n` steps, ending early at `stop`, at an exception, at a fault, and with `breaks` at a breakpoint. -/
def runSteps (breaks : Bool) (n : Nat) (s : State) : RunEnd :=
  match n with
  | 0 => .paused s
  | n + 1 =>
    match step s with
    | .fault f => .fault f s
    | .refused r => .refused r s
    | .next t =>
      match t.run with
      | .stopped => .stopped t
      | .exception _ _ => .exception t
      | .running => if breaks && t.breakpoints.contains t.pc.toNat then .breakpoint t else runSteps breaks n t

/-- `E` within `n` steps: until a breakpoint or `stop` (R356). Whether a breakpoint at the current `pc` stops the run
at once is a free value (R351). -/
def runToEnd (n : Nat) (s : State) : RunEnd :=
  if s.breakpoints.contains s.pc.toNat && Config.stopsAtCurrentBreakpoint then .breakpoint s
  else runSteps true n s

/-- What is printed at the end of a run (R351, R356, R360); after an exception or a fault nothing is described. A fault
is terminal (60 R302): the session keeps it. -/
def runAnswer (cycles : Nat) (ses : Session) (e : RunEnd) : Answer :=
  match e with
  | .paused t => .shown (statusDisplay cycles t) { ses with machine := t }
  | .stopped t => .shown ("Fin ejecucion".toList :: statusDisplay cycles t) { ses with machine := t }
  | .breakpoint t =>
    .shown (("Alcanzado punto de ruptura, direccion ".toList ++ decimal t.pc.toNat) :: statusDisplay cycles t)
      { ses with machine := t }
  | .exception t => .undescribed { ses with machine := t }
  | .fault f t => .undescribed { ses with machine := t, fault := some f }
  | .refused _ t => .undescribed { ses with machine := t }

/-! ## The commands -/

/-- `R n v` (R353): general registers only; `r0` stays 0 (10 R21). -/
def hostSetRegister (s : State) (n v : Nat) : Option State :=
  if n < 32 && v < 2 ^ 32 then some (s.setReg (BitVec.ofNat 5 n) (BitVec.ofNat 32 v)) else none

/-- `I a v` (R353): `MemWrite(a, 4, v)` in the byte order of `CR.LE`. The program has not stored to these bytes
(20 R67). -/
def hostSetWord (s : State) (a v : Nat) : Option State :=
  if a % 4 == 0 && a + 4 ≤ memSize && v < 2 ^ 32 then
    some { s with mem := s.mem.writeBytes a (bytesOf s.le 4 (BitVec.ofNat 64 v)) }
  else none

/-- The machine with a breakpoint added (R351), at an address in memory. DESIGN CHOICE (log entry 32): an address that
is no multiple of 4 is accepted, and no run comes to it, since a breakpoint is compared with `pc`. -/
def hostAddBreakpoint (s : State) (a : Nat) : Option State :=
  if a < memSize then some { s with breakpoints := insertAddr s.breakpoints a } else none

/-- The machine without the breakpoint at an address in memory (R351, 93 U28). DESIGN CHOICE (log entry 32): where there
is none, nothing changes and the command is accepted. -/
def hostDropBreakpoint (s : State) (a : Nat) : Option State :=
  if a < memSize then some { s with breakpoints := s.breakpoints.filter (· != a) } else none

/-- Main memory is what the flat memory holds: the data cache is off or writes through (R352). -/
def flatMemoryIsCurrent (c : Config.Emulator) : Bool :=
  !c.dcache.enabled || c.dcachePolicy == .writeThrough

/-- `V` or `D` may show the bytes from `a` on up to before `last`. DESIGN CHOICE (log entry 32): the address is a
multiple of 4 and no byte shown lies outside memory. -/
def mayShow (a last : Nat) : Bool := a % 4 == 0 && a < memSize && decide (last ≤ memSize)

/-- A session with another machine. -/
def Session.put (ses : Session) (s : State) : Session := { ses with machine := s }

/-- A command carried out. `fuel` bounds the steps of `E`; `cycles` is the `Ciclo` that is displayed. -/
def runCommand (fuel cycles : Nat) (ses : Session) (c : Command) : Answer :=
  let s := ses.machine
  match c with
  | .help => .undescribed ses
  | .quit => .left
  | .listBreakpoints => .shown (s.breakpoints.map decimal) ses
  | .addBreakpoint a =>
    match hostAddBreakpoint s a with
    | some t => .shown [] (ses.put t)
    | none => .refused
  | .dropBreakpoint a =>
    match hostDropBreakpoint s a with
    | some t => .shown [] (ses.put t)
    | none => .refused
  | .view a n =>
    if mayShow a (a / 16 * 16 + 16 * ((n + 3) / 4)) then
      if flatMemoryIsCurrent s.cfg then .shown (viewLines s a n) ses else .undescribed ses
    else .refused
  | .viewCache a n =>
    if mayShow a (a / 16 * 16 + 16 * ((n + 3) / 4)) then .undescribed ses else .refused
  | .execute =>
    if ses.canRun then
      match runToEnd fuel s with
      | .paused t => .running (ses.put t)
      | e => runAnswer cycles ses e
    else .refused
  | .trace n =>
    if ses.canRun && s.cfg.mode = .serial then runAnswer cycles ses (runSteps false n s) else .refused
  | .registers =>
    if s.cfg.dcache.enabled || s.cfg.icache.enabled then .shownInPart (statusDisplay cycles s) ses
    else .shown (statusDisplay cycles s) ses
  | .setRegister n v =>
    match hostSetRegister s n v with
    | some t => .shown [] (ses.put t)
    | none => .refused
  | .setWord a v =>
    match hostSetWord s a v with
    | some t => .shown [] (ses.put t)
    | none => .refused
  | .disassemble a n =>
    if mayShow a (a + 4 * n) then .shown (disassembly ses.labels s a n) ses else .refused
  | .history => if s.cfg.mode = .superscalar then .undescribed ses else .refused
  | .statistics => .undescribed ses
  | .configuration => .undescribed ses

/-! ## Starting (R331, R358, 30 R116) -/

/-- The binary file of an invocation `mc88110 <binary file>` of the emulator (30 R116). -/
def readEmulatorInvocation (line : Text) : Option Text :=
  match wordsOf line with
  | [prog, file] => if prog = "mc88110".toList then some file else none
  | _ => none

/-- The emulator started with an image: the session, and the status display printed at start, with `Ciclo` 0 (R331,
R358). None where the image or the configuration is malformed. -/
def startSession (cfg : Config.Emulator) (m : Image) (free : Nat → Byte) : Option (List Text × Session) :=
  (loadImage cfg m free).map (fun s =>
    (statusDisplay 0 s, { machine := s, fault := none, labels := m.labels, last := none }))

/-! ## Reading a command line (R350) -/

/-- An address parameter: a number or a label (R350). -/
def readAddress (labels : List (Text × Nat)) (t : Text) : Option Nat :=
  match lookupName t labels with
  | some a => some a
  | none => readNumber t

/-- The words of a command line after the letter (R350 to R357), the letter in either case. -/
def readCommand (labels : List (Text × Nat)) (letter : Char) (args : List Text) : Option Command :=
  let addr := readAddress labels
  match letter.toUpper, args with
  | 'H', [] => some .help
  | 'Q', [] => some .quit
  | 'P', [] => some .listBreakpoints
  | 'P', [['+'], a] => (addr a).map .addBreakpoint
  | 'P', [['-'], a] => (addr a).map .dropBreakpoint
  | 'V', [a] => (addr a).map (.view · 20)
  | 'V', [a, n] =>
    if a = ['C'] || a = ['c'] then (addr n).map (.viewCache · 20)
    else (addr a).bind (fun a => (readNumber n).map (.view a))
  | 'V', [c, a, n] =>
    if c = ['C'] || c = ['c'] then (addr a).bind (fun a => (readNumber n).map (.viewCache a)) else none
  | 'E', [] => some .execute
  | 'T', [] => some (.trace 1)
  | 'T', [n] => (readNumber n).map .trace
  | 'R', [] => some .registers
  | 'R', [n, v] => (readNumber n).bind (fun n => (readNumber v).map (.setRegister n))
  | 'I', [a, v] => (addr a).bind (fun a => (readNumber v).map (.setWord a))
  | 'D', [a] => (addr a).map (.disassemble · 15)
  | 'D', [a, n] => (addr a).bind (fun a => (readNumber n).map (.disassemble a))
  | 'B', [] => some .history
  | 'S', [] => some .statistics
  | 'C', [] => some .configuration
  | _, _ => none

/-- A line typed at the prompt (R350); the empty line repeats the last command (R359). DESIGN CHOICE (log entry 32): it
is refused where no command is remembered. -/
def readLine (ses : Session) (line : Text) : Option Command :=
  match wordsOf line with
  | [] => ses.last
  | [c] :: args => readCommand ses.labels c args
  | _ => none

/-- The emulator's answer to a line. DESIGN CHOICE (log entry 32): a refused command is not remembered, so that an empty
line repeats the last one that was carried out. -/
def console (fuel cycles : Nat) (ses : Session) (line : Text) : Answer :=
  match readLine ses line with
  | none => .refused
  | some c => runCommand fuel cycles { ses with last := some c } c

end Sys2Proof.Machine
end

