-- ==== Sys2Proof/Safety.lean ====
section
/-! DEFINITION. The terms claims are stated in: what an instruction leaves unchanged, the facts of a mnemonic (its
access, its exceptions, its group) written from the spec's tables and not from the meanings, the invariant of the
machine, and correct rounding. -/

namespace Sys2Proof.Machine

/-! ## Frames -/

/-- Every general register reads as before, except those of `ds`. -/
def KeepsRegs (s t : State) (ds : List Reg) : Prop := ∀ r, r ∉ ds → t.reg r = s.reg r

/-- Every byte of memory reads as before, and the program has stored to no further byte. -/
def KeepsMemory (s t : State) : Prop := (∀ a, t.byteAt a = s.byteAt a) ∧ t.stored = s.stored

/-- What no instruction changes: the configuration and the breakpoints. -/
def KeepsHost (s t : State) : Prop := t.cfg = s.cfg ∧ t.breakpoints = s.breakpoints

/-- The instruction is complete and transfers no control (44 R221): `pc + 4`, or the target of a pending branch, which
is then no longer pending; the run goes on as it was; the instruction is counted. -/
def Advances (s t : State) : Prop :=
  t.pc = s.delay.getD (s.pc + 4#32) ∧ t.delay = none ∧ t.run = s.run ∧ t.totInst = s.totInst + 1 ∧ KeepsHost s t

/-- The control register is unchanged, and no free value was drawn. -/
def KeepsCr (s t : State) : Prop := t.cr = s.cr ∧ t.freeCount = s.freeCount

/-- `t` is `s` after an instruction that writes `v` to `rD` and nothing else; a write to `r0` is discarded (10 R21). -/
def WritesReg (s t : State) (d : Reg) (v : Word) : Prop :=
  t.reg d = (if d = 0#5 then 0#32 else v) ∧ KeepsRegs s t [d] ∧ KeepsCr s t ∧ KeepsMemory s t ∧ Advances s t

/-- The two registers of a pair hold a double word: the first the high word, the second the low word (10 R23). -/
def HoldsPair (t : State) (d : Reg) (v : DWord) : Prop :=
  (d ≠ 0#5 → t.reg d = v.extractLsb' 32 32) ∧ t.reg (d + 1#5) = v.extractLsb' 0 32

/-- `t` is `s` after an instruction that writes `v` to the pair at `rD` and nothing else. -/
def WritesPair (s t : State) (d : Reg) (v : DWord) : Prop :=
  HoldsPair t d v ∧ KeepsRegs s t [d, d + 1#5] ∧ KeepsCr s t ∧ KeepsMemory s t ∧ Advances s t

/-- `CR` bit `k` is `b` and every other bit of `CR` is as before. -/
def CrBitBecomes (s t : State) (k : Nat) (b : Bool) : Prop :=
  t.freeCount = s.freeCount ∧ ∀ j, t.cr.getLsbD j = if j = k then b else s.cr.getLsbD j

/-- `t` is `s` after an instruction that writes `v` to `rD` and, with `.co`, `c` to `CR.C` (41 R141, R142). -/
def WritesRegCarry (s t : State) (d : Reg) (v : Word) (o c : Bool) : Prop :=
  t.reg d = (if d = 0#5 then 0#32 else v) ∧ KeepsRegs s t [d] ∧ CrBitBecomes s t 28 (if o then c else s.carry)
    ∧ KeepsMemory s t ∧ Advances s t

/-- `t` is `s` after an integer condition recorded in `CR` bit `k` (60 R297): no register, no other bit of `CR`. -/
def OnlyRecords (s t : State) (k : Nat) : Prop :=
  KeepsRegs s t [] ∧ CrBitBecomes s t k true ∧ KeepsMemory s t ∧ Advances s t

/-- `t` is `s` after an exception was raised (60 R296): nothing but the run state has changed. -/
def Raises (s t : State) (c : Cause) : Prop := t = { s with run := .exception c s.pc }

/-- `t` is `s` after an instruction that stores `bs` at `ea` and writes no register: the bytes at `ea`, every other
byte as before, and exactly those addresses added to the stored ones (20 R53, R67). -/
def StoresBytes (s t : State) (ea : Nat) (bs : List Byte) : Prop :=
  (∀ k b, bs[k]? = some b → t.byteAt (ea + k) = b) ∧ (∀ a, a < ea ∨ ea + bs.length ≤ a → t.byteAt a = s.byteAt a)
    ∧ ∀ a, a ∈ t.stored ↔ a ∈ s.stored ∨ (ea ≤ a ∧ a < ea + bs.length)

/-- `t` is `s` after a store instruction: the bytes `bs` at `ea`, no register, no bit of `CR`. -/
def StoresOnly (s t : State) (ea : Nat) (bs : List Byte) : Prop :=
  StoresBytes s t ea bs ∧ KeepsRegs s t [] ∧ KeepsCr s t ∧ Advances s t

/-- The bytes of a half word from the least significant on. -/
def halfBytes (w : Word) : List Byte := [w.extractLsb' 0 8, w.extractLsb' 8 8]

/-- The bytes of a word from the least significant on. -/
def wordBytes (w : Word) : List Byte :=
  [w.extractLsb' 0 8, w.extractLsb' 8 8, w.extractLsb' 16 8, w.extractLsb' 24 8]

/-- Bytes given from the least significant on, as they stand in memory in the byte order of `CR.LE` (20 R53). -/
def inOrder (s : State) (bs : List Byte) : List Byte := if s.le then bs else bs.reverse

/-! ## Values in memory, in the byte order of `CR.LE` (20 R52) -/

/-- The half word at an address. -/
def halfAt (s : State) (a : Nat) : Half :=
  if s.le then s.byteAt (a + 1) ++ s.byteAt a else s.byteAt a ++ s.byteAt (a + 1)

/-- The word at an address. -/
def wordAt (s : State) (a : Nat) : Word :=
  if s.le then s.byteAt (a + 3) ++ s.byteAt (a + 2) ++ s.byteAt (a + 1) ++ s.byteAt a
  else s.byteAt a ++ s.byteAt (a + 1) ++ s.byteAt (a + 2) ++ s.byteAt (a + 3)

/-- The double word at an address, ordered as a whole. -/
def dwordAt (s : State) (a : Nat) : DWord :=
  if s.le then wordAt s (a + 4) ++ wordAt s a else wordAt s a ++ wordAt s (a + 4)

/-- Every byte of the access exists: none is above `0x3ffff` (20 R58). -/
def InRange (ea : Word) (n : Nat) : Prop := ea.toNat + n ≤ 262144

/-- The alignment an access needs: half words 2, words and double words 4 (20 R55). -/
def IsAligned (ea : Word) (n : Nat) : Prop := (n = 2 → ea.toNat % 2 = 0) ∧ (4 ≤ n → ea.toNat % 4 = 0)

/-- `t` is `s` after exactly `k` steps. -/
def Steps (k : Nat) (s t : State) : Prop :=
  match k with
  | 0 => s = t
  | k + 1 => ∃ u, step s = .next u ∧ Steps k u t

/-- `t` is `s` but for `CR.OV`, `CR.DZ` and the count of free values, after an instruction that writes no register. -/
def AllButConditionFlags (s t : State) : Prop :=
  KeepsRegs s t [] ∧ (∀ j, j ≠ 12 → j ≠ 13 → t.cr.getLsbD j = s.cr.getLsbD j) ∧ KeepsMemory s t ∧ Advances s t

/-- Bit `k` belongs to the bit field of width `w`, 0 standing for 32, and offset `o` (42 R170). -/
def InField (w o : BitVec 5) (k : Nat) : Prop := o.toNat ≤ k ∧ k < o.toNat + (if w = 0#5 then 32 else w.toNat)

/-- A branch to `target` from `pc` (44 R221): taken without `.n`, `pc` is the target; with `.n` the delay slot is next
and the branch is pending. The registers of `ds` may change. -/
def Branches (s t : State) (n : Bool) (target : Word) (ds : List Reg) : Prop :=
  t.pc = (if n then s.pc + 4#32 else target) ∧ t.delay = (if n then some target else none) ∧ t.run = s.run
    ∧ t.totInst = s.totInst + 1 ∧ KeepsRegs s t ds ∧ KeepsCr s t ∧ KeepsMemory s t ∧ KeepsHost s t

end Sys2Proof.Machine

namespace Sys2Proof

open Sys2Proof.Machine

/-! ## Facts of the instructions, from the spec's tables -/

/-- The group of the control-flow instructions (44). -/
def Instr.isControlFlow (i : Instr) : Bool :=
  match i with
  | .bb0 _ _ _ _ | .bb1 _ _ _ _ | .br _ _ | .bsr _ _ | .jmp _ _ | .jsr _ _ => true
  | _ => false

/-- The memory access of an instruction, its effective address and its width (20 R51, 45 R240). -/
def Instr.access (i : Instr) (s : State) : Option (Word × Nat) :=
  match i with
  | .lddImm _ s1 x => some (s.reg s1 + x.signExtend 32, 8)
  | .ldImm _ s1 x => some (s.reg s1 + x.signExtend 32, 4)
  | .ldhImm _ s1 x => some (s.reg s1 + x.signExtend 32, 2)
  | .ldbImm _ s1 x => some (s.reg s1 + x.signExtend 32, 1)
  | .ldhuImm _ s1 x => some (s.reg s1 + x.signExtend 32, 2)
  | .ldbuImm _ s1 x => some (s.reg s1 + x.signExtend 32, 1)
  | .lddReg _ s1 s2 => some (s.reg s1 + s.reg s2, 8)
  | .ldReg _ s1 s2 => some (s.reg s1 + s.reg s2, 4)
  | .ldhReg _ s1 s2 => some (s.reg s1 + s.reg s2, 2)
  | .ldbReg _ s1 s2 => some (s.reg s1 + s.reg s2, 1)
  | .ldhuReg _ s1 s2 => some (s.reg s1 + s.reg s2, 2)
  | .ldbuReg _ s1 s2 => some (s.reg s1 + s.reg s2, 1)
  | .stdImm _ s1 x => some (s.reg s1 + x.signExtend 32, 8)
  | .stImm _ s1 x => some (s.reg s1 + x.signExtend 32, 4)
  | .sthImm _ s1 x => some (s.reg s1 + x.signExtend 32, 2)
  | .stbImm _ s1 x => some (s.reg s1 + x.signExtend 32, 1)
  | .stdReg _ _ s1 s2 => some (s.reg s1 + s.reg s2, 8)
  | .stReg _ _ s1 s2 => some (s.reg s1 + s.reg s2, 4)
  | .sthReg _ _ s1 s2 => some (s.reg s1 + s.reg s2, 2)
  | .stbReg _ _ s1 s2 => some (s.reg s1 + s.reg s2, 1)
  | .xmem _ s1 s2 => some (s.reg s1 + s.reg s2, 4)
  | _ => none

/-- The instructions that write memory (45 R254 to R261, R264). -/
def Instr.isStore (i : Instr) : Bool :=
  match i with
  | .stdImm _ _ _ | .stImm _ _ _ | .sthImm _ _ _ | .stbImm _ _ _ => true
  | .stdReg _ _ _ _ | .stReg _ _ _ _ | .sthReg _ _ _ _ | .stbReg _ _ _ _ | .xmem _ _ _ => true
  | _ => false

/-- The exceptions an instruction can cause (60 R291). -/
def Instr.causes (i : Instr) : List Cause :=
  match i with
  | .addImm _ _ _ | .addReg _ _ _ _ _ | .subImm _ _ _ | .subReg _ _ _ _ _ | .mulsReg _ _ _ => [.integerOverflow]
  | .divsImm _ _ _ | .divsReg _ _ _ => [.integerDivideByZero, .integerOverflow]
  | .divuImm _ _ _ | .divuReg _ _ _ _ => [.integerDivideByZero]
  | .fadd _ _ _ _ _ _ | .fsub _ _ _ _ _ _ | .fmul _ _ _ _ _ _ => [.fpReservedOperand, .fpOverflow, .fpUnderflow]
  | .fdiv _ _ _ _ _ _ => [.fpReservedOperand, .fpDivideByZero, .fpOverflow, .fpUnderflow]
  | .fcmp _ _ _ _ _ => [.fpReservedOperand]
  | .fcvt _ _ _ _ => [.fpReservedOperand, .fpOverflow, .fpUnderflow]
  | .fint _ _ _ => [.fpReservedOperand, .fpOverflow]
  | _ => []

/-- The instructions that write `CR.C` (10 R29): `.co` and `.cio` of `add`, `addu`, `sub`, `subu`, and `stcr`. -/
def Instr.writesCarry (i : Instr) : Bool :=
  match i with
  | .addReg _ o _ _ _ | .adduReg _ o _ _ _ | .subReg _ o _ _ _ | .subuReg _ o _ _ _ => o
  | .stcr _ => true
  | _ => false

/-- The exact signed result of an instruction that detects overflow (41 R143): over the integers, with the carry or the
borrow in; of `divs` for a divisor that is not 0 (41 R159, R164). -/
def Instr.signedResult (i : Instr) (s : State) : Option Int :=
  match i with
  | .addImm _ s1 x => some ((s.reg s1).toInt + x.toInt)
  | .addReg c _ _ s1 s2 => some ((s.reg s1).toInt + (s.reg s2).toInt + if c && s.carry then 1 else 0)
  | .subImm _ s1 x => some ((s.reg s1).toInt - x.toInt)
  | .subReg c _ _ s1 s2 => some ((s.reg s1).toInt - (s.reg s2).toInt - if c && s.carry then 1 else 0)
  | .mulsReg _ s1 s2 => some ((s.reg s1).toInt * (s.reg s2).toInt)
  | .divsImm _ s1 x => if x = 0#16 then none else some ((s.reg s1).toInt.tdiv x.toInt)
  | .divsReg _ s1 s2 => if s.reg s2 = 0#32 then none else some ((s.reg s1).toInt.tdiv (s.reg s2).toInt)
  | _ => none

/-- The divisor of an integer division (41 R159 to R162). -/
def Instr.divisor (i : Instr) (s : State) : Option Word :=
  match i with
  | .divsImm _ _ x => some (x.signExtend 32)
  | .divuImm _ _ x => some (x.setWidth 32)
  | .divsReg _ _ s2 => some (s.reg s2)
  | .divuReg _ _ _ s2 => some (s.reg s2)
  | _ => none

/-- The instruction is `stcr`. -/
def Instr.isStcr (i : Instr) : Bool :=
  match i with
  | .stcr _ => true
  | _ => false

end Sys2Proof

namespace Sys2Proof.Machine

/-! ## The invariant -/

/-- What every step keeps: `r0` is stored as 0 (10 R21); `pc` and a pending target are multiples of 4 (10 R25); memory
is in canonical form and within its 2^18 bytes (20 R50), as is the record of stored bytes; the byte order is that of
the load (20 R57). -/
structure Inv (s : State) : Prop where
  zero : s.regs[0] = 0#32
  pc : s.pc.toNat % 4 = 0
  delay : ∀ t, s.delay = some t → t.toNat % 4 = 0
  mem : s.mem.wf
  memRange : ∀ c ∈ s.mem, c.1 < 262144
  stored : s.stored.Pairwise (· < ·)
  storedRange : ∀ a ∈ s.stored, a < 262144
  order : s.le = s.cfg.littleEndian

/-! ## Rounding (43 R190, R192) -/

/-- The bits are a zero or a normal number: no reserved operand (43 R193). -/
def FpBits.isNumber (b : FpBits) : Prop := b.classify.reserved = false

/-- The exact value the bits stand for (43 R190). -/
def FpBits.value (b : FpBits) : ℚ := b.classify.value

/-- The bits of the operand named by register `r` (43 R191): a register, or a pair with the high word first. -/
def operandBits (s : State) (p : Prec) (r : Reg) : FpBits :=
  match p with
  | .single => .single (s.reg r)
  | .double => .double (s.reg r ++ s.reg (r + 1#5))

/-- The bits of a zero (43 R190). -/
def zeroBits (p : Prec) (neg : Bool) : FpBits :=
  match p with
  | .single => .single (if neg then 0x80000000#32 else 0#32)
  | .double => .double (if neg then 0x8000000000000000#64 else 0#64)

/-- The bits are a NaN (43 R190). -/
def FpBits.isNaN (b : FpBits) : Prop := b.classify = .nan

/-- The value of an operand of `fcmp`, infinities included (43 R196); a NaN has none. -/
def FpBits.extended (b : FpBits) : WithBot (WithTop ℚ) :=
  match b.classify with
  | .infinity true => ⊥
  | .infinity false => ((⊤ : WithTop ℚ) : WithBot (WithTop ℚ))
  | c => ((c.value : WithTop ℚ) : WithBot (WithTop ℚ))

/-- `x` rounded to precision `p` in mode `rm` is `b` (43 R192): no number of the format is nearer, or, in the directed
modes, none lies between; at a tie of the nearest mode the last bit of the fraction is 0. -/
def CorrectlyRounded (p : Prec) (rm : BitVec 2) (x : ℚ) (b : FpBits) : Prop :=
  b.prec = p ∧ b.isNumber ∧
    (rm = 0b00#2 → ∀ c : FpBits, c.prec = p → c.isNumber →
      |x - b.value| ≤ |x - c.value| ∧
        (|x - b.value| = |x - c.value| → c.value ≠ b.value → b.fracField % 2 = 0)) ∧
    (rm = 0b01#2 → |b.value| ≤ |x| ∧ 0 ≤ b.value * x ∧
      ∀ c : FpBits, c.prec = p → c.isNumber → |c.value| ≤ |x| → |c.value| ≤ |b.value|) ∧
    (rm = 0b10#2 → b.value ≤ x ∧ ∀ c : FpBits, c.prec = p → c.isNumber → c.value ≤ x → c.value ≤ b.value) ∧
    (rm = 0b11#2 → x ≤ b.value ∧ ∀ c : FpBits, c.prec = p → c.isNumber → x ≤ c.value → b.value ≤ c.value)

/-- The smallest normal magnitude of a format: 2^-126 or 2^-1022 (43 R193). -/
def minNormal (p : Prec) : ℚ :=
  match p with
  | .single => 1 / 2 ^ 126
  | .double => 1 / 2 ^ 1022

/-- The largest finite magnitude of a format. -/
def maxFinite (p : Prec) : ℚ :=
  match p with
  | .single => (2 ^ 24 - 1) * 2 ^ 104
  | .double => (2 ^ 53 - 1) * 2 ^ 971

/-- The least power of two above every finite magnitude of a format. -/
def aboveFinite (p : Prec) : ℚ :=
  match p with
  | .single => 2 ^ 128
  | .double => 2 ^ 1024

/-- `x` rounded to precision `p` in mode `rm`, as if exponents were unbounded, is above the largest finite magnitude (43
R193): a tie of the nearest mode goes up, the last bit of the largest fraction being 1. -/
def RoundsAbove (p : Prec) (rm : BitVec 2) (x : ℚ) : Prop :=
  maxFinite p < |x| ∧ (rm = 0b00#2 → (maxFinite p + aboveFinite p) / 2 ≤ |x|) ∧ (rm = 0b01#2 → aboveFinite p ≤ |x|) ∧
    (rm = 0b10#2 → x < 0 ∨ aboveFinite p ≤ |x|) ∧ (rm = 0b11#2 → 0 < x ∨ aboveFinite p ≤ |x|)

/-- `n` is `x` rounded to an integer in mode `rm` (43 R202): the nearest with ties to even, toward zero, toward minus or
plus infinity. -/
def RoundsToInt (rm : BitVec 2) (x : ℚ) (n : Int) : Prop :=
  (rm = 0b00#2 → |x - n| ≤ 1 / 2 ∧ (|x - n| = 1 / 2 → n % 2 = 0)) ∧
    (rm = 0b01#2 → |(n : ℚ)| ≤ |x| ∧ |x| < |(n : ℚ)| + 1 ∧ 0 ≤ n * x) ∧
    (rm = 0b10#2 → (n : ℚ) ≤ x ∧ x < n + 1) ∧ (rm = 0b11#2 → (n : ℚ) - 1 < x ∧ x ≤ n)

/-- Instruction `i` meets floating-point condition `c` in `s` (43 R193): with `CR.EI = 0` the exception is raised (60
R296), with `CR.EI = 1` the case is the fault `UnspecifiedFloatingPoint` (60 R298). -/
def Signals (i : Instr) (s : State) (c : Cause) : Prop :=
  (s.ei = false → ∃ t, exec i s = .next t ∧ Raises s t c) ∧
    (s.ei = true → exec i s = .fault (.unspecifiedFloatingPoint s.pc c))

/-- `t` is `s` after an instruction that writes a floating-point result to `rD`, or to `rD` and `rD+1` (43 R191). -/
def WritesFp (s t : State) (d : Reg) (b : FpBits) : Prop :=
  match b with
  | .single w => WritesReg s t d w
  | .double w => WritesPair s t d w

end Sys2Proof.Machine
end

