-- ==== Sys2Proof/Certificates/Slice0/Obligations.lean ====
section
/-! DEFINITION. The statements for the provers. A statement that formalises a numbered rule of the spec quotes it in
`OBLIGATIONS.json`. The other ones rest on a decision `D<n>` of spec 92 or on a choice of the model: their docstrings
name it, with the log entry. -/

open Sys2Proof Sys2Proof.Machine

/-! ## Encoding (spec 30) -/

/-- Decoding an encoded instruction gives it back, with every field at every value (30 R84 to R92). -/
def Obligations.DecodeOfEncode : Prop := ∀ i : Instr, decode (encode i) = some i

/-- A word that decodes is the encoding of what it decodes to: no instruction has two words (30 R99). -/
def Obligations.EncodeOfDecode : Prop := ∀ (w : Word) (i : Instr), decode w = some i → encode i = w

/-- The opcode table has 74 rows and no word matches two of them (30 R99). -/
def Obligations.AtMostOneRow : Prop :=
  (rows ldstRegMajor).length = 74 ∧ ∀ w : Word, ((rows ldstRegMajor).filter (fun r => r.hits w)).length ≤ 1

/-- Words that are no instruction: an unused major opcode (30 R95), major opcode `111111` but for `stop`, a precision
field `10` or `11` (30 R88, 43 R194), bits 9:5 of `rot` that are not zero (42 R181). -/
def Obligations.NotInstructions : Prop :=
  ∀ w : Word,
    (w.extractLsb' 26 6 ∈ [0b000000#6, 0b000001#6, 0b001100#6, 0b001101#6, 0b001110#6, 0b001111#6, 0b100010#6,
        0b100011#6, 0b100100#6, 0b100101#6, 0b100110#6, 0b100111#6, 0b101000#6, 0b101001#6, 0b101010#6, 0b101011#6,
        0b101100#6, 0b101101#6, 0b101110#6, 0b101111#6, 0b111000#6, 0b111001#6, 0b111010#6, 0b111011#6, 0b111110#6] →
      decode w = none) ∧
    (w.extractLsb' 26 6 = 0b111111#6 → w ≠ 0xFFFFFFFF#32 → decode w = none) ∧
    (w.extractLsb' 26 6 = 0b100001#6 → (w.getLsbD 10 || w.getLsbD 8 || w.getLsbD 6) = true → decode w = none) ∧
    (w.extractLsb' 26 6 = 0b111100#6 → w.extractLsb' 10 6 = 0b101010#6 → w.extractLsb' 5 5 ≠ 0#5 → decode w = none)

/-- Words of the spec's examples decode to the instructions they stand for. Those of `ld` and `st` with a register rest
on the major opcode `111100`, the spec's decision D17 (log entry 19). -/
def Obligations.DecodedWords : Prop :=
  decode 0x5A8003E8#32 = some (.orImm false 20#5 0#5 1000#16) ∧
  decode 0xF54A500A#32 = some (.xorReg false 10#5 10#5 10#5) ∧
  decode 0xF54A610B#32 = some (.adduReg false true 10#5 10#5 11#5) ∧
  decode 0x7C85FFFF#32 = some (.cmpImm 4#5 5#5 0xFFFF#16) ∧
  decode 0xF06180B0#32 = some (.clrBit 3#5 1#5 5#5 16#5) ∧
  decode 0x854F28B3#32 = some (.fadd .single .double .double 10#5 15#5 19#5) ∧
  decode 0xD884FFF9#32 = some (.bb1 false 4#5 4#5 0xFFF9#16) ∧
  decode 0xC0000002#32 = some (.br false 2#26) ∧
  decode 0xF0A01414#32 = some (.ldReg 5#5 0#5 20#5) ∧
  decode 0xF1402416#32 = some (.stReg false 10#5 0#5 22#5) ∧
  decode 0x80800000#32 = some (.ldcr 4#5) ∧
  decode 0xFFFFFFFF#32 = some .stop ∧
  decode 0x00000000#32 = none

/-! ## The step (spec 44 R221) -/

/-- When the word at `pc`, in the byte order of `CR.LE`, decodes to `i`, and `pc` is a multiple of 4 in memory whose
four bytes the program has not stored to, one step is `i` executed in that state. The meaning itself moves `pc` (see
`Sequencing`). That a fetch uses the byte order of `CR.LE` is the spec's decision D18 (20 R57, log entry 10). -/
def Obligations.StepRunsDecoded : Prop :=
  ∀ (s : State) (i : Instr), s.run = .running → InRange s.pc 4 → IsAligned s.pc 4 →
    (∀ a ∈ s.stored, a < s.pc.toNat ∨ s.pc.toNat + 4 ≤ a) → decode (wordAt s s.pc.toNat) = some i →
    step s = exec i s

/-- Where a step stops before it executes anything. The faults of a fetch are the spec's decisions D3, D6 and D19 (log
entries 4, 6, 11). The terminal states are its decisions D15 and D24 (log entries 12, 13). That the range of a fetch is
checked before its alignment is the model's (log entry 5). -/
def Obligations.StepStops : Prop :=
  ∀ s : State,
    (s.run = .stopped → step s = .fault .machineStopped) ∧
    (∀ c p, s.run = .exception c p → step s = .fault (.machineInException c p)) ∧
    (s.run = .running → ¬ InRange s.pc 4 → step s = .fault (.addressOutOfRange s.pc s.pc)) ∧
    (s.run = .running → InRange s.pc 4 → ¬ IsAligned s.pc 4 → step s = .fault (.misaligned s.pc s.pc 4)) ∧
    (s.run = .running → InRange s.pc 4 → IsAligned s.pc 4 →
      (∃ a ∈ s.stored, s.pc.toNat ≤ a ∧ a < s.pc.toNat + 4) → step s = .fault (.fetchAfterStore s.pc)) ∧
    (s.run = .running → InRange s.pc 4 → IsAligned s.pc 4 →
      (∀ a ∈ s.stored, a < s.pc.toNat ∨ s.pc.toNat + 4 ≤ a) → decode (wordAt s s.pc.toNat) = none →
      step s = .fault (.illegalInstruction s.pc (wordAt s s.pc.toNat)))

/-- An instruction after which the machine still runs has moved `pc`: one that transfers no control goes to `pc + 4` or
to the target of the pending branch, which is then no longer pending; a control-flow instruction is executed with no
branch pending, and leaves one pending only with its delay slot next. Every instruction counts once (44 R221; what the
spec decides there is D16, log entry 7). -/
def Obligations.Sequencing : Prop :=
  ∀ (i : Instr) (s t : State), s.run = .running → exec i s = .next t → t.run = .running →
    t.totInst = s.totInst + 1 ∧
    (i.isControlFlow = false → t.pc = s.delay.getD (s.pc + 4#32) ∧ t.delay = none) ∧
    (i.isControlFlow = true → s.delay = none ∧ (t.delay = none ∨ t.pc = s.pc + 4#32))

/-! ## Logical instructions (spec 40) -/

/-- The immediate forms of `and`, `xor`, `mask`, `or`: their encodings and what they write (40 R131, R133, R135,
R136). -/
def Obligations.LogicalImmediate : Prop :=
  ∀ (u : Bool) (d s1 : Reg) (imm : Half) (s : State),
    let hi := (s.reg s1).extractLsb' 16 16
    let lo := (s.reg s1).extractLsb' 0 16
    (decode (0b01000#5 ++ BitVec.ofBool u ++ d ++ s1 ++ imm) = some (.andImm u d s1 imm) ∧
      ∃ t, exec (.andImm u d s1 imm) s = .next t ∧
        WritesReg s t d (if u then (hi &&& imm) ++ lo else hi ++ (lo &&& imm))) ∧
    (decode (0b01010#5 ++ BitVec.ofBool u ++ d ++ s1 ++ imm) = some (.xorImm u d s1 imm) ∧
      ∃ t, exec (.xorImm u d s1 imm) s = .next t ∧
        WritesReg s t d (if u then (hi ^^^ imm) ++ lo else hi ++ (lo ^^^ imm))) ∧
    (decode (0b01001#5 ++ BitVec.ofBool u ++ d ++ s1 ++ imm) = some (.maskImm u d s1 imm) ∧
      ∃ t, exec (.maskImm u d s1 imm) s = .next t ∧
        WritesReg s t d (if u then (hi &&& imm) ++ 0#16 else 0#16 ++ (lo &&& imm))) ∧
    (decode (0b01011#5 ++ BitVec.ofBool u ++ d ++ s1 ++ imm) = some (.orImm u d s1 imm) ∧
      ∃ t, exec (.orImm u d s1 imm) s = .next t ∧
        WritesReg s t d (if u then (hi ||| imm) ++ lo else hi ++ (lo ||| imm)))

/-- The register forms of `and`, `xor`, `or`: their encodings and what they write, with `.c` the second operand
complemented (40 R132, R134, R137). -/
def Obligations.LogicalRegister : Prop :=
  ∀ (c : Bool) (d s1 s2 : Reg) (s : State),
    let b := if c then ~~~(s.reg s2) else s.reg s2
    (decode (0b111101#6 ++ d ++ s1 ++ 0b01000#5 ++ BitVec.ofBool c ++ 0#5 ++ s2) = some (.andReg c d s1 s2) ∧
      ∃ t, exec (.andReg c d s1 s2) s = .next t ∧ WritesReg s t d (s.reg s1 &&& b)) ∧
    (decode (0b111101#6 ++ d ++ s1 ++ 0b01010#5 ++ BitVec.ofBool c ++ 0#5 ++ s2) = some (.xorReg c d s1 s2) ∧
      ∃ t, exec (.xorReg c d s1 s2) s = .next t ∧ WritesReg s t d (s.reg s1 ^^^ b)) ∧
    (decode (0b111101#6 ++ d ++ s1 ++ 0b01011#5 ++ BitVec.ofBool c ++ 0#5 ++ s2) = some (.orReg c d s1 s2) ∧
      ∃ t, exec (.orReg c d s1 s2) s = .next t ∧ WritesReg s t d (s.reg s1 ||| b))

/-! ## Integer arithmetic (spec 41) -/

/-- The immediate forms of `addu`, `subu`, `mulu`: modulo 2^32, with the zero-extended immediate, no flag and no
exception (41 R148, R152, R157). -/
def Obligations.UnsignedImmediate : Prop :=
  ∀ (d s1 : Reg) (imm : Half) (s : State),
    (decode (0b011000#6 ++ d ++ s1 ++ imm) = some (.adduImm d s1 imm) ∧
      ∃ t, exec (.adduImm d s1 imm) s = .next t ∧ WritesReg s t d (s.reg s1 + imm.setWidth 32)) ∧
    (decode (0b011001#6 ++ d ++ s1 ++ imm) = some (.subuImm d s1 imm) ∧
      ∃ t, exec (.subuImm d s1 imm) s = .next t ∧ WritesReg s t d (s.reg s1 - imm.setWidth 32)) ∧
    (decode (0b011011#6 ++ d ++ s1 ++ imm) = some (.muluImm d s1 imm) ∧
      ∃ t, exec (.muluImm d s1 imm) s = .next t ∧ WritesReg s t d (s.reg s1 * imm.setWidth 32))

/-- The register forms of `addu`: the sum with the carry in, the carry out in `CR.C` with `.co` (41 R149). -/
def Obligations.AdduRegister : Prop :=
  ∀ (i o : Bool) (d s1 s2 : Reg) (s : State),
    let sum := (s.reg s1).toNat + (s.reg s2).toNat + (if i && s.carry then 1 else 0)
    decode (0b111101#6 ++ d ++ s1 ++ 0b011000#6 ++ BitVec.ofBool i ++ BitVec.ofBool o ++ 0#3 ++ s2)
      = some (.adduReg i o d s1 s2) ∧
    ∃ t, exec (.adduReg i o d s1 s2) s = .next t ∧
      WritesRegCarry s t d (BitVec.ofNat 32 sum) o (sum.testBit 32)

/-- The register forms of `subu`: the difference with the borrow in, the borrow out in `CR.C` with `.co` (41 R153).
The borrow is the spec's decision D9 (log entry 16). -/
def Obligations.SubuRegister : Prop :=
  ∀ (i o : Bool) (d s1 s2 : Reg) (s : State),
    let dif : Int := (s.reg s1).toNat - (s.reg s2).toNat - (if i && s.carry then 1 else 0)
    ∃ t, exec (.subuReg i o d s1 s2) s = .next t ∧
      WritesRegCarry s t d (BitVec.ofInt 32 dif) o (decide (dif < 0))

/-- `add` and `sub` without overflow: the register holds the exact signed result, and with `.co` `CR.C` the carry out
or the borrow (41 R146, R147, R150, R151). The carry of an addition and the borrow are the spec's decisions D10 and D9
(log entry 16). -/
def Obligations.SignedSumFits : Prop :=
  ∀ (i o : Bool) (d s1 s2 : Reg) (imm : Half) (s : State),
    let a := s.reg s1
    let c : Nat := if i && s.carry then 1 else 0
    let fits : Int → Prop := fun z => -2147483648 ≤ z ∧ z ≤ 2147483647
    (fits (a.toInt + imm.toInt) →
      ∃ t, exec (.addImm d s1 imm) s = .next t ∧ WritesReg s t d (BitVec.ofInt 32 (a.toInt + imm.toInt))) ∧
    (fits (a.toInt - imm.toInt) →
      ∃ t, exec (.subImm d s1 imm) s = .next t ∧ WritesReg s t d (BitVec.ofInt 32 (a.toInt - imm.toInt))) ∧
    (fits (a.toInt + (s.reg s2).toInt + c) →
      ∃ t, exec (.addReg i o d s1 s2) s = .next t ∧
        WritesRegCarry s t d (BitVec.ofInt 32 (a.toInt + (s.reg s2).toInt + c)) o
          ((a.toNat + (s.reg s2).toNat + c).testBit 32)) ∧
    (fits (a.toInt - (s.reg s2).toInt - c) →
      ∃ t, exec (.subReg i o d s1 s2) s = .next t ∧
        WritesRegCarry s t d (BitVec.ofInt 32 (a.toInt - (s.reg s2).toInt - c)) o
          (decide ((a.toNat : Int) - (s.reg s2).toNat - c < 0)))

/-- The string `cmp` writes (41 R163): each of the 14 conditions, every other bit 0. That bytes and half words are
compared in the same position is the spec's decision D31 (log entry 24). -/
def Obligations.CompareString : Prop :=
  ∀ (i : Instr) (d s1 s2 : Reg) (imm : Half) (b : Word) (s : State),
    (i = .cmpImm d s1 imm ∧ b = imm.signExtend 32 ∨ i = .cmpReg d s1 s2 ∧ b = s.reg s2) →
    let a := s.reg s1
    let byte : Word → Nat → Byte := fun w k => w.extractLsb' (8 * k) 8
    ∃ t v, exec i s = .next t ∧ WritesReg s t d v ∧
      (v.getLsbD 2 = true ↔ a = b) ∧ (v.getLsbD 3 = true ↔ a ≠ b) ∧
      (v.getLsbD 4 = true ↔ b.toInt < a.toInt) ∧ (v.getLsbD 5 = true ↔ a.toInt ≤ b.toInt) ∧
      (v.getLsbD 6 = true ↔ a.toInt < b.toInt) ∧ (v.getLsbD 7 = true ↔ b.toInt ≤ a.toInt) ∧
      (v.getLsbD 8 = true ↔ b.toNat < a.toNat) ∧ (v.getLsbD 9 = true ↔ a.toNat ≤ b.toNat) ∧
      (v.getLsbD 10 = true ↔ a.toNat < b.toNat) ∧ (v.getLsbD 11 = true ↔ b.toNat ≤ a.toNat) ∧
      (v.getLsbD 12 = true ↔ ∃ k, k < 4 ∧ byte a k = byte b k) ∧
      (v.getLsbD 13 = true ↔ ∀ k, k < 4 → byte a k ≠ byte b k) ∧
      (v.getLsbD 14 = true ↔
        a.extractLsb' 0 16 = b.extractLsb' 0 16 ∨ a.extractLsb' 16 16 = b.extractLsb' 16 16) ∧
      (v.getLsbD 15 = true ↔
        a.extractLsb' 0 16 ≠ b.extractLsb' 0 16 ∧ a.extractLsb' 16 16 ≠ b.extractLsb' 16 16) ∧
      ∀ k, (k < 2 ∨ 16 ≤ k) → v.getLsbD k = false

/-- `muls` without overflow and the three forms of `mulu`: the exact product, its low word, or with `.d` all 64 bits in
a pair (41 R156, R158). The order of the pair is the spec's decision D28 (log entry 20). -/
def Obligations.Products : Prop :=
  ∀ (d s1 s2 : Reg) (s : State),
    let p := (s.reg s1).toInt * (s.reg s2).toInt
    (-2147483648 ≤ p ∧ p ≤ 2147483647 →
      ∃ t, exec (.mulsReg d s1 s2) s = .next t ∧ WritesReg s t d (BitVec.ofInt 32 p)) ∧
    (∃ t, exec (.muluReg false d s1 s2) s = .next t ∧ WritesReg s t d (s.reg s1 * s.reg s2)) ∧
    (d ≠ 31#5 → ∃ t v, exec (.muluReg true d s1 s2) s = .next t ∧ WritesPair s t d v ∧
      v.toNat = (s.reg s1).toNat * (s.reg s2).toNat)

/-- `divs` by a divisor that is not 0, unless the quotient is 2^31: the quotient `q` with `a = q * b + r`, `|r| < |b|`
and `r` of the sign of `a` (41 R159, R160). Truncation is the spec's decision D11 (log entry 17). -/
def Obligations.SignedQuotient : Prop :=
  ∀ (i : Instr) (d s1 s2 : Reg) (imm : Half) (b : Word) (s : State),
    (i = .divsImm d s1 imm ∧ b = imm.signExtend 32 ∨ i = .divsReg d s1 s2 ∧ b = s.reg s2) →
    b ≠ 0#32 → ¬ (s.reg s1 = 0x80000000#32 ∧ b = 0xFFFFFFFF#32) →
    ∃ t v r, exec i s = .next t ∧ WritesReg s t d v ∧
      (s.reg s1).toInt = v.toInt * b.toInt + r ∧ |r| < |b.toInt| ∧ 0 ≤ r * (s.reg s1).toInt

/-- `divu` by a divisor that is not 0, in its three forms: the quotient `q` with `a = q * b + r` and `r < b` (41 R161,
R162). The order of the pairs of `.d` is the spec's decision D28 (log entry 20). -/
def Obligations.UnsignedQuotient : Prop :=
  ∀ (i : Instr) (d s1 s2 : Reg) (imm : Half) (b : Word) (s : State),
    b ≠ 0#32 →
    ((i = .divuImm d s1 imm ∧ b = imm.setWidth 32 ∨ i = .divuReg false d s1 s2 ∧ b = s.reg s2) →
      ∃ t v r, exec i s = .next t ∧ WritesReg s t d v ∧
        (s.reg s1).toNat = v.toNat * b.toNat + r ∧ r < b.toNat) ∧
    (i = .divuReg true d s1 s2 → b = s.reg s2 → d ≠ 31#5 → s1 ≠ 31#5 →
      ∃ t v r, exec i s = .next t ∧ WritesPair s t d v ∧
        (s.reg s1 ++ s.reg (s1 + 1#5)).toNat = v.toNat * b.toNat + r ∧ r < b.toNat)

/-- An integer overflow (41 R143): with exceptions inhibited, in serial mode, `CR.OV` becomes 1 and nothing is written;
with exceptions enabled the exception is raised and nothing is written. What an inhibited overflow leaves is the spec's
decision D8, what raising does its decision D15 (log entries 15, 12). -/
def Obligations.OverflowDetected : Prop :=
  ∀ (i : Instr) (s : State) (z : Int), i.signedResult s = some z → (z < -2147483648 ∨ 2147483647 < z) →
    (s.ei = true → s.cfg.mode = .serial → ∃ t, exec i s = .next t ∧ OnlyRecords s t 12) ∧
    (s.ei = false → ∃ t, exec i s = .next t ∧ Raises s t .integerOverflow)

/-- An integer division by zero (41 R144), whatever the dividend: with exceptions inhibited, in serial mode, `CR.DZ`
becomes 1 and nothing is written; with exceptions enabled the exception is raised and nothing is written. What raising
does is the spec's decision D15 (log entry 12). -/
def Obligations.DivideByZeroDetected : Prop :=
  ∀ (i : Instr) (s : State), i.divisor s = some 0#32 → i.wellFormed = true →
    (s.ei = true → s.cfg.mode = .serial → ∃ t, exec i s = .next t ∧ OnlyRecords s t 13) ∧
    (s.ei = false → ∃ t, exec i s = .next t ∧ Raises s t .integerDivideByZero)

/-- In superscalar mode an inhibited integer condition leaves everything but `CR.OV` and `CR.DZ` as before; these two
are free values (10 R35, the spec's decision D20, log entry 27). -/
def Obligations.SuperscalarConditions : Prop :=
  ∀ (i : Instr) (s : State), i.wellFormed = true → s.ei = true → s.cfg.mode = .superscalar →
    ((∃ z, i.signedResult s = some z ∧ (z < -2147483648 ∨ 2147483647 < z)) ∨ i.divisor s = some 0#32) →
    ∃ t, exec i s = .next t ∧ AllButConditionFlags s t

/-! ## Bit fields (spec 42) -/

/-- `clr` and `set` in both forms: bit by bit, 0 or 1 in the field and the source elsewhere (42 R171 to R174). A field
cut at bit 31 is the spec's decision D21 (log entry 25). -/
def Obligations.ClearAndSetField : Prop :=
  ∀ (i : Instr) (one : Bool) (d s1 s2 : Reg) (w o : BitVec 5) (s : State),
    (i = (if one then .setBit d s1 w o else .clrBit d s1 w o) ∨
      i = (if one then .setReg d s1 s2 else .clrReg d s1 s2) ∧
        w = (s.reg s2).extractLsb' 5 5 ∧ o = (s.reg s2).extractLsb' 0 5) →
    ∃ t v, exec i s = .next t ∧ WritesReg s t d v ∧
      ∀ k, k < 32 → (InField w o k → v.getLsbD k = one) ∧ (¬ InField w o k → v.getLsbD k = (s.reg s1).getLsbD k)

/-- `ext` and `extu` in both forms: bit by bit, the field moved down to bit 0, above it the field's top bit or 0 (42
R175 to R178). A field cut at bit 31 is the spec's decision D21 (log entry 25). -/
def Obligations.ExtractField : Prop :=
  ∀ (i : Instr) (signed : Bool) (d s1 s2 : Reg) (w o : BitVec 5) (s : State),
    (i = (if signed then .extBit d s1 w o else .extuBit d s1 w o) ∨
      i = (if signed then .extReg d s1 s2 else .extuReg d s1 s2) ∧
        w = (s.reg s2).extractLsb' 5 5 ∧ o = (s.reg s2).extractLsb' 0 5) →
    let top := min (o.toNat + (if w = 0#5 then 32 else w.toNat) - 1) 31
    ∃ t v, exec i s = .next t ∧ WritesReg s t d v ∧
      ∀ k, k < 32 →
        (o.toNat + k ≤ top → v.getLsbD k = (s.reg s1).getLsbD (o.toNat + k)) ∧
        (top < o.toNat + k → v.getLsbD k = (signed && (s.reg s1).getLsbD top))

/-- `mak` in both forms: bit by bit, the low bits of the source moved up to the field, 0 elsewhere (42 R179, R180). A
field cut at bit 31 is the spec's decision D21 (log entry 25). -/
def Obligations.MakeField : Prop :=
  ∀ (i : Instr) (d s1 s2 : Reg) (w o : BitVec 5) (s : State),
    (i = .makBit d s1 w o ∨
      i = .makReg d s1 s2 ∧ w = (s.reg s2).extractLsb' 5 5 ∧ o = (s.reg s2).extractLsb' 0 5) →
    ∃ t v, exec i s = .next t ∧ WritesReg s t d v ∧
      ∀ k, k < 32 → (InField w o k → v.getLsbD k = (s.reg s1).getLsbD (k - o.toNat)) ∧
        (¬ InField w o k → v.getLsbD k = false)

/-- `rot` in both forms: the encodings, a word of the bit form with bits 9:5 not zero, and the rotation to the right as
the rule writes it and bit by bit (42 R181, R182). -/
def Obligations.Rotation : Prop :=
  ∀ (d s1 s2 : Reg) (o x : BitVec 5) (s : State),
    let rotated : Word → BitVec 5 → Word → Prop := fun a n v =>
      v = (if n = 0#5 then a else (a >>> n.toNat) ||| (a <<< (32 - n.toNat))) ∧
        ∀ k, k < 32 → v.getLsbD ((k + 32 - n.toNat) % 32) = a.getLsbD k
    decode (0b111100#6 ++ d ++ s1 ++ 0b101010#6 ++ 0#5 ++ o) = some (.rotBit d s1 o) ∧
    (x ≠ 0#5 → decode (0b111100#6 ++ d ++ s1 ++ 0b101010#6 ++ x ++ o) = none) ∧
    decode (0b111101#6 ++ d ++ s1 ++ 0b10101000000#11 ++ s2) = some (.rotReg d s1 s2) ∧
    (∃ t v, exec (.rotBit d s1 o) s = .next t ∧ WritesReg s t d v ∧ rotated (s.reg s1) o v) ∧
    (∃ t v, exec (.rotReg d s1 s2) s = .next t ∧ WritesReg s t d v ∧
      rotated (s.reg s1) ((s.reg s2).extractLsb' 0 5) v)

/-- The shifts: `extu`, `ext` and `mak` of width 0 and `rot` are the logical and arithmetic right shifts, the left shift
and the right rotation by `n`, and `rot` by `32 - n` is the left rotation by `n` (42 R184). -/
def Obligations.Shifts : Prop :=
  ∀ (d s1 : Reg) (n : BitVec 5) (s : State),
    (∃ t, exec (.extuBit d s1 0#5 n) s = .next t ∧ WritesReg s t d (s.reg s1 >>> n.toNat)) ∧
    (∃ t, exec (.extBit d s1 0#5 n) s = .next t ∧ WritesReg s t d ((s.reg s1).sshiftRight n.toNat)) ∧
    (∃ t, exec (.makBit d s1 0#5 n) s = .next t ∧ WritesReg s t d (s.reg s1 <<< n.toNat)) ∧
    (∃ t, exec (.rotBit d s1 n) s = .next t ∧ WritesReg s t d ((s.reg s1).rotateRight n.toNat)) ∧
    (n ≠ 0#5 → ∃ t, exec (.rotBit d s1 (BitVec.ofNat 5 (32 - n.toNat))) s = .next t ∧
      WritesReg s t d ((s.reg s1).rotateLeft n.toNat))

/-! ## Floating point (spec 43) -/

/-- The two formats (43 R190): the value of a normal number from its fields, zeros, and which bits are reserved. The
layouts are taken from IEEE 754 by the spec, the reserved operands are its decision D14 (log entries 21, 9). -/
def Obligations.FormatValues : Prop :=
  (∀ w : Word,
    let e := (w.extractLsb' 23 8).toNat
    let f := (w.extractLsb' 0 23).toNat
    let sign : ℚ := if w.getLsbD 31 then -1 else 1
    (0 < e ∧ e < 255 → (FpBits.single w).isNumber ∧
      (FpBits.single w).value = sign * (1 + f / 2 ^ 23) * (2 : ℚ) ^ ((e : Int) - 127)) ∧
    (e = 0 ∧ f = 0 → (FpBits.single w).isNumber ∧ (FpBits.single w).value = 0) ∧
    (e = 255 ∨ e = 0 ∧ f ≠ 0 → ¬ (FpBits.single w).isNumber)) ∧
  (∀ w : DWord,
    let e := (w.extractLsb' 52 11).toNat
    let f := (w.extractLsb' 0 52).toNat
    let sign : ℚ := if w.getLsbD 63 then -1 else 1
    (0 < e ∧ e < 2047 → (FpBits.double w).isNumber ∧
      (FpBits.double w).value = sign * (1 + f / 2 ^ 52) * (2 : ℚ) ^ ((e : Int) - 1023)) ∧
    (e = 0 ∧ f = 0 → (FpBits.double w).isNumber ∧ (FpBits.double w).value = 0) ∧
    (e = 2047 ∨ e = 0 ∧ f ≠ 0 → ¬ (FpBits.double w).isNumber))

/-- `fadd`, `fsub`, `fmul`, `fdiv` in every mixture of precisions: on numbers whose exact result is neither below the
smallest normal number nor rounded above the largest finite one, the result is that result correctly rounded in the mode
of `CR.RM` (43 R192). The numerics are the spec's decision D13, the order of the pair that holds a double its decision
D28 (log entries 21, 20). -/
def Obligations.FloatArithmetic : Prop :=
  ∀ (i : Instr) (t1 t2 td : Prec) (d s1 s2 : Reg) (x : ℚ) (s : State),
    let a := operandBits s t1 s1
    let b := operandBits s t2 s2
    (i = .fadd t1 t2 td d s1 s2 ∧ x = a.value + b.value ∨ i = .fsub t1 t2 td d s1 s2 ∧ x = a.value - b.value ∨
      i = .fmul t1 t2 td d s1 s2 ∧ x = a.value * b.value ∨
      i = .fdiv t1 t2 td d s1 s2 ∧ b.value ≠ 0 ∧ x = a.value / b.value) →
    i.wellFormed = true → a.isNumber → b.isNumber → minNormal td ≤ |x| → ¬ RoundsAbove td s.rm x →
    ∃ t r, exec i s = .next t ∧ WritesFp s t d r ∧ CorrectlyRounded td s.rm x r

/-- `fadd`, `fsub`, `fmul`, `fdiv` with an exact result 0: a zero, of the sign both operands of a sum have, else minus
for a sum rounded toward minus infinity only, and for products and quotients the exclusive or of the signs (43 R193).
The sign is the spec's decision D14, taken from IEEE 754, the order of the pair that holds a double its decision D28
(log entries 9, 20). -/
def Obligations.FloatZeroResult : Prop :=
  ∀ (i : Instr) (neg : Bool) (t1 t2 td : Prec) (d s1 s2 : Reg) (s : State),
    let a := operandBits s t1 s1
    let b := operandBits s t2 s2
    let ofSum : Bool → Bool → Bool := fun p q => if p = q then p else decide (s.rm = 0b10#2)
    (i = .fadd t1 t2 td d s1 s2 ∧ a.value + b.value = 0 ∧ neg = ofSum a.sign b.sign ∨
      i = .fsub t1 t2 td d s1 s2 ∧ a.value - b.value = 0 ∧ neg = ofSum a.sign (!b.sign) ∨
      i = .fmul t1 t2 td d s1 s2 ∧ a.value * b.value = 0 ∧ neg = (a.sign ^^ b.sign) ∨
      i = .fdiv t1 t2 td d s1 s2 ∧ b.value ≠ 0 ∧ a.value = 0 ∧ neg = (a.sign ^^ b.sign)) →
    i.wellFormed = true → a.isNumber → b.isNumber →
    ∃ t, exec i s = .next t ∧ WritesFp s t d (zeroBits td neg)

/-- `fcvt` of a number: to its own precision a copy, to double an exact number of the same sign, to single the value
correctly rounded where it lies in range, and a zero keeps its sign (43 R197). The numerics are the spec's decision
D13, the order of the pair that holds a double its decision D28, the sign of a zero is the model's reading (log entries
21, 20, 22). -/
def Obligations.FloatConversion : Prop :=
  ∀ (t2 td : Prec) (d s2 : Reg) (s : State),
    let b := operandBits s t2 s2
    (Instr.fcvt t2 td d s2).wellFormed = true → b.isNumber →
    (t2 = td → ∃ t, exec (.fcvt t2 td d s2) s = .next t ∧ WritesFp s t d b) ∧
    (t2 = .single → td = .double → ∃ t r, exec (.fcvt t2 td d s2) s = .next t ∧ WritesFp s t d r ∧
      r.prec = .double ∧ r.isNumber ∧ r.value = b.value ∧ r.sign = b.sign) ∧
    (b.value = 0 → ∃ t, exec (.fcvt t2 td d s2) s = .next t ∧ WritesFp s t d (zeroBits td b.sign)) ∧
    (minNormal td ≤ |b.value| → ¬ RoundsAbove td s.rm b.value → ∃ t r, exec (.fcvt t2 td d s2) s = .next t ∧
      WritesFp s t d r ∧ CorrectlyRounded td s.rm b.value r)

/-- `flt`: 0 becomes +0.0, every other integer is correctly rounded, and exact in double precision (43 R199). The
numerics are the spec's decision D13, the order of the pair that holds a double its decision D28 (log entries 21 and
20). -/
def Obligations.FloatFromInteger : Prop :=
  ∀ (td : Prec) (d s2 : Reg) (s : State), (Instr.flt td d s2).wellFormed = true →
    ∃ t r, exec (.flt td d s2) s = .next t ∧ WritesFp s t d r ∧
      (s.reg s2 = 0#32 → r = zeroBits td false) ∧
      (s.reg s2 ≠ 0#32 → CorrectlyRounded td s.rm (s.reg s2).toInt r) ∧
      (td = .double → r.value = (s.reg s2).toInt)

/-- `int` of a number: the integer it is rounded to in the mode of `CR.RM`, or the overflow condition where that is no
32-bit integer (43 R202). Which operands are numbers and the condition are the spec's decision D14, ties to even its
decision D13, the order of the pair that holds a double its decision D28 (log entries 9, 21, 20). -/
def Obligations.IntegerFromFloat : Prop :=
  ∀ (t2 : Prec) (d s2 : Reg) (s : State),
    let x := (operandBits s t2 s2).value
    (Instr.fint t2 d s2).wellFormed = true → (operandBits s t2 s2).isNumber →
    (-2147483648 ≤ x → x ≤ 2147483647 →
      ∃ t v, exec (.fint t2 d s2) s = .next t ∧ WritesReg s t d v ∧ RoundsToInt s.rm x v.toInt) ∧
    ∀ n : Int, RoundsToInt s.rm x n →
      (-2147483648 ≤ n ∧ n ≤ 2147483647 →
        ∃ t, exec (.fint t2 d s2) s = .next t ∧ WritesReg s t d (BitVec.ofInt 32 n)) ∧
      (n < -2147483648 ∨ 2147483647 < n → Signals (.fint t2 d s2) s .fpOverflow)

/-- The string `fcmp` writes, for every two operands (43 R196): `un` alone with `ne` where one is a NaN, else the order
of the values, infinities and subnormal numbers included. What a NaN and an infinity give is the spec's decision D32,
the order of the pair that holds a double its decision D28 (log entries 23, 20). -/
def Obligations.FloatCompare : Prop :=
  ∀ (t1 t2 : Prec) (d s1 s2 : Reg) (s : State),
    let a := operandBits s t1 s1
    let b := operandBits s t2 s2
    (Instr.fcmp t1 t2 d s1 s2).wellFormed = true →
    ∃ t v, exec (.fcmp t1 t2 d s1 s2) s = .next t ∧ WritesReg s t d v ∧
      (a.isNaN ∨ b.isNaN → v = 0x00000005#32) ∧
      (¬ a.isNaN → ¬ b.isNaN →
        v.getLsbD 0 = false ∧ (v.getLsbD 1 = true ↔ a.extended = b.extended) ∧
        (v.getLsbD 2 = true ↔ a.extended ≠ b.extended) ∧ (v.getLsbD 3 = true ↔ b.extended < a.extended) ∧
        (v.getLsbD 4 = true ↔ a.extended ≤ b.extended) ∧ (v.getLsbD 5 = true ↔ a.extended < b.extended) ∧
        (v.getLsbD 6 = true ↔ b.extended ≤ a.extended) ∧ ∀ k, 7 ≤ k → v.getLsbD k = false)

/-- The floating-point conditions (43 R193): a reserved operand, a zero divisor, an exact result that is not 0 and below
the smallest normal number, and one rounded above the largest finite number. All four are the spec's decision D14, what
raising does its decision D15, the order of the pair that holds a double its decision D28 (log entries 9, 12, 20). -/
def Obligations.FloatConditions : Prop :=
  ∀ (i : Instr) (t1 t2 td : Prec) (d s1 s2 : Reg) (s : State), i.wellFormed = true →
    let a := operandBits s t1 s1
    let b := operandBits s t2 s2
    (i = .fadd t1 t2 td d s1 s2 ∨ i = .fsub t1 t2 td d s1 s2 ∨ i = .fmul t1 t2 td d s1 s2 ∨
        i = .fdiv t1 t2 td d s1 s2 →
      (¬ a.isNumber ∨ ¬ b.isNumber → Signals i s .fpReservedOperand)) ∧
    (i = .fcvt t2 td d s2 ∨ i = .fint t2 d s2 → (¬ b.isNumber → Signals i s .fpReservedOperand)) ∧
    (i = .fdiv t1 t2 td d s1 s2 → a.isNumber → b.isNumber → b.value = 0 → Signals i s .fpDivideByZero) ∧
    (∀ x : ℚ, (i = .fadd t1 t2 td d s1 s2 ∧ x = a.value + b.value ∨ i = .fsub t1 t2 td d s1 s2 ∧ x = a.value - b.value ∨
        i = .fmul t1 t2 td d s1 s2 ∧ x = a.value * b.value ∨
        i = .fdiv t1 t2 td d s1 s2 ∧ b.value ≠ 0 ∧ x = a.value / b.value) → a.isNumber → b.isNumber →
      (x ≠ 0 → |x| < minNormal td → Signals i s .fpUnderflow) ∧
      (RoundsAbove td s.rm x → Signals i s .fpOverflow)) ∧
    (i = .fcvt t2 td d s2 → b.isNumber →
      (b.value ≠ 0 → |b.value| < minNormal td → Signals i s .fpUnderflow) ∧
      (RoundsAbove td s.rm b.value → Signals i s .fpOverflow))

/-! ## Control flow (spec 44) -/

/-- `bb0` and `bb1`: the encodings, and outside a delay slot a branch to `pc + 4 * sext_16(D16)` when the bit is 0 or 1,
else the next instruction (44 R223, R224). -/
def Obligations.BranchOnBit : Prop :=
  ∀ (n : Bool) (b : BitVec 5) (s1 : Reg) (x : Half) (s : State),
    let target := s.pc + 4#32 * x.signExtend 32
    decode (0b11010#5 ++ BitVec.ofBool n ++ b ++ s1 ++ x) = some (.bb0 n b s1 x) ∧
    decode (0b11011#5 ++ BitVec.ofBool n ++ b ++ s1 ++ x) = some (.bb1 n b s1 x) ∧
    (s.delay = none → ∀ (i : Instr) (one : Bool), i = (if one then .bb1 n b s1 x else .bb0 n b s1 x) →
      ((s.reg s1).getLsbD b.toNat = one → ∃ t, exec i s = .next t ∧ Branches s t n target []) ∧
      ((s.reg s1).getLsbD b.toNat ≠ one → ∃ t, exec i s = .next t ∧ Branches s t false (s.pc + 4#32) []))

/-- `br`, `bsr`, `jmp`, `jsr`: the encodings, and outside a delay slot a branch to `pc + 4 * sext_26(D26)` or to the
register with its two low bits cleared, read first; the calls leave the return address in `r1`, `pc + 4` or with `.n`
`pc + 8` (44 R225 to R228). -/
def Obligations.UnconditionalBranches : Prop :=
  ∀ (n : Bool) (x : BitVec 26) (s2 : Reg) (s : State),
    let back := if n then s.pc + 8#32 else s.pc + 4#32
    let near := s.pc + 4#32 * x.signExtend 32
    let far := s.reg s2 &&& 0xFFFFFFFC#32
    decode (0b11000#5 ++ BitVec.ofBool n ++ x) = some (.br n x) ∧
    decode (0b11001#5 ++ BitVec.ofBool n ++ x) = some (.bsr n x) ∧
    decode (0b111101#6 ++ 0#10 ++ 0b11000#5 ++ BitVec.ofBool n ++ 0#5 ++ s2) = some (.jmp n s2) ∧
    decode (0b111101#6 ++ 0#10 ++ 0b11001#5 ++ BitVec.ofBool n ++ 0#5 ++ s2) = some (.jsr n s2) ∧
    (s.delay = none →
      (∃ t, exec (.br n x) s = .next t ∧ Branches s t n near []) ∧
      (∃ t, exec (.bsr n x) s = .next t ∧ t.reg 1#5 = back ∧ Branches s t n near [1#5]) ∧
      (∃ t, exec (.jmp n s2) s = .next t ∧ Branches s t n far []) ∧
      (∃ t, exec (.jsr n s2) s = .next t ∧ t.reg 1#5 = back ∧ Branches s t n far [1#5]))

/-- A control-flow instruction in the delay slot of a taken branch, taken or not, is the fault
`ControlTransferInDelaySlot` (44 R221, the spec's decision D16, log entry 7). -/
def Obligations.DelaySlotFault : Prop :=
  ∀ (i : Instr) (s : State) (a : Word), i.isControlFlow = true → s.delay = some a →
    exec i s = .fault (.controlTransferInDelaySlot s.pc)

/-- A taken branch with `.n` and then, in its delay slot, an instruction that transfers no control: the slot is the
instruction at `pc + 4`, and after it execution is at the branch's target with nothing pending (44 R221; the spec's
decision D16 only excludes the other instructions from the slot, log entry 7). -/
def Obligations.DelayedBranch : Prop :=
  ∀ (i j : Instr) (s t u : State) (a : Word), s.run = .running → exec i s = .next t → t.delay = some a →
    exec j t = .next u → u.run = .running →
    i.isControlFlow = true ∧ t.pc = s.pc + 4#32 ∧ j.isControlFlow = false ∧ u.pc = a ∧ u.delay = none

/-! ## Loads, stores and exchange (spec 45, 20) -/

/-- `ld.b` and `ld.bu` with an immediate, and `ld.bu` with a register: the encodings, the byte at the address sign or
zero extended, or `AddressOutOfRange` (45 R245, R247, R253). -/
def Obligations.LoadByte : Prop :=
  ∀ (d s1 s2 : Reg) (x : Half) (s : State),
    let ea := s.reg s1 + x.signExtend 32
    let ear := s.reg s1 + s.reg s2
    decode (0b000111#6 ++ d ++ s1 ++ x) = some (.ldbImm d s1 x) ∧
    decode (0b000011#6 ++ d ++ s1 ++ x) = some (.ldbuImm d s1 x) ∧
    decode (0b111101#6 ++ d ++ s1 ++ 0b00001100000#11 ++ s2) = some (.ldbuReg d s1 s2) ∧
    (InRange ea 1 →
      (∃ t, exec (.ldbImm d s1 x) s = .next t ∧ WritesReg s t d ((s.byteAt ea.toNat).signExtend 32)) ∧
      (∃ t, exec (.ldbuImm d s1 x) s = .next t ∧ WritesReg s t d ((s.byteAt ea.toNat).setWidth 32))) ∧
    (InRange ear 1 →
      ∃ t, exec (.ldbuReg d s1 s2) s = .next t ∧ WritesReg s t d ((s.byteAt ear.toNat).setWidth 32)) ∧
    (¬ InRange ea 1 → exec (.ldbImm d s1 x) s = .fault (.addressOutOfRange s.pc ea) ∧
      exec (.ldbuImm d s1 x) s = .fault (.addressOutOfRange s.pc ea)) ∧
    (¬ InRange ear 1 → exec (.ldbuReg d s1 s2) s = .fault (.addressOutOfRange s.pc ear))

/-- `ld.h`, `ld.hu`, `ld` with an immediate, and `ld.hu` with a register: the encodings, the value in the byte order of
`CR.LE`, or the faults (45 R243, R244, R246, R252). -/
def Obligations.LoadHalfAndWord : Prop :=
  ∀ (d s1 s2 : Reg) (x : Half) (s : State),
    let ea := s.reg s1 + x.signExtend 32
    let ear := s.reg s1 + s.reg s2
    let stops : Instr → Word → Nat → Prop := fun i a n =>
      (IsAligned a n → ¬ InRange a n → exec i s = .fault (.addressOutOfRange s.pc a)) ∧
        (¬ IsAligned a n → InRange a n → exec i s = .fault (.misaligned s.pc a n))
    (decode (0b000110#6 ++ d ++ s1 ++ x) = some (.ldhImm d s1 x) ∧ stops (.ldhImm d s1 x) ea 2 ∧
      (IsAligned ea 2 → InRange ea 2 →
        ∃ t, exec (.ldhImm d s1 x) s = .next t ∧ WritesReg s t d ((halfAt s ea.toNat).signExtend 32))) ∧
    (decode (0b000010#6 ++ d ++ s1 ++ x) = some (.ldhuImm d s1 x) ∧ stops (.ldhuImm d s1 x) ea 2 ∧
      (IsAligned ea 2 → InRange ea 2 →
        ∃ t, exec (.ldhuImm d s1 x) s = .next t ∧ WritesReg s t d ((halfAt s ea.toNat).setWidth 32))) ∧
    (decode (0b000101#6 ++ d ++ s1 ++ x) = some (.ldImm d s1 x) ∧ stops (.ldImm d s1 x) ea 4 ∧
      (IsAligned ea 4 → InRange ea 4 →
        ∃ t, exec (.ldImm d s1 x) s = .next t ∧ WritesReg s t d (wordAt s ea.toNat))) ∧
    (decode (0b111101#6 ++ d ++ s1 ++ 0b00001000000#11 ++ s2) = some (.ldhuReg d s1 s2) ∧
      stops (.ldhuReg d s1 s2) ear 2 ∧
      (IsAligned ear 2 → InRange ear 2 →
        ∃ t, exec (.ldhuReg d s1 s2) s = .next t ∧ WritesReg s t d ((halfAt s ear.toNat).setWidth 32)))

/-- `ld.d` and `st.d` with an immediate, in a memory in canonical form: the encodings, the double word between the
pair `rD`, `rD+1` and memory, or the faults (45 R242, R254). -/
def Obligations.DoubleImmediate : Prop :=
  ∀ (d s1 : Reg) (x : Half) (s : State), s.mem.wf →
    let ea := s.reg s1 + x.signExtend 32
    let stops : Instr → Prop := fun i =>
      (d = 31#5 → exec i s = .fault (.pairAtR31 s.pc)) ∧
        (d ≠ 31#5 → IsAligned ea 8 → ¬ InRange ea 8 → exec i s = .fault (.addressOutOfRange s.pc ea)) ∧
        (d ≠ 31#5 → ¬ IsAligned ea 8 → InRange ea 8 → exec i s = .fault (.misaligned s.pc ea 8))
    decode (0b000100#6 ++ d ++ s1 ++ x) = some (.lddImm d s1 x) ∧ stops (.lddImm d s1 x) ∧
    decode (0b001000#6 ++ d ++ s1 ++ x) = some (.stdImm d s1 x) ∧ stops (.stdImm d s1 x) ∧
    (d ≠ 31#5 → IsAligned ea 8 → InRange ea 8 →
      (∃ t, exec (.lddImm d s1 x) s = .next t ∧ WritesPair s t d (dwordAt s ea.toNat)) ∧
      (∃ t, exec (.stdImm d s1 x) s = .next t ∧
        StoresOnly s t ea.toNat (inOrder s (wordBytes (s.reg (d + 1#5)) ++ wordBytes (s.reg d)))))

/-- The register forms of `ld.d`, `ld`, `ld.h`, `ld.b`: the encodings, and the values of the immediate forms at the
address `x[S1] + x[S2]` (45 R248 to R251). Their major opcode `111100` is the spec's decision D17 (log entry 19). -/
def Obligations.LoadIndexed : Prop :=
  ∀ (d s1 s2 : Reg) (s : State),
    let ea := s.reg s1 + s.reg s2
    decode (0b111100#6 ++ d ++ s1 ++ 0b00010000000#11 ++ s2) = some (.lddReg d s1 s2) ∧
    decode (0b111100#6 ++ d ++ s1 ++ 0b00010100000#11 ++ s2) = some (.ldReg d s1 s2) ∧
    decode (0b111100#6 ++ d ++ s1 ++ 0b00011000000#11 ++ s2) = some (.ldhReg d s1 s2) ∧
    decode (0b111100#6 ++ d ++ s1 ++ 0b00011100000#11 ++ s2) = some (.ldbReg d s1 s2) ∧
    (d ≠ 31#5 → IsAligned ea 8 → InRange ea 8 →
      ∃ t, exec (.lddReg d s1 s2) s = .next t ∧ WritesPair s t d (dwordAt s ea.toNat)) ∧
    (IsAligned ea 4 → InRange ea 4 →
      ∃ t, exec (.ldReg d s1 s2) s = .next t ∧ WritesReg s t d (wordAt s ea.toNat)) ∧
    (IsAligned ea 2 → InRange ea 2 →
      ∃ t, exec (.ldhReg d s1 s2) s = .next t ∧ WritesReg s t d ((halfAt s ea.toNat).signExtend 32)) ∧
    (InRange ea 1 →
      ∃ t, exec (.ldbReg d s1 s2) s = .next t ∧ WritesReg s t d ((s.byteAt ea.toNat).signExtend 32))

/-- `st`, `st.h`, `st.b` with an immediate, in a memory in canonical form: the encodings, the low bytes of `rD` at the
address in the byte order of `CR.LE` and nothing else, or the faults (45 R255, R256, R257). -/
def Obligations.StoreImmediate : Prop :=
  ∀ (d s1 : Reg) (x : Half) (s : State), s.mem.wf →
    let ea := s.reg s1 + x.signExtend 32
    let stores : Instr → Nat → List Byte → Prop := fun i n bs =>
      (IsAligned ea n → InRange ea n → ∃ t, exec i s = .next t ∧ StoresOnly s t ea.toNat (inOrder s bs)) ∧
        (IsAligned ea n → ¬ InRange ea n → exec i s = .fault (.addressOutOfRange s.pc ea)) ∧
        (¬ IsAligned ea n → InRange ea n → exec i s = .fault (.misaligned s.pc ea n))
    (decode (0b001001#6 ++ d ++ s1 ++ x) = some (.stImm d s1 x) ∧ stores (.stImm d s1 x) 4 (wordBytes (s.reg d))) ∧
    (decode (0b001010#6 ++ d ++ s1 ++ x) = some (.sthImm d s1 x) ∧ stores (.sthImm d s1 x) 2 (halfBytes (s.reg d))) ∧
    (decode (0b001011#6 ++ d ++ s1 ++ x) = some (.stbImm d s1 x) ∧
      stores (.stbImm d s1 x) 1 [(s.reg d).extractLsb' 0 8])

/-- The register forms of `st.d`, `st`, `st.h`, `st.b`, in a memory in canonical form: the encodings, and the stores of
the immediate forms at the address `x[S1] + x[S2]`, the same with and without `.wt` (45 R258 to R261). Their major
opcode `111100` is the spec's decision D17, one flat memory its decision D27 (log entries 19, 29). -/
def Obligations.StoreIndexed : Prop :=
  ∀ (wt : Bool) (d s1 s2 : Reg) (s : State), s.mem.wf →
    let ea := s.reg s1 + s.reg s2
    let stores : Instr → Nat → List Byte → Prop := fun i n bs =>
      IsAligned ea n → InRange ea n → ∃ t, exec i s = .next t ∧ StoresOnly s t ea.toNat (inOrder s bs)
    (decode (0b111100#6 ++ d ++ s1 ++ 0b001000#6 ++ BitVec.ofBool wt ++ 0#4 ++ s2) = some (.stdReg wt d s1 s2) ∧
      (d ≠ 31#5 → stores (.stdReg wt d s1 s2) 8 (wordBytes (s.reg (d + 1#5)) ++ wordBytes (s.reg d)))) ∧
    (decode (0b111100#6 ++ d ++ s1 ++ 0b001001#6 ++ BitVec.ofBool wt ++ 0#4 ++ s2) = some (.stReg wt d s1 s2) ∧
      stores (.stReg wt d s1 s2) 4 (wordBytes (s.reg d))) ∧
    (decode (0b111100#6 ++ d ++ s1 ++ 0b001010#6 ++ BitVec.ofBool wt ++ 0#4 ++ s2) = some (.sthReg wt d s1 s2) ∧
      stores (.sthReg wt d s1 s2) 2 (halfBytes (s.reg d))) ∧
    (decode (0b111100#6 ++ d ++ s1 ++ 0b001011#6 ++ BitVec.ofBool wt ++ 0#4 ++ s2) = some (.stbReg wt d s1 s2) ∧
      stores (.stbReg wt d s1 s2) 1 [(s.reg d).extractLsb' 0 8])

/-- `xmem`, in a memory in canonical form: the word at the address and `rD` are exchanged, the address and the word
stored taken from the registers as they were before (45 R264). The order of reading and writing is the spec's decision
D30 (log entry 26). -/
def Obligations.Exchange : Prop :=
  ∀ (d s1 s2 : Reg) (s : State), s.mem.wf →
    let ea := s.reg s1 + s.reg s2
    IsAligned ea 4 → InRange ea 4 →
    ∃ t, exec (.xmem d s1 s2) s = .next t ∧ t.reg d = (if d = 0#5 then 0#32 else wordAt s ea.toNat) ∧
      KeepsRegs s t [d] ∧ KeepsCr s t ∧ StoresBytes s t ea.toNat (inOrder s (wordBytes (s.reg d))) ∧ Advances s t

/-- Every access of an instruction that names no pair at `r31`: out of range it is the fault `AddressOutOfRange`, in
range and not aligned the fault `Misaligned` (20 R55, R58). Both are the spec's decisions D3 and D4, and that the range
is checked first is the model's (log entries 4, 5). -/
def Obligations.AccessFaults : Prop :=
  ∀ (i : Instr) (s : State) (ea : Word) (n : Nat), i.wellFormed = true → i.access s = some (ea, n) →
    (¬ InRange ea n → exec i s = .fault (.addressOutOfRange s.pc ea)) ∧
    (InRange ea n → ¬ IsAligned ea n → exec i s = .fault (.misaligned s.pc ea n))

/-- What an instruction leaves of memory: one that stores nothing leaves every byte, one that stores leaves every byte
outside its access and marks exactly the bytes of its access as stored (20 R51, R53, R67). -/
def Obligations.MemoryFrame : Prop :=
  ∀ (i : Instr) (s t : State), exec i s = .next t →
    (i.isStore = false → KeepsMemory s t) ∧
    (i.isStore = true → ∀ ea n, i.access s = some (ea, n) →
      (∀ a, a < ea.toNat ∨ ea.toNat + n ≤ a → t.byteAt a = s.byteAt a) ∧
      ∀ a, a ∈ t.stored ↔ a ∈ s.stored ∨ (ea.toNat ≤ a ∧ a < ea.toNat + n))

/-- `MemWrite(addr, n, v)`: byte by byte in both byte orders, no byte outside the access, and `MemRead(addr, n)`
afterwards returns the low `8n` bits of `v` (20 R53); or the faults of the two checks (20 R55, R58), which are the
spec's decisions D3 and D4 (log entries 4, 5). -/
def Obligations.WriteThenRead : Prop :=
  ∀ (n : Nat) (addr : Word) (v : DWord) (s : State), n ∈ [1, 2, 4, 8] → s.mem.wf →
    (IsAligned addr n → InRange addr n →
      ∃ t, memWrite s addr n v = .ok t ∧ memRead t addr n = .ok ((v.setWidth (8 * n)).setWidth 64) ∧
        (∀ k, k < n → t.byteAt (addr.toNat + k) = v.extractLsb' (8 * (if s.le then k else n - 1 - k)) 8) ∧
        ∀ a, a < addr.toNat ∨ addr.toNat + n ≤ a → t.byteAt a = s.byteAt a) ∧
    (IsAligned addr n → ¬ InRange addr n → memWrite s addr n v = .error (.addressOutOfRange s.pc addr)) ∧
    (¬ IsAligned addr n → InRange addr n → memWrite s addr n v = .error (.misaligned s.pc addr n))

/-- An instruction that names `r31` as a pair is the fault `PairAtR31`, whatever else holds (10 R24, the spec's decision
D12, log entry 8). -/
def Obligations.PairAtLastRegister : Prop :=
  ∀ (i : Instr) (s : State), i.wellFormed = false → exec i s = .fault (.pairAtR31 s.pc)

/-! ## The control register (spec 10, 45) -/

/-- `ldcr`: the encoding, and all 32 bits of `CR` in `rD` (45 R262). -/
def Obligations.LoadControl : Prop :=
  ∀ (d : Reg) (s : State),
    decode (0b100000#6 ++ d ++ 0#21) = some (.ldcr d) ∧ ∃ t, exec (.ldcr d) s = .next t ∧ WritesReg s t d s.cr

/-- `stcr`: the encoding, all 32 bits of `rS1` in `CR`, or `ByteOrderChanged` where bit 30 is not the byte order of the
load (45 R263). That every bit is stored and the fault are the spec's decisions D26 and D18 (log entries 18, 10). -/
def Obligations.StoreControl : Prop :=
  ∀ (s1 : Reg) (s : State),
    decode (0b100000#6 ++ 0#5 ++ s1 ++ 0x8000#16) = some (.stcr s1) ∧
    ((s.reg s1).getLsbD 30 = s.cfg.littleEndian → ∃ t, exec (.stcr s1) s = .next t ∧ t.cr = s.reg s1 ∧
      t.freeCount = s.freeCount ∧ KeepsRegs s t [] ∧ KeepsMemory s t ∧ Advances s t) ∧
    ((s.reg s1).getLsbD 30 ≠ s.cfg.littleEndian → exec (.stcr s1) s = .fault (.byteOrderChanged s.pc))

/-- Who writes `CR`: an instruction other than `stcr` changes at most bits 28, 13 and 12; bit 28 only the `.co` forms;
in serial mode bits 12 and 13 never go back to 0, and go to 1 only by an instruction that can cause the condition, with
exceptions inhibited (10 R26 to R33). That the two flags stay set is the spec's decision D7 (log entry 14). -/
def Obligations.ControlRegisterWriters : Prop :=
  ∀ (i : Instr) (s t : State), exec i s = .next t → i.isStcr = false →
    (∀ j, j ≠ 12 → j ≠ 13 → j ≠ 28 → t.cr.getLsbD j = s.cr.getLsbD j) ∧
    (i.writesCarry = false → t.carry = s.carry) ∧
    (s.cfg.mode = .serial →
      (s.ov = true → t.ov = true) ∧ (s.dz = true → t.dz = true) ∧
      (t.ov ≠ s.ov → s.ei = true ∧ Cause.integerOverflow ∈ i.causes) ∧
      (t.dz ≠ s.dz → s.ei = true ∧ Cause.integerDivideByZero ∈ i.causes))

/-! ## `stop` and exceptions (spec 46, 60) -/

/-- `stop`: the run ends with `pc` past it, nothing else changed but the pending branch, which is dropped, and the count
of instructions. No other instruction ends the run so (46 R280 to R282). That the run stays ended and what is dropped
are the spec's decisions D24 and D16 (log entry 13). -/
def Obligations.StopEndsTheRun : Prop :=
  (∀ s : State, ∃ t, exec .stop s = .next t ∧ t.run = .stopped ∧ t.pc = s.pc + 4#32 ∧ t.delay = none ∧
    t.totInst = s.totInst + 1 ∧ KeepsRegs s t [] ∧ KeepsCr s t ∧ KeepsMemory s t ∧ KeepsHost s t) ∧
  ∀ (i : Instr) (s t : State), s.run = .running → exec i s = .next t → t.run = .stopped → i = .stop

/-- Exceptions are precise: a running instruction raises only an exception the cause table gives it, only with
`CR.EI = 0`, and then nothing but the run state has changed, which records the cause and the instruction's address (60
R291, R296). What raising does is the spec's decision D15 (log entry 12). -/
def Obligations.PreciseExceptions : Prop :=
  ∀ (i : Instr) (s t : State) (c : Cause) (p : Word), s.run = .running → exec i s = .next t →
    t.run = .exception c p → c ∈ i.causes ∧ s.ei = false ∧ p = s.pc ∧ Raises s t c

/-! ## The whole machine -/

/-- Every step from a state with the invariant gives a state with it: `r0` stays 0, `pc` and a pending target stay
multiples of 4, memory stays in canonical form and in range, the byte order stays that of the load. The last rests on
the fault `ByteOrderChanged`, the spec's decision D18 (20 R57, log entry 10). -/
def Obligations.InvariantKept : Prop := ∀ s t : State, Inv s → step s = .next t → Inv t

/-- The state after reset has the invariant. -/
def Obligations.InvariantAtReset : Prop := Inv State.reset

/-- The values at reset (10 R44). The unshown bits of `CR` and the empty memory are the spec's decisions D2 and D25 (log
entries 1, 3); that no byte counts as stored is the model's reading of its decision D19 (log entry 11); the counter of
free values is the model's own field, and 0 its choice (log entry 28). -/
def Obligations.ResetValues : Prop :=
  (∀ r, State.reset.reg r = 0#32) ∧ State.reset.pc = 0#32 ∧ State.reset.cr = 0x40000001#32 ∧
    (∀ a, State.reset.byteAt a = 0x00#8) ∧ State.reset.delay = none ∧ State.reset.run = .running ∧
    State.reset.breakpoints = [] ∧ State.reset.totInst = 0 ∧ State.reset.stored = [] ∧ State.reset.freeCount = 0

/-- Loading a well-formed image: the entry in `pc`, registers 0, `CR` from the configuration, every block's bytes in
memory, reserved bytes at arbitrary values, every other byte 0, and the invariant. A malformed image is refused (70
R331). The rules of images are the spec's decisions D1 and D25 (log entries 2, 3, 36). -/
def Obligations.Loading : Prop :=
  ∀ (cfg : Config.Emulator) (m : Image) (free : Nat → Byte),
    (m.wellFormed = true → cfg.wellFormed = true →
      ∃ s, loadImage cfg m free = some s ∧ s.pc.toNat = m.entry ∧ (∀ r, s.reg r = 0#32) ∧ s.cr = cfg.initialCR ∧
        s.delay = none ∧ s.run = .running ∧ s.breakpoints = [] ∧ s.totInst = 0 ∧ s.stored = [] ∧ s.cfg = cfg ∧
        (∀ b ∈ m.blocks, ∀ k x, b.2[k]? = some x → s.byteAt (b.1 + k) = x) ∧
        (∀ r ∈ m.reserved, ∀ k, k < r.2 → s.byteAt (r.1 + k) = free (r.1 + k)) ∧
        (∀ a, (∀ r ∈ m.ranges, a < r.1 ∨ r.1 + r.2 ≤ a) → s.byteAt a = 0x00#8) ∧ Inv s) ∧
    (m.wellFormed = false → loadImage cfg m free = none)

/-! ## The host (spec 70) -/

/-- The host's setters: `R n v` writes a general register and `I a v` a word in the byte order of `CR.LE`, each nothing
else, and both keep the invariant (70 R353). That a word the host writes does not count as stored by the program is the
model's reading (log entry 11). -/
def Obligations.HostSetters : Prop :=
  ∀ (s : State), Inv s →
    (∀ n v, n < 32 → v < 2 ^ 32 → ∃ t, hostSetRegister s n v = some t ∧ Inv t ∧
      t = { s with regs := t.regs } ∧ KeepsRegs s t [BitVec.ofNat 5 n] ∧
      t.reg (BitVec.ofNat 5 n) = if n = 0 then 0#32 else BitVec.ofNat 32 v) ∧
    (∀ a v, a % 4 = 0 → a + 4 ≤ 262144 → v < 2 ^ 32 → ∃ t, hostSetWord s a v = some t ∧ Inv t ∧
      t = { s with mem := t.mem } ∧ wordAt t a = BitVec.ofNat 32 v ∧
      ∀ b, b < a ∨ a + 4 ≤ b → t.byteAt b = s.byteAt b)

/-- A run that ends at a breakpoint: it has made `k` steps, at least one and no more than allowed, each counted once;
the machine still runs at a breakpoint, whose instruction has not executed; and of the states it passed after the one it
started in none stood at a breakpoint (70 R351). -/
def Obligations.RunToBreakpoint : Prop :=
  ∀ (n : Nat) (s t : State), runSteps true n s = .breakpoint t →
    ∃ k, 0 < k ∧ k ≤ n ∧ Steps k s t ∧ t.totInst = s.totInst + k ∧ t.run = .running ∧
      t.pc.toNat ∈ t.breakpoints ∧ t.breakpoints = s.breakpoints ∧
      ∀ j u, 0 < j → j < k → Steps j s u → u.run = .running ∧ u.pc.toNat ∉ u.breakpoints
end

