-- ==== Sys2Proof/Laws/Decode.lean ====
section
/-! SUPPORT. The bits of a placed field, and what is left of each encoding format under a mask that skips its
fields: the opcode bits alone. -/

namespace Sys2Proof

/-- A bit of a placed field. -/
theorem place_getLsbD {n : Nat} (x : BitVec n) (k j : Nat) (hj : j < 32) :
    (place x k).getLsbD j = (decide (k ≤ j) && x.getLsbD (j - k)) := by
  unfold place
  rw [BitVec.getLsbD_shiftLeft, BitVec.getLsbD_setWidth]
  by_cases hk : k ≤ j
  · simp [hj, hk, show ¬ j < k by omega, show j - k < 32 by omega]
  · simp [hk, show j < k by omega]

/-- A mask takes from a union the union of what it takes from each. -/
theorem or_and_mask (x y m : Word) : (x ||| y) &&& m = (x &&& m) ||| (y &&& m) := by
  apply BitVec.eq_of_getLsbD_eq; intro j _
  simp only [BitVec.getLsbD_and, BitVec.getLsbD_or, Bool.and_or_distrib_right]

/-- A field that lies in `f` is gone under a mask that skips `f`. -/
theorem place_and_zero {n : Nat} (x : BitVec n) (k : Nat) (f m : Word) (hm : f &&& m = 0#32)
    (hf : place (BitVec.allOnes n) k &&& f = place (BitVec.allOnes n) k) : place x k &&& m = 0#32 := by
  apply BitVec.eq_of_getLsbD_eq; intro j hj
  have h1 := congrArg (fun w => BitVec.getLsbD w j) hm
  have h2 := congrArg (fun w => BitVec.getLsbD w j) hf
  simp only [BitVec.getLsbD_and, BitVec.getLsbD_zero, place_getLsbD _ _ _ hj] at h1 h2 ⊢
  cases hx : x.getLsbD (j - k)
  · simp
  · have hn : j - k < n := by
      by_contra hge
      rw [BitVec.getLsbD_of_ge x _ (by omega)] at hx; cases hx
    cases hk : decide (k ≤ j)
    · simp
    · rw [BitVec.getLsbD_allOnes, hk, decide_eq_true hn] at h2
      simp only [Bool.true_and] at h2 ⊢
      simpa [h2] using h1

theorem encImm16L_and (op : BitVec 5) (u : Bool) (d s1 : Reg) (imm : Half) (m : Word)
    (hm : 0x07FFFFFF#32 &&& m = 0#32) : encImm16L op u d s1 imm &&& m = place op 27 &&& m := by
  unfold encImm16L
  rw [or_and_mask, or_and_mask, or_and_mask, or_and_mask, place_and_zero (BitVec.ofBool u) 26 _ m hm (by decide),
    place_and_zero d 21 _ m hm (by decide), place_and_zero s1 16 _ m hm (by decide),
    place_and_zero imm 0 _ m hm (by decide)]
  simp

theorem encImm16_and (op : BitVec 6) (d s1 : Reg) (imm : Half) (m : Word) (hm : 0x03FFFFFF#32 &&& m = 0#32) :
    encImm16 op d s1 imm &&& m = place op 26 &&& m := by
  unfold encImm16
  rw [or_and_mask, or_and_mask, or_and_mask, place_and_zero d 21 _ m hm (by decide),
    place_and_zero s1 16 _ m hm (by decide), place_and_zero imm 0 _ m hm (by decide)]
  simp

theorem encTri_and (major : BitVec 6) (d s1 : Reg) (sub : BitVec 11) (s2 : Reg) (m : Word)
    (hm : 0x03FF001F#32 &&& m = 0#32) :
    encTri major d s1 sub s2 &&& m = (place major 26 ||| place sub 5) &&& m := by
  unfold encTri
  rw [or_and_mask, or_and_mask, or_and_mask, or_and_mask, or_and_mask, place_and_zero d 21 _ m hm (by decide),
    place_and_zero s1 16 _ m hm (by decide), place_and_zero s2 0 _ m hm (by decide)]
  simp

/-- An option bit outside a mask is gone. -/
theorem optionBit_and (x : Word) (b : Bool) (k : Nat) (m : Word) (hm : place (BitVec.allOnes 1) k &&& m = 0#32) :
    (x ||| optionBit b k) &&& m = x &&& m := by
  unfold optionBit
  rw [or_and_mask, place_and_zero (BitVec.ofBool b) k _ m hm (by simp)]
  simp

theorem encBit_and (d s1 : Reg) (sub : BitVec 6) (w5 o5 : BitVec 5) (m : Word) (hm : 0x03FF03FF#32 &&& m = 0#32) :
    encBit d s1 sub w5 o5 &&& m = (place 0b111100#6 26 ||| place sub 10) &&& m := by
  unfold encBit
  rw [or_and_mask, or_and_mask, or_and_mask, or_and_mask, or_and_mask, or_and_mask,
    place_and_zero d 21 _ m hm (by decide), place_and_zero s1 16 _ m hm (by decide),
    place_and_zero w5 5 _ m hm (by decide), place_and_zero o5 0 _ m hm (by decide)]
  simp

/-- A precision field is gone under a mask that skips its low bit. -/
theorem prec_and_zero (t : Prec) (k : Nat) (m : Word) (hm : place (BitVec.allOnes 1) k &&& m = 0#32) :
    place t.bits k &&& m = 0#32 := by
  have prec : place t.bits k = place (BitVec.ofBool (t == .double)) k := by cases t <;> rfl
  rw [prec, place_and_zero _ k _ m hm (by simp)]

/-- Each operand field is gone, be it that the mask skips it or that the row fixes it to 0. -/
theorem encFp_and (d s1 : Reg) (sub : BitVec 5) (t1 t2 td : Prec) (s2 : Reg) (m : Word)
    (hm : 0x03E0001F#32 &&& m = 0#32) (hs : place s1 16 &&& m = 0#32) (h1 : place t1.bits 9 &&& m = 0#32)
    (h2 : place t2.bits 7 &&& m = 0#32) (hd : place td.bits 5 &&& m = 0#32) :
    encFp d s1 sub t1 t2 td s2 &&& m = (place 0b100001#6 26 ||| place sub 11) &&& m := by
  unfold encFp
  rw [or_and_mask, or_and_mask, or_and_mask, or_and_mask, or_and_mask, or_and_mask, or_and_mask, or_and_mask,
    place_and_zero d 21 _ m hm (by decide), hs, h1, h2, hd, place_and_zero s2 0 _ m hm (by decide)]
  simp

theorem encBb_and (op : BitVec 5) (n : Bool) (b5 : BitVec 5) (s1 : Reg) (d16 : Half) (m : Word)
    (hm : 0x07FFFFFF#32 &&& m = 0#32) : encBb op n b5 s1 d16 &&& m = place op 27 &&& m := by
  unfold encBb
  rw [or_and_mask, or_and_mask, or_and_mask, or_and_mask, place_and_zero (BitVec.ofBool n) 26 _ m hm (by decide),
    place_and_zero b5 21 _ m hm (by decide), place_and_zero s1 16 _ m hm (by decide),
    place_and_zero d16 0 _ m hm (by decide)]
  simp

theorem encBr26_and (op : BitVec 5) (n : Bool) (d26 : BitVec 26) (m : Word) (hm : 0x07FFFFFF#32 &&& m = 0#32) :
    encBr26 op n d26 &&& m = place op 27 &&& m := by
  unfold encBr26
  rw [or_and_mask, or_and_mask, place_and_zero (BitVec.ofBool n) 26 _ m hm (by decide),
    place_and_zero d26 0 _ m hm (by decide)]
  simp

theorem encJmp_and (sub : BitVec 5) (n : Bool) (s2 : Reg) (m : Word) (hm : 0x0000041F#32 &&& m = 0#32) :
    encJmp sub n s2 &&& m = (place 0b111101#6 26 ||| place sub 11) &&& m := by
  unfold encJmp
  rw [or_and_mask, or_and_mask, or_and_mask, place_and_zero (BitVec.ofBool n) 10 _ m hm (by decide),
    place_and_zero s2 0 _ m hm (by decide)]
  simp

end Sys2Proof
end

