-- ==== Sys2Proof/Laws/State.lean ====
section
/-! SUPPORT. One lemma per field per update of the state, so that no later proof unfolds a record update; and what the
registers and the bits of `CR` read after a write. -/

namespace Sys2Proof.Machine

/-! ## `setReg` and `setPair` -/

@[simp] theorem State.setReg_pc (s : State) (r : Reg) (v : Word) : (s.setReg r v).pc = s.pc := by
  unfold State.setReg; split <;> rfl
@[simp] theorem State.setReg_cr (s : State) (r : Reg) (v : Word) : (s.setReg r v).cr = s.cr := by
  unfold State.setReg; split <;> rfl
@[simp] theorem State.setReg_mem (s : State) (r : Reg) (v : Word) : (s.setReg r v).mem = s.mem := by
  unfold State.setReg; split <;> rfl
@[simp] theorem State.setReg_stored (s : State) (r : Reg) (v : Word) : (s.setReg r v).stored = s.stored := by
  unfold State.setReg; split <;> rfl
@[simp] theorem State.setReg_delay (s : State) (r : Reg) (v : Word) : (s.setReg r v).delay = s.delay := by
  unfold State.setReg; split <;> rfl
@[simp] theorem State.setReg_run (s : State) (r : Reg) (v : Word) : (s.setReg r v).run = s.run := by
  unfold State.setReg; split <;> rfl
@[simp] theorem State.setReg_breakpoints (s : State) (r : Reg) (v : Word) :
    (s.setReg r v).breakpoints = s.breakpoints := by
  unfold State.setReg; split <;> rfl
@[simp] theorem State.setReg_totInst (s : State) (r : Reg) (v : Word) : (s.setReg r v).totInst = s.totInst := by
  unfold State.setReg; split <;> rfl
@[simp] theorem State.setReg_cfg (s : State) (r : Reg) (v : Word) : (s.setReg r v).cfg = s.cfg := by
  unfold State.setReg; split <;> rfl
@[simp] theorem State.setReg_freeCount (s : State) (r : Reg) (v : Word) :
    (s.setReg r v).freeCount = s.freeCount := by
  unfold State.setReg; split <;> rfl

/-- `r0` reads 0 in every state (10 R21). -/
@[simp] theorem State.reg_zero (s : State) : s.reg 0#5 = 0#32 := by simp [State.reg]

/-- A write to `r0` is discarded (10 R21). -/
@[simp] theorem State.setReg_zero (s : State) (v : Word) : s.setReg 0#5 v = s := by simp [State.setReg]

/-- What a register reads after a register was written. -/
theorem State.reg_setReg (s : State) (d r : Reg) (v : Word) :
    (s.setReg d v).reg r = if r = d then (if d = 0#5 then 0#32 else v) else s.reg r := by
  unfold State.reg State.setReg
  by_cases hr : r = d
  · subst hr; by_cases hd : r = 0#5 <;> simp [hd]
  · have hn : d.toNat ≠ r.toNat := fun e => hr (BitVec.eq_of_toNat_eq e.symm)
    by_cases hd : d = 0#5
    · subst hd; simp [hr]
    · simp [hd, hr, Vector.getElem_set_ne _ _ hn]

/-- The destination register reads the value written, or 0 if it is `r0`. -/
theorem State.reg_setReg_same (s : State) (d : Reg) (v : Word) :
    (s.setReg d v).reg d = if d = 0#5 then 0#32 else v := by simp [State.reg_setReg]

/-- Every other register reads as before. -/
theorem State.reg_setReg_other (s : State) (d r : Reg) (v : Word) (h : r ≠ d) : (s.setReg d v).reg r = s.reg r := by
  simp [State.reg_setReg, h]

/-- Entry 0 of the register file keeps its value under every register write. -/
theorem State.regs_zero_setReg (s : State) (d : Reg) (v : Word) : (s.setReg d v).regs[0] = s.regs[0] := by
  unfold State.setReg
  split
  · rfl
  · rename_i h
    have hn : d.toNat ≠ 0 := fun e => h (BitVec.eq_of_toNat_eq e)
    exact Vector.getElem_set_ne d.isLt (by omega) hn

@[simp] theorem State.setPair_pc (s : State) (r : Reg) (v : DWord) : (s.setPair r v).pc = s.pc := by
  simp [State.setPair]
@[simp] theorem State.setPair_cr (s : State) (r : Reg) (v : DWord) : (s.setPair r v).cr = s.cr := by
  simp [State.setPair]
@[simp] theorem State.setPair_mem (s : State) (r : Reg) (v : DWord) : (s.setPair r v).mem = s.mem := by
  simp [State.setPair]
@[simp] theorem State.setPair_stored (s : State) (r : Reg) (v : DWord) : (s.setPair r v).stored = s.stored := by
  simp [State.setPair]
@[simp] theorem State.setPair_delay (s : State) (r : Reg) (v : DWord) : (s.setPair r v).delay = s.delay := by
  simp [State.setPair]
@[simp] theorem State.setPair_run (s : State) (r : Reg) (v : DWord) : (s.setPair r v).run = s.run := by
  simp [State.setPair]
@[simp] theorem State.setPair_breakpoints (s : State) (r : Reg) (v : DWord) :
    (s.setPair r v).breakpoints = s.breakpoints := by simp [State.setPair]
@[simp] theorem State.setPair_totInst (s : State) (r : Reg) (v : DWord) : (s.setPair r v).totInst = s.totInst := by
  simp [State.setPair]
@[simp] theorem State.setPair_cfg (s : State) (r : Reg) (v : DWord) : (s.setPair r v).cfg = s.cfg := by
  simp [State.setPair]
@[simp] theorem State.setPair_freeCount (s : State) (r : Reg) (v : DWord) :
    (s.setPair r v).freeCount = s.freeCount := by simp [State.setPair]

/-- The next register is another register. -/
theorem next_reg_ne (d : Reg) : d + 1#5 ≠ d := by bv_omega

/-- Every register outside a written pair reads as before. -/
theorem State.reg_setPair_other (s : State) (d r : Reg) (v : DWord) (h : r ≠ d) (h1 : r ≠ d + 1#5) :
    (s.setPair d v).reg r = s.reg r := by
  simp [State.setPair, State.reg_setReg, h, h1]

/-- The first register of a written pair reads the high word (10 R23), or 0 if it is `r0`. -/
theorem State.reg_setPair_high (s : State) (d : Reg) (v : DWord) :
    (s.setPair d v).reg d = if d = 0#5 then 0#32 else v.extractLsb' 32 32 := by
  have h := (next_reg_ne d).symm
  simp [State.setPair, State.reg_setReg, h]

/-- The second register of a written pair that is not at `r31` reads the low word (10 R23). -/
theorem State.reg_setPair_low (s : State) (d : Reg) (v : DWord) (h : d ≠ 31#5) :
    (s.setPair d v).reg (d + 1#5) = v.extractLsb' 0 32 := by
  have h0 : d + 1#5 ≠ 0#5 := by bv_omega
  simp [State.setPair, State.reg_setReg, h0]

/-! ## `setCrBit` -/

@[simp] theorem State.setCrBit_regs (s : State) (k : Nat) (b : Bool) : (s.setCrBit k b).regs = s.regs := rfl
@[simp] theorem State.setCrBit_pc (s : State) (k : Nat) (b : Bool) : (s.setCrBit k b).pc = s.pc := rfl
@[simp] theorem State.setCrBit_mem (s : State) (k : Nat) (b : Bool) : (s.setCrBit k b).mem = s.mem := rfl
@[simp] theorem State.setCrBit_stored (s : State) (k : Nat) (b : Bool) : (s.setCrBit k b).stored = s.stored := rfl
@[simp] theorem State.setCrBit_delay (s : State) (k : Nat) (b : Bool) : (s.setCrBit k b).delay = s.delay := rfl
@[simp] theorem State.setCrBit_run (s : State) (k : Nat) (b : Bool) : (s.setCrBit k b).run = s.run := rfl
@[simp] theorem State.setCrBit_breakpoints (s : State) (k : Nat) (b : Bool) :
    (s.setCrBit k b).breakpoints = s.breakpoints := rfl
@[simp] theorem State.setCrBit_totInst (s : State) (k : Nat) (b : Bool) : (s.setCrBit k b).totInst = s.totInst := rfl
@[simp] theorem State.setCrBit_cfg (s : State) (k : Nat) (b : Bool) : (s.setCrBit k b).cfg = s.cfg := rfl
@[simp] theorem State.setCrBit_freeCount (s : State) (k : Nat) (b : Bool) :
    (s.setCrBit k b).freeCount = s.freeCount := rfl
@[simp] theorem State.setCrBit_reg (s : State) (k : Nat) (b : Bool) (r : Reg) : (s.setCrBit k b).reg r = s.reg r := rfl

/-- A bit of a word after bit `k` was made `b`. -/
theorem withBit_getLsbD (w : Word) (k : Nat) (b : Bool) (j : Nat) (hk : k < 32) :
    (withBit w k b).getLsbD j = if j = k then b else w.getLsbD j := by
  unfold withBit
  by_cases hj : j < 32
  · by_cases h : j = k
    · subst h; cases b <;> simp [hj]
    · by_cases hlt : j < k
      · simp [hj, h, hlt]
      · have : j - k ≠ 0 := by omega
        cases b <;> simp [hj, h, hlt, this]
  · have h : j ≠ k := by omega
    rw [if_neg h, BitVec.getLsbD_of_ge _ _ (by omega), BitVec.getLsbD_of_ge _ _ (by omega)]

/-- A bit of `CR` after bit `k` was made `b`. -/
theorem State.setCrBit_getLsbD (s : State) (k : Nat) (b : Bool) (j : Nat) (hk : k < 32) :
    (s.setCrBit k b).cr.getLsbD j = if j = k then b else s.cr.getLsbD j := withBit_getLsbD _ _ _ _ hk

/-! ## Completing an instruction -/

@[simp] theorem State.retire_regs (s : State) : s.retire.regs = s.regs := rfl
@[simp] theorem State.retire_reg (s : State) (r : Reg) : s.retire.reg r = s.reg r := rfl
@[simp] theorem State.retire_pc (s : State) : s.retire.pc = s.nextPc := rfl
@[simp] theorem State.retire_cr (s : State) : s.retire.cr = s.cr := rfl
@[simp] theorem State.retire_mem (s : State) : s.retire.mem = s.mem := rfl
@[simp] theorem State.retire_stored (s : State) : s.retire.stored = s.stored := rfl
@[simp] theorem State.retire_delay (s : State) : s.retire.delay = none := rfl
@[simp] theorem State.retire_run (s : State) : s.retire.run = s.run := rfl
@[simp] theorem State.retire_breakpoints (s : State) : s.retire.breakpoints = s.breakpoints := rfl
@[simp] theorem State.retire_totInst (s : State) : s.retire.totInst = s.totInst + 1 := rfl
@[simp] theorem State.retire_cfg (s : State) : s.retire.cfg = s.cfg := rfl
@[simp] theorem State.retire_freeCount (s : State) : s.retire.freeCount = s.freeCount := rfl

/-- The next `pc` as one expression (44 R221). -/
theorem State.nextPc_eq (s : State) : s.nextPc = s.delay.getD (s.pc + 4#32) := by
  unfold State.nextPc; cases s.delay <;> rfl

@[simp] theorem State.nextPc_setReg (s : State) (r : Reg) (v : Word) : (s.setReg r v).nextPc = s.nextPc := by
  simp [State.nextPc_eq]
@[simp] theorem State.nextPc_setPair (s : State) (r : Reg) (v : DWord) : (s.setPair r v).nextPc = s.nextPc := by
  simp [State.nextPc_eq]
@[simp] theorem State.nextPc_setCrBit (s : State) (k : Nat) (b : Bool) : (s.setCrBit k b).nextPc = s.nextPc := rfl

@[simp] theorem State.halt_regs (s : State) : s.halt.regs = s.regs := rfl
@[simp] theorem State.halt_reg (s : State) (r : Reg) : s.halt.reg r = s.reg r := rfl
@[simp] theorem State.halt_pc (s : State) : s.halt.pc = s.pc + 4#32 := rfl
@[simp] theorem State.halt_cr (s : State) : s.halt.cr = s.cr := rfl
@[simp] theorem State.halt_mem (s : State) : s.halt.mem = s.mem := rfl
@[simp] theorem State.halt_stored (s : State) : s.halt.stored = s.stored := rfl
@[simp] theorem State.halt_delay (s : State) : s.halt.delay = none := rfl
@[simp] theorem State.halt_run (s : State) : s.halt.run = .stopped := rfl
@[simp] theorem State.halt_breakpoints (s : State) : s.halt.breakpoints = s.breakpoints := rfl
@[simp] theorem State.halt_totInst (s : State) : s.halt.totInst = s.totInst + 1 := rfl
@[simp] theorem State.halt_cfg (s : State) : s.halt.cfg = s.cfg := rfl
@[simp] theorem State.halt_freeCount (s : State) : s.halt.freeCount = s.freeCount := rfl

/-! ## `branch` -/

@[simp] theorem State.branch_pc (s : State) (n : Bool) (t : Word) :
    (s.branch n t).pc = if n then s.pc + 4#32 else t := by unfold State.branch; split <;> rfl
@[simp] theorem State.branch_delay (s : State) (n : Bool) (t : Word) :
    (s.branch n t).delay = if n then some t else s.delay := by unfold State.branch; split <;> rfl
@[simp] theorem State.branch_regs (s : State) (n : Bool) (t : Word) : (s.branch n t).regs = s.regs := by
  unfold State.branch; split <;> rfl
@[simp] theorem State.branch_reg (s : State) (n : Bool) (t : Word) (r : Reg) : (s.branch n t).reg r = s.reg r := by
  unfold State.branch; split <;> rfl
@[simp] theorem State.branch_cr (s : State) (n : Bool) (t : Word) : (s.branch n t).cr = s.cr := by
  unfold State.branch; split <;> rfl
@[simp] theorem State.branch_mem (s : State) (n : Bool) (t : Word) : (s.branch n t).mem = s.mem := by
  unfold State.branch; split <;> rfl
@[simp] theorem State.branch_stored (s : State) (n : Bool) (t : Word) : (s.branch n t).stored = s.stored := by
  unfold State.branch; split <;> rfl
@[simp] theorem State.branch_run (s : State) (n : Bool) (t : Word) : (s.branch n t).run = s.run := by
  unfold State.branch; split <;> rfl
@[simp] theorem State.branch_breakpoints (s : State) (n : Bool) (t : Word) :
    (s.branch n t).breakpoints = s.breakpoints := by unfold State.branch; split <;> rfl
@[simp] theorem State.branch_totInst (s : State) (n : Bool) (t : Word) :
    (s.branch n t).totInst = s.totInst + 1 := by unfold State.branch; split <;> rfl
@[simp] theorem State.branch_cfg (s : State) (n : Bool) (t : Word) : (s.branch n t).cfg = s.cfg := by
  unfold State.branch; split <;> rfl
@[simp] theorem State.branch_freeCount (s : State) (n : Bool) (t : Word) :
    (s.branch n t).freeCount = s.freeCount := by unfold State.branch; split <;> rfl

/-! ## `store` -/

@[simp] theorem State.store_regs (s : State) (a : Word) (n : Nat) (v : DWord) : (s.store a n v).regs = s.regs := rfl
@[simp] theorem State.store_reg (s : State) (a : Word) (n : Nat) (v : DWord) (r : Reg) :
    (s.store a n v).reg r = s.reg r := rfl
@[simp] theorem State.store_pc (s : State) (a : Word) (n : Nat) (v : DWord) : (s.store a n v).pc = s.pc := rfl
@[simp] theorem State.store_cr (s : State) (a : Word) (n : Nat) (v : DWord) : (s.store a n v).cr = s.cr := rfl
@[simp] theorem State.store_delay (s : State) (a : Word) (n : Nat) (v : DWord) : (s.store a n v).delay = s.delay := rfl
@[simp] theorem State.store_run (s : State) (a : Word) (n : Nat) (v : DWord) : (s.store a n v).run = s.run := rfl
@[simp] theorem State.store_breakpoints (s : State) (a : Word) (n : Nat) (v : DWord) :
    (s.store a n v).breakpoints = s.breakpoints := rfl
@[simp] theorem State.store_totInst (s : State) (a : Word) (n : Nat) (v : DWord) :
    (s.store a n v).totInst = s.totInst := rfl
@[simp] theorem State.store_cfg (s : State) (a : Word) (n : Nat) (v : DWord) : (s.store a n v).cfg = s.cfg := rfl
@[simp] theorem State.store_freeCount (s : State) (a : Word) (n : Nat) (v : DWord) :
    (s.store a n v).freeCount = s.freeCount := rfl
@[simp] theorem State.nextPc_store (s : State) (a : Word) (n : Nat) (v : DWord) : (s.store a n v).nextPc = s.nextPc :=
  rfl

/-! ## `byteAt` reads memory only -/

@[simp] theorem State.byteAt_setReg (s : State) (r : Reg) (v : Word) (a : Nat) :
    (s.setReg r v).byteAt a = s.byteAt a := by simp [State.byteAt]
@[simp] theorem State.byteAt_setPair (s : State) (r : Reg) (v : DWord) (a : Nat) :
    (s.setPair r v).byteAt a = s.byteAt a := by simp [State.byteAt]
@[simp] theorem State.byteAt_setCrBit (s : State) (k : Nat) (b : Bool) (a : Nat) :
    (s.setCrBit k b).byteAt a = s.byteAt a := rfl
@[simp] theorem State.byteAt_retire (s : State) (a : Nat) : s.retire.byteAt a = s.byteAt a := rfl
@[simp] theorem State.byteAt_halt (s : State) (a : Nat) : s.halt.byteAt a = s.byteAt a := rfl
@[simp] theorem State.byteAt_branch (s : State) (n : Bool) (t : Word) (a : Nat) :
    (s.branch n t).byteAt a = s.byteAt a := by simp [State.byteAt]

/-! ## The flags' registers -/

@[simp] theorem State.setCarryIf_false (s : State) (c : Bool) : s.setCarryIf false c = s := rfl
@[simp] theorem State.setCarryIf_true (s : State) (c : Bool) : s.setCarryIf true c = s.setCrBit 28 c := rfl

/-- At FLAG_STICKY = true no flag is cleared (10 R33). -/
@[simp] theorem State.settleFlags_eq (s : State) : s.settleFlags = s := by simp [State.settleFlags, flagSticky]

/-! ## Recording a condition -/

@[simp] theorem State.recordFlag_regs (s : State) (k : Nat) : (s.recordFlag k).regs = s.regs := by
  unfold State.recordFlag; split <;> simp
@[simp] theorem State.recordFlag_pc (s : State) (k : Nat) : (s.recordFlag k).pc = s.pc := by
  unfold State.recordFlag; split <;> simp
@[simp] theorem State.recordFlag_mem (s : State) (k : Nat) : (s.recordFlag k).mem = s.mem := by
  unfold State.recordFlag; split <;> simp
@[simp] theorem State.recordFlag_stored (s : State) (k : Nat) : (s.recordFlag k).stored = s.stored := by
  unfold State.recordFlag; split <;> simp
@[simp] theorem State.recordFlag_delay (s : State) (k : Nat) : (s.recordFlag k).delay = s.delay := by
  unfold State.recordFlag; split <;> simp
@[simp] theorem State.recordFlag_run (s : State) (k : Nat) : (s.recordFlag k).run = s.run := by
  unfold State.recordFlag; split <;> simp
@[simp] theorem State.recordFlag_breakpoints (s : State) (k : Nat) : (s.recordFlag k).breakpoints = s.breakpoints := by
  unfold State.recordFlag; split <;> simp
@[simp] theorem State.recordFlag_totInst (s : State) (k : Nat) : (s.recordFlag k).totInst = s.totInst := by
  unfold State.recordFlag; split <;> simp
@[simp] theorem State.recordFlag_cfg (s : State) (k : Nat) : (s.recordFlag k).cfg = s.cfg := by
  unfold State.recordFlag; split <;> simp
@[simp] theorem State.nextPc_recordFlag (s : State) (k : Nat) : (s.recordFlag k).nextPc = s.nextPc := by
  simp [State.nextPc_eq]
@[simp] theorem State.recordFlag_reg (s : State) (k : Nat) (r : Reg) : (s.recordFlag k).reg r = s.reg r := by
  simp [State.reg]

/-- In serial mode exactly bit `k` becomes 1 (60 R297). -/
theorem State.recordFlag_serial (s : State) (k : Nat) (h : s.cfg.mode = .serial) :
    s.recordFlag k = s.setCrBit k true := by
  unfold State.recordFlag; rw [h]; simp

/-- In either mode bits other than 12 and 13 stay (10 R31, R32, R35). -/
theorem State.recordFlag_other (s : State) (k j : Nat) (hk : k = 12 ∨ k = 13) (h12 : j ≠ 12) (h13 : j ≠ 13) :
    (s.recordFlag k).cr.getLsbD j = s.cr.getLsbD j := by
  unfold State.recordFlag
  split
  · rw [State.settleFlags_eq, State.setCrBit_getLsbD _ _ _ _ (by omega), if_neg (by omega)]
  · show BitVec.getLsbD (State.setCrBit _ _ _).cr j = _
    rw [State.setCrBit_getLsbD _ _ _ _ (by omega), if_neg h13, State.setCrBit_getLsbD _ _ _ _ (by omega), if_neg h12]

/-! ## A floating-point result -/

@[simp] theorem State.setFp_single (s : State) (d : Reg) (w : Word) : s.setFp d (.single w) = s.setReg d w := rfl
@[simp] theorem State.setFp_double (s : State) (d : Reg) (w : DWord) : s.setFp d (.double w) = s.setPair d w := rfl

/-! ## Reset -/

@[simp] theorem State.reset_pc : State.reset.pc = 0#32 := rfl
@[simp] theorem State.reset_cr : State.reset.cr = 0x40000001#32 := rfl
@[simp] theorem State.reset_mem : State.reset.mem = [] := rfl
@[simp] theorem State.reset_stored : State.reset.stored = [] := rfl
@[simp] theorem State.reset_delay : State.reset.delay = none := rfl
@[simp] theorem State.reset_run : State.reset.run = .running := rfl
@[simp] theorem State.reset_breakpoints : State.reset.breakpoints = [] := rfl
@[simp] theorem State.reset_totInst : State.reset.totInst = 0 := rfl

/-! ## The next instruction's word -/

@[simp] theorem State.withFetchWord_pc (s : State) (n w : Nat) : (s.withFetchWord n w).pc = s.pc := rfl
@[simp] theorem State.withFetchWord_regs (s : State) (n w : Nat) : (s.withFetchWord n w).regs = s.regs := rfl
@[simp] theorem State.withFetchWord_cr (s : State) (n w : Nat) : (s.withFetchWord n w).cr = s.cr := rfl
@[simp] theorem State.withFetchWord_delay (s : State) (n w : Nat) : (s.withFetchWord n w).delay = s.delay := rfl
@[simp] theorem State.withFetchWord_run (s : State) (n w : Nat) : (s.withFetchWord n w).run = s.run := rfl

end Sys2Proof.Machine
end

