-- ==== Sys2Proof/Laws/Memory.lean ====
section
/-! SUPPORT. The laws of memory: reading after writing, the canonical form, the range of the entries, the record of
stored addresses, and the byte lists of values in the two byte orders. -/

namespace Sys2Proof.Machine

/-! ## One byte -/

/-- Writing an address leaves every other address as before. -/
theorem Memory.read_write_other (m : Memory) {a x : Nat} (b : Byte) (h : x ≠ a) :
    Memory.read (Memory.write m a b) x = Memory.read m x := by
  induction m with
  | nil => unfold Memory.write; split <;> simp [Memory.read, h.symm]
  | cons c t ih =>
    obtain ⟨y, c⟩ := c
    unfold Memory.write
    split
    · split <;> simp [Memory.read, h.symm]
    · split
      · rename_i hy; subst hy
        split <;> simp [Memory.read, h.symm]
      · simp [Memory.read, ih]

/-- An address below every entry is not listed. -/
theorem Memory.read_below (m : Memory) (a : Nat) (h : ∀ c ∈ m, a < c.1) : Memory.read m a = blankByte := by
  cases m with
  | nil => rfl
  | cons c t =>
    induction t generalizing c with
    | nil =>
      have := h c (by simp)
      unfold Memory.read; rw [if_neg (by omega)]; rfl
    | cons d t ih =>
      have hc := h c (by simp)
      unfold Memory.read; rw [if_neg (by omega)]
      exact ih d (fun e he => h e (List.mem_cons_of_mem _ he))

/-- What was written is read, in a memory in canonical form. -/
theorem Memory.read_write_same (m : Memory) (a : Nat) (b : Byte) (h : Memory.wf m) :
    Memory.read (Memory.write m a b) a = b := by
  induction m with
  | nil =>
    unfold Memory.write
    split
    · rename_i hb; simp [Memory.read, hb]
    · simp [Memory.read]
  | cons c t ih =>
    obtain ⟨y, c⟩ := c
    have hs := List.pairwise_cons.1 h.1
    have ht : Memory.wf t := ⟨hs.2, fun d hd => h.2 d (List.mem_cons_of_mem _ hd)⟩
    unfold Memory.write
    split
    · rename_i hlt
      split
      · rename_i hb; subst hb
        refine Memory.read_below _ _ (fun d hd => ?_)
        rcases List.mem_cons.1 hd with rfl | hd
        · exact hlt
        · exact lt_trans hlt (hs.1 d hd)
      · simp [Memory.read]
    · split
      · rename_i hy; subst hy
        split
        · rename_i hb; subst hb
          exact Memory.read_below _ _ hs.1
        · simp [Memory.read]
      · rename_i hne
        simp [Memory.read, Ne.symm hne, ih ht]

/-- Every entry of a written memory is the one written or was there before. -/
theorem Memory.mem_write (m : Memory) (a : Nat) (b : Byte) (c : Host.Cell) (h : c ∈ Memory.write m a b) :
    c = (a, b) ∧ b ≠ blankByte ∨ c ∈ m := by
  induction m with
  | nil => unfold Memory.write at h; split at h <;> simp_all
  | cons d t ih =>
    obtain ⟨y, d⟩ := d
    unfold Memory.write at h
    split at h
    · split at h <;> simp_all
    · split at h
      · split at h
        · exact .inr (List.mem_cons_of_mem _ h)
        · rcases List.mem_cons.1 h with rfl | h
          · exact .inl ⟨rfl, by assumption⟩
          · exact .inr (List.mem_cons_of_mem _ h)
      · rcases List.mem_cons.1 h with rfl | h
        · exact .inr (by simp)
        · exact (ih h).imp_right (List.mem_cons_of_mem _)

/-- Writing keeps the canonical form. -/
theorem Memory.write_wf (m : Memory) (a : Nat) (b : Byte) (h : Memory.wf m) : Memory.wf (Memory.write m a b) := by
  refine ⟨?_, fun c hc => ?_⟩
  · induction m with
    | nil => unfold Memory.write; split <;> simp
    | cons c t ih =>
      obtain ⟨y, c⟩ := c
      have hs := List.pairwise_cons.1 h.1
      have ht : Memory.wf t := ⟨hs.2, fun d hd => h.2 d (List.mem_cons_of_mem _ hd)⟩
      unfold Memory.write
      split
      · rename_i hlt
        split
        · exact h.1
        · refine List.pairwise_cons.2 ⟨fun d hd => ?_, h.1⟩
          rcases List.mem_cons.1 hd with rfl | hd
          · exact hlt
          · exact lt_trans hlt (hs.1 d hd)
      · split
        · rename_i hy; subst hy
          split
          · exact hs.2
          · exact List.pairwise_cons.2 ⟨hs.1, hs.2⟩
        · refine List.pairwise_cons.2 ⟨fun d hd => ?_, ih ht⟩
          rcases Memory.mem_write _ _ _ _ hd with ⟨rfl, -⟩ | hd
          · show y < a; omega
          · exact hs.1 d hd
  · rcases Memory.mem_write _ _ _ _ hc with ⟨rfl, hb⟩ | hc
    · exact hb
    · exact h.2 c hc

/-! ## Byte lists -/

/-- As many bytes are read as asked for. -/
@[simp] theorem Memory.readBytes_length (m : Memory) (a n : Nat) : (Memory.readBytes m a n).length = n := by
  induction n generalizing a with
  | zero => rfl
  | succ n ih => simp [Memory.readBytes, ih]

/-- Byte `k` of those read from `a` on. -/
theorem Memory.readBytes_getElem? (m : Memory) (a n k : Nat) (h : k < n) :
    (Memory.readBytes m a n)[k]? = some (Memory.read m (a + k)) := by
  induction n generalizing a k with
  | zero => omega
  | succ n ih =>
    cases k with
    | zero => rfl
    | succ k =>
      rw [Memory.readBytes, List.getElem?_cons_succ, ih (a + 1) k (by omega)]
      congr 2; omega

/-- Writing bytes leaves every address outside them as before. -/
theorem Memory.read_writeBytes_other (m : Memory) (a : Nat) (bs : List Byte) (x : Nat)
    (h : x < a ∨ a + bs.length ≤ x) : Memory.read (Memory.writeBytes m a bs) x = Memory.read m x := by
  induction bs generalizing m a with
  | nil => rfl
  | cons b bs ih =>
    simp only [List.length_cons] at h
    rw [Memory.writeBytes, ih _ _ (by omega), Memory.read_write_other _ _ (by omega)]

/-- Writing bytes keeps the canonical form. -/
theorem Memory.writeBytes_wf (m : Memory) (a : Nat) (bs : List Byte) (h : Memory.wf m) :
    Memory.wf (Memory.writeBytes m a bs) := by
  induction bs generalizing m a with
  | nil => exact h
  | cons b bs ih => exact ih _ _ (Memory.write_wf _ _ _ h)

/-- The bytes written are read, in a memory in canonical form. -/
theorem Memory.read_writeBytes_same (m : Memory) (a : Nat) (bs : List Byte) (k : Nat) (b : Byte) (h : Memory.wf m)
    (hk : bs[k]? = some b) : Memory.read (Memory.writeBytes m a bs) (a + k) = b := by
  induction bs generalizing m a k with
  | nil => simp at hk
  | cons c bs ih =>
    cases k with
    | zero =>
      obtain rfl : c = b := by simpa using hk
      rw [Memory.writeBytes, Memory.read_writeBytes_other _ _ _ _ (by omega)]
      exact Memory.read_write_same _ _ _ h
    | succ k =>
      rw [Memory.writeBytes, show a + (k + 1) = a + 1 + k by omega]
      exact ih _ _ _ (Memory.write_wf _ _ _ h) (by simpa using hk)

/-- Writing bytes below a bound keeps every entry below it. -/
theorem Memory.writeBytes_range (m : Memory) (a : Nat) (bs : List Byte) (N : Nat) (h : ∀ c ∈ m, c.1 < N)
    (hb : a + bs.length ≤ N) : ∀ c ∈ Memory.writeBytes m a bs, c.1 < N := by
  induction bs generalizing m a with
  | nil => exact h
  | cons b bs ih =>
    simp only [List.length_cons] at hb
    refine ih _ _ (fun c hc => ?_) (by omega)
    rcases Memory.mem_write _ _ _ _ hc with ⟨rfl, -⟩ | hc
    · show a < N; omega
    · exact h c hc

/-! ## The record of stored addresses -/

/-- What is in a list with an address added. -/
@[simp] theorem mem_insertAddr (l : List Nat) (a x : Nat) : x ∈ insertAddr l a ↔ x = a ∨ x ∈ l := by
  induction l with
  | nil => simp [insertAddr]
  | cons y t ih =>
    unfold insertAddr
    split
    · simp
    · split
      · rename_i h; subst h; simp
      · simp [ih]; tauto

/-- Adding an address keeps the list strictly rising. -/
theorem insertAddr_sorted (l : List Nat) (a : Nat) (h : l.Pairwise (· < ·)) : (insertAddr l a).Pairwise (· < ·) := by
  induction l with
  | nil => simp [insertAddr]
  | cons y t ih =>
    have hs := List.pairwise_cons.1 h
    unfold insertAddr
    split
    · rename_i hlt
      refine List.pairwise_cons.2 ⟨fun x hx => ?_, h⟩
      rcases List.mem_cons.1 hx with rfl | hx
      · exact hlt
      · exact lt_trans hlt (hs.1 x hx)
    · split
      · exact h
      · refine List.pairwise_cons.2 ⟨fun x hx => ?_, ih hs.2⟩
        rcases (mem_insertAddr _ _ _).1 hx with rfl | hx
        · omega
        · exact hs.1 x hx

/-- What is in a list with a run of addresses added. -/
theorem mem_insertAddrs (l : List Nat) (a n x : Nat) : x ∈ insertAddrs l a n ↔ x ∈ l ∨ (a ≤ x ∧ x < a + n) := by
  induction n generalizing l a with
  | zero => simp [insertAddrs]
  | succ n ih =>
    rw [insertAddrs, ih, mem_insertAddr]
    constructor
    · rintro ((rfl | h) | h)
      · right; omega
      · exact .inl h
      · right; omega
    · rintro (h | h)
      · exact .inl (.inr h)
      · by_cases hx : x = a
        · exact .inl (.inl hx)
        · right; omega

/-- Adding a run of addresses keeps the list strictly rising. -/
theorem insertAddrs_sorted (l : List Nat) (a n : Nat) (h : l.Pairwise (· < ·)) :
    (insertAddrs l a n).Pairwise (· < ·) := by
  induction n generalizing l a with
  | zero => exact h
  | succ n ih => exact ih _ _ (insertAddr_sorted _ _ h)

/-! ## Values as bytes (20 R52, R53) -/

@[simp] theorem bytesLittle_length (n : Nat) (v : DWord) : (bytesLittle n v).length = n := by
  induction n generalizing v with
  | zero => rfl
  | succ n ih => simp [bytesLittle, ih]

@[simp] theorem bytesOf_length (le : Bool) (n : Nat) (v : DWord) : (bytesOf le n v).length = n := by
  unfold bytesOf; split <;> simp

/-- Byte `k` of a value, least significant first, is its bits `8k+7:8k`. -/
theorem bytesLittle_getElem? (n : Nat) (v : DWord) (k : Nat) (h : k < n) :
    (bytesLittle n v)[k]? = some (v.extractLsb' (8 * k) 8) := by
  induction n generalizing v k with
  | zero => omega
  | succ n ih =>
    cases k with
    | zero =>
      simp only [bytesLittle, List.getElem?_cons_zero, Option.some.injEq]
      apply BitVec.eq_of_getLsbD_eq; intro j hj; simp [hj]
    | succ k =>
      rw [bytesLittle, List.getElem?_cons_succ, ih _ k (by omega), Option.some.injEq]
      apply BitVec.eq_of_getLsbD_eq; intro j hj
      simp [hj, show 8 + (8 * k + j) = 8 * (k + 1) + j by omega]

/-- Byte `k` of a value in memory order. -/
theorem bytesOf_getElem? (le : Bool) (n : Nat) (v : DWord) (k : Nat) (h : k < n) :
    (bytesOf le n v)[k]? = some (v.extractLsb' (8 * (if le then k else n - 1 - k)) 8) := by
  unfold bytesOf
  cases le with
  | true => simpa using bytesLittle_getElem? n v k h
  | false =>
    rw [if_neg (by simp), List.getElem?_reverse (by simpa using h), bytesLittle_length]
    simpa using bytesLittle_getElem? n v (n - 1 - k) (by omega)

/-- A bit of the value of bytes given least significant first. -/
theorem assembleLittle_getLsbD (bs : List Byte) (j : Nat) (h : j < 64) :
    (assembleLittle bs).getLsbD j = ((bs[j / 8]?).getD 0#8).getLsbD (j % 8) := by
  induction bs generalizing j with
  | nil => simp [assembleLittle]
  | cons b bs ih =>
    rw [assembleLittle, BitVec.getLsbD_or, BitVec.getLsbD_shiftLeft]
    by_cases hj : j < 8
    · simp [h, hj, show j / 8 = 0 by omega, Nat.mod_eq_of_lt hj]
    · rw [ih (j - 8) (by omega), show j / 8 = (j - 8) / 8 + 1 by omega, List.getElem?_cons_succ,
        show (j - 8) % 8 = j % 8 by omega]
      simp [h, hj, BitVec.getLsbD_of_ge b j (by omega)]

/-- The value of the bytes of a value is its low `8n` bits. -/
theorem assemble_bytesOf (le : Bool) (n : Nat) (v : DWord) :
    assemble le (bytesOf le n v) = (v.setWidth (8 * n)).setWidth 64 := by
  have key : assembleLittle (bytesLittle n v) = (v.setWidth (8 * n)).setWidth 64 := by
    apply BitVec.eq_of_getLsbD_eq; intro j hj
    rw [assembleLittle_getLsbD _ _ hj]
    by_cases h : j / 8 < n
    · rw [bytesLittle_getElem? n v (j / 8) h]
      have h8 : j % 8 < 8 := Nat.mod_lt _ (by omega)
      have hj2 : j < 8 * n := by omega
      simp [h8, hj, hj2, show 8 * (j / 8) + j % 8 = j by omega]
    · rw [List.getElem?_eq_none (by simpa using h)]
      have hj2 : ¬ j < 8 * n := by omega
      simp [hj2]
  unfold assemble bytesOf
  cases le <;> simp [key]

end Sys2Proof.Machine
end

