-- ==== Sys2Proof/Laws/Ops.lean ====
section
/-! SUPPORT. What each shared operation answers: registers and pairs, accesses to memory, completing an instruction,
exceptions, flags and transfers of control. Later proofs cite these and do not unfold the operations. -/

namespace Sys2Proof.Machine

/-! ## Frames -/

theorem KeepsHost.refl (s : State) : KeepsHost s s := ⟨rfl, rfl⟩
theorem KeepsMemory.refl (s : State) : KeepsMemory s s := ⟨fun _ => rfl, rfl⟩
theorem KeepsCr.refl (s : State) : KeepsCr s s := ⟨rfl, rfl⟩
theorem KeepsRegs.refl (s : State) (ds : List Reg) : KeepsRegs s s ds := fun _ _ => rfl

/-- `t` agrees with `s` on everything but the general registers, and entry 0 of the register file is the same. -/
def OnlyRegs (s t : State) : Prop := t = { s with regs := t.regs } ∧ t.regs[0] = s.regs[0]

theorem OnlyRegs.refl (s : State) : OnlyRegs s s := ⟨rfl, rfl⟩

theorem OnlyRegs.trans {s t u : State} (h : OnlyRegs s t) (g : OnlyRegs t u) : OnlyRegs s u := by
  refine ⟨?_, g.2.trans h.2⟩
  obtain ⟨h, -⟩ := h
  obtain ⟨g, -⟩ := g
  rw [g, h]

theorem OnlyRegs.setReg (s : State) (d : Reg) (v : Word) : OnlyRegs s (s.setReg d v) := by
  refine ⟨?_, State.regs_zero_setReg s d v⟩
  unfold State.setReg; split <;> rfl

theorem OnlyRegs.setPair (s : State) (d : Reg) (v : DWord) : OnlyRegs s (s.setPair d v) :=
  (OnlyRegs.setReg s d _).trans (OnlyRegs.setReg _ _ _)

theorem OnlyRegs.setFp (s : State) (d : Reg) (b : FpBits) : OnlyRegs s (s.setFp d b) := by
  cases b
  · exact OnlyRegs.setReg _ _ _
  · exact OnlyRegs.setPair _ _ _

/-- Completing an instruction advances. -/
theorem retire_advances (s : State) : Advances s s.retire :=
  ⟨by simp [State.nextPc_eq], rfl, rfl, rfl, rfl, rfl⟩

/-! ## Writing registers -/

/-- Writing one register and completing. -/
theorem setReg_retire (s : State) (d : Reg) (v : Word) : WritesReg s (s.setReg d v).retire d v := by
  refine ⟨by simp [State.reg_setReg_same], fun r hr => ?_, by simp [KeepsCr], by simp [KeepsMemory],
    by simp [State.nextPc_eq], rfl, by simp, by simp, by simp [KeepsHost]⟩
  have : r ≠ d := by simpa using hr
  simp [State.reg_setReg_other _ _ _ _ this]

/-- Writing a pair that is not at `r31` and completing. -/
theorem setPair_retire (s : State) (d : Reg) (v : DWord) (h : d ≠ 31#5) :
    WritesPair s (s.setPair d v).retire d v := by
  refine ⟨⟨fun h0 => ?_, ?_⟩, fun r hr => ?_, by simp [KeepsCr], by simp [KeepsMemory],
    by simp [State.nextPc_eq], rfl, by simp, by simp, by simp [KeepsHost]⟩
  · simp [State.reg_setPair_high, h0]
  · simp [State.reg_setPair_low _ _ _ h]
  · have h2 : r ≠ d ∧ r ≠ d + 1#5 := by simpa using hr
    simp [State.reg_setPair_other _ _ _ _ h2.1 h2.2]

/-- `writeBack` writes the register and nothing else. -/
theorem writeBack_writesReg (s : State) (d : Reg) (v : Word) : ∃ t, writeBack s d v = .next t ∧ WritesReg s t d v :=
  ⟨_, rfl, setReg_retire s d v⟩

/-- `finishInteger` writes the register and nothing else. -/
theorem finishInteger_writesReg (s : State) (d : Reg) (v : Word) :
    ∃ t, finishInteger s d v = .next t ∧ WritesReg s t d v :=
  ⟨_, rfl, by rw [State.settleFlags_eq]; exact setReg_retire s d v⟩

/-- A bit of the word of two half words. -/
theorem getLsbD_append_halves (x y : Half) (j : Nat) :
    BitVec.getLsbD (w := 32) (x ++ y) j = if j < 16 then y.getLsbD j else x.getLsbD (j - 16) := by
  rw [BitVec.getLsbD_append]

/-- A bit of the double word of two words. -/
theorem getLsbD_append_words (x y : Word) (j : Nat) :
    BitVec.getLsbD (w := 64) (x ++ y) j = if j < 32 then y.getLsbD j else x.getLsbD (j - 32) := by
  rw [BitVec.getLsbD_append]

/-- A bit of the half word of two bytes. -/
theorem getLsbD_append_two (x y : Byte) (j : Nat) :
    BitVec.getLsbD (w := 16) (x ++ y) j = if j < 8 then y.getLsbD j else x.getLsbD (j - 8) := by
  rw [BitVec.getLsbD_append]

/-- A bit of the word of four bytes. -/
theorem getLsbD_append_four (x y z v : Byte) (j : Nat) :
    BitVec.getLsbD (w := 32) (x ++ y ++ z ++ v) j =
      if j < 8 then v.getLsbD j else if j < 16 then z.getLsbD (j - 8)
      else if j < 24 then y.getLsbD (j - 16) else x.getLsbD (j - 24) := by
  rw [BitVec.getLsbD_append, BitVec.getLsbD_append, BitVec.getLsbD_append]
  by_cases h : j < 8
  · simp [h]
  · by_cases h2 : j < 16
    · simp [h, h2, show j - 8 < 8 by omega]
    · by_cases h3 : j < 24
      · simp [h, h2, h3, show ¬ j - 8 < 8 by omega, show j - 16 < 8 by omega, show j - 8 - 8 = j - 16 by omega]
      · simp [h, h2, h3, show ¬ j - 8 < 8 by omega, show ¬ j - 8 - 8 < 8 by omega,
          show j - 8 - 8 - 8 = j - 24 by omega]

/-- The word of two half words, as the operands join them. -/
theorem joinHalves_eq (x y : Half) : joinHalves x y = x ++ y := by
  apply BitVec.eq_of_getLsbD_eq; intro j hj
  rw [getLsbD_append_halves]
  unfold joinHalves
  by_cases h : j < 16
  · simp [h, hj]
  · simp [h, hj, BitVec.getLsbD_of_ge y j (by omega)]

/-- A pair's value is its two registers, the first the high word. -/
theorem State.pair_eq (s : State) (r : Reg) : s.pair r = s.reg r ++ s.reg (r + 1#5) := by
  apply BitVec.eq_of_getLsbD_eq; intro j hj
  rw [getLsbD_append_words]
  unfold State.pair joinWords
  by_cases h : j < 32
  · simp [h, hj]
  · simp [h, hj, BitVec.getLsbD_of_ge _ j (show 32 ≤ j by omega)]

/-- The operand's bits stand where the rule says (43 R191). -/
theorem State.fpBits_eq (s : State) (p : Prec) (r : Reg) : s.fpBits p r = operandBits s p r := by
  cases p
  · rfl
  · simp [State.fpBits, operandBits, State.pair_eq]

/-- A floating-point result written where its register is no pair at `r31`. -/
theorem setFp_retire (s : State) (d : Reg) (b : FpBits) (h : b.prec = .double → d ≠ 31#5) :
    WritesFp s (s.setFp d b).retire d b := by
  cases b
  · exact setReg_retire s d _
  · exact setPair_retire s d _ (h rfl)

/-! ## Pairs at `r31` -/

/-- No pair at `r31`: what follows. -/
theorem guardPairs_ok (ps : List Reg) (s : State) (k : Result) (h : ps.all (· != 31#5) = true) :
    guardPairs ps s k = k := by
  unfold guardPairs
  rw [if_neg]
  intro hc
  obtain ⟨r, hr, he⟩ := List.any_eq_true.1 hc
  have := List.all_eq_true.1 h r hr
  simp_all

/-- A pair at `r31`: the fault. -/
theorem guardPairs_fault (ps : List Reg) (s : State) (k : Result) (h : ps.all (· != 31#5) = false) :
    guardPairs ps s k = .fault (.pairAtR31 s.pc) := by
  unfold guardPairs
  rw [if_pos]
  simpa using h

/-- A guarded meaning that answers a next state had no pair at `r31`. -/
theorem guardPairs_next {ps : List Reg} {s t : State} {k : Result} (h : guardPairs ps s k = .next t) :
    ps.all (· != 31#5) = true ∧ k = .next t := by
  cases hp : ps.all (· != 31#5)
  · rw [guardPairs_fault _ _ _ hp] at h; cases h
  · rw [guardPairs_ok _ _ _ hp] at h; exact ⟨rfl, h⟩

/-! ## Accesses -/

/-- The check of an access out of range. -/
theorem checkAccess_range (s : State) (a : Word) (n : Nat) (h : ¬ InRange a n) :
    checkAccess s a n = .error (.addressOutOfRange s.pc a) := by
  unfold InRange at h
  unfold checkAccess memSize
  rw [if_pos (by omega)]

/-- The check of an access of 1, 2, 4 or 8 bytes in range that is not aligned. -/
theorem checkAccess_misaligned (s : State) (a : Word) (n : Nat) (hn : n ∈ [1, 2, 4, 8]) (hr : InRange a n)
    (h : ¬ IsAligned a n) : checkAccess s a n = .error (.misaligned s.pc a n) := by
  unfold InRange at hr
  unfold checkAccess memSize
  rw [if_neg (by omega), if_pos]
  simp only [List.mem_cons, List.not_mem_nil, or_false] at hn
  rcases hn with rfl | rfl | rfl | rfl <;> simp [IsAligned, alignment] at h ⊢ <;> omega

/-- The check of an access of 1, 2, 4 or 8 bytes in range and aligned. -/
theorem checkAccess_ok (s : State) (a : Word) (n : Nat) (hn : n ∈ [1, 2, 4, 8]) (hr : InRange a n)
    (h : IsAligned a n) : checkAccess s a n = .ok () := by
  unfold InRange at hr
  unfold checkAccess memSize
  rw [if_neg (by omega), if_neg]
  simp only [List.mem_cons, List.not_mem_nil, or_false] at hn
  rcases hn with rfl | rfl | rfl | rfl <;> simp [IsAligned, alignment] at h ⊢ <;> omega

/-- A byte access needs no alignment. -/
theorem isAligned_one (a : Word) : IsAligned a 1 := ⟨by omega, by omega⟩

/-- An access that passes its check is in range. -/
theorem checkAccess_inv {s : State} {a : Word} {n : Nat} (h : checkAccess s a n = .ok ()) : InRange a n := by
  by_contra hr
  rw [checkAccess_range _ _ _ hr] at h; cases h

/-- `MemRead` where the check passes. -/
theorem memRead_ok {s : State} {a : Word} {n : Nat} (h : checkAccess s a n = .ok ()) :
    memRead s a n = .ok (assemble s.le (s.mem.readBytes a.toNat n)) := by
  unfold memRead; rw [h]

/-- `MemRead` where the check fails. -/
theorem memRead_error {s : State} {a : Word} {n : Nat} {f : Fault} (h : checkAccess s a n = .error f) :
    memRead s a n = .error f := by
  unfold memRead; rw [h]

/-- `MemWrite` where the check passes. -/
theorem memWrite_ok {s : State} {a : Word} {n : Nat} (v : DWord) (h : checkAccess s a n = .ok ()) :
    memWrite s a n v = .ok (s.store a n v) := by
  unfold memWrite; rw [h]

/-- `MemWrite` where the check fails. -/
theorem memWrite_error {s : State} {a : Word} {n : Nat} {f : Fault} (v : DWord) (h : checkAccess s a n = .error f) :
    memWrite s a n v = .error f := by
  unfold memWrite; rw [h]

/-- A read that succeeds was in range. -/
theorem memRead_inv {s : State} {a : Word} {n : Nat} {v : DWord} (h : memRead s a n = .ok v) : InRange a n := by
  cases hc : checkAccess s a n with
  | error f => rw [memRead_error hc] at h; cases h
  | ok u => exact checkAccess_inv hc

/-- A write that succeeds was in range and is the store. -/
theorem memWrite_inv {s t : State} {a : Word} {n : Nat} {v : DWord} (h : memWrite s a n v = .ok t) :
    InRange a n ∧ t = s.store a n v := by
  cases hc : checkAccess s a n with
  | error f => rw [memWrite_error _ hc] at h; cases h
  | ok u => rw [memWrite_ok _ hc] at h; cases h; exact ⟨checkAccess_inv hc, rfl⟩

/-- The value of one byte read. -/
theorem assemble_one (s : State) (a : Nat) : (assemble s.le (s.mem.readBytes a 1)).setWidth 8 = s.byteAt a := by
  cases h : s.le <;>
    simp [assemble, Memory.readBytes, assembleLittle, State.byteAt]

/-- A bit of a value read. -/
theorem assemble_readBytes_getLsbD (s : State) (a n j : Nat) (hj : j < 8 * n) (h64 : j < 64) :
    (assemble s.le (s.mem.readBytes a n)).getLsbD j =
      (s.byteAt (a + if s.le then j / 8 else n - 1 - j / 8)).getLsbD (j % 8) := by
  unfold assemble
  rw [assembleLittle_getLsbD _ _ h64]
  cases h : s.le
  · rw [if_neg (by simp), List.getElem?_reverse (by simp; omega), Memory.readBytes_length,
      Memory.readBytes_getElem? _ _ _ _ (by omega)]
    simp [State.byteAt]
  · rw [if_pos rfl, Memory.readBytes_getElem? _ _ _ _ (by omega)]
    simp [State.byteAt]

/-- The value of a half word read, in both byte orders. -/
theorem assemble_two (s : State) (a : Nat) : (assemble s.le (s.mem.readBytes a 2)).setWidth 16 = halfAt s a := by
  apply BitVec.eq_of_getLsbD_eq; intro j hj
  rw [BitVec.getLsbD_setWidth, assemble_readBytes_getLsbD s a 2 j (by omega) (by omega)]
  unfold halfAt
  cases h : s.le <;> simp only [if_true, if_false, Bool.false_eq_true, getLsbD_append_two] <;>
    by_cases h8 : j < 8
  · simp [hj, h8, show j / 8 = 0 by omega, Nat.mod_eq_of_lt h8]
  · simp [hj, h8, show j / 8 = 1 by omega, show j % 8 = j - 8 by omega]
  · simp [hj, h8, show j / 8 = 0 by omega, Nat.mod_eq_of_lt h8]
  · simp [hj, h8, show j / 8 = 1 by omega, show j % 8 = j - 8 by omega]

/-- The value of a word read, in both byte orders. -/
theorem assemble_four (s : State) (a : Nat) : (assemble s.le (s.mem.readBytes a 4)).setWidth 32 = wordAt s a := by
  apply BitVec.eq_of_getLsbD_eq; intro j hj
  rw [BitVec.getLsbD_setWidth, assemble_readBytes_getLsbD s a 4 j (by omega) (by omega)]
  unfold wordAt
  cases h : s.le <;> simp only [if_true, if_false, Bool.false_eq_true, getLsbD_append_four] <;>
    · by_cases h8 : j < 8
      · simp [hj, h8, show j / 8 = 0 by omega, Nat.mod_eq_of_lt h8]
      · by_cases h16 : j < 16
        · simp [hj, h8, h16, show j / 8 = 1 by omega, show j % 8 = j - 8 by omega]
        · by_cases h24 : j < 24
          · simp [hj, h8, h16, h24, show j / 8 = 2 by omega, show j % 8 = j - 16 by omega]
          · simp [hj, h8, h16, h24, show j / 8 = 3 by omega, show j % 8 = j - 24 by omega]

/-- The value of a double word read, in both byte orders. -/
theorem assemble_eight (s : State) (a : Nat) : assemble s.le (s.mem.readBytes a 8) = dwordAt s a := by
  have hw : ∀ b j, j < 32 → (wordAt s b).getLsbD j =
      (s.byteAt (b + if s.le then j / 8 else 3 - j / 8)).getLsbD (j % 8) := by
    intro b j hj
    rw [← assemble_four, BitVec.getLsbD_setWidth, assemble_readBytes_getLsbD s b 4 j (by omega) (by omega)]
    simp [hj]
  apply BitVec.eq_of_getLsbD_eq; intro j hj
  rw [assemble_readBytes_getLsbD s a 8 j (by omega) hj]
  unfold dwordAt
  cases h : s.le <;> simp only [if_true, if_false, Bool.false_eq_true, getLsbD_append_words] <;>
    by_cases h32 : j < 32
  · rw [if_pos h32, hw _ _ h32]; simp only [h, Bool.false_eq_true, if_false]; congr 2; omega
  · rw [if_neg h32, hw _ _ (by omega)]; simp only [h, Bool.false_eq_true, if_false]
    rw [show (j - 32) % 8 = j % 8 by omega]; congr 2; omega
  · rw [if_pos h32, hw _ _ h32]; simp only [h, if_true]
  · rw [if_neg h32, hw _ _ (by omega)]; simp only [h, if_true]
    rw [show (j - 32) % 8 = j % 8 by omega]; congr 2; omega

/-! ## Loads and stores -/

/-- A load in range and aligned writes the extended value to its register and nothing else. -/
theorem load_writesReg (s : State) (n : Nat) (ext : DWord → Word) (d : Reg) (a : Word) (hn : n ∈ [1, 2, 4, 8])
    (hr : InRange a n) (ha : IsAligned a n) :
    ∃ t, load s n ext d a = .next t ∧ WritesReg s t d (ext (assemble s.le (s.mem.readBytes a.toNat n))) := by
  unfold load
  rw [memRead_ok (checkAccess_ok s a n hn hr ha)]
  exact writeBack_writesReg _ _ _

/-- A load whose check fails is that fault. -/
theorem load_fault {s : State} {n : Nat} {a : Word} {f : Fault} (ext : DWord → Word) (d : Reg)
    (h : checkAccess s a n = .error f) : load s n ext d a = .fault f := by
  unfold load; rw [memRead_error h]

/-- A store whose check fails is that fault. -/
theorem storeBytes_fault {s : State} {n : Nat} {a : Word} {f : Fault} (v : DWord) (h : checkAccess s a n = .error f) :
    storeBytes s n v a = .fault f := by
  unfold storeBytes; rw [memWrite_error _ h]

/-- The bytes a store leaves in memory, the other bytes and the record of stored bytes (20 R53, R67). -/
theorem store_storesBytes (s : State) (a : Word) (n : Nat) (v : DWord) (h : s.mem.wf) :
    StoresBytes s (s.store a n v) a.toNat (bytesOf s.le n v) := by
  refine ⟨fun k b hk => ?_, fun x hx => ?_, fun x => ?_⟩
  · exact Memory.read_writeBytes_same _ _ _ _ _ h hk
  · exact Memory.read_writeBytes_other _ _ _ _ hx
  · rw [bytesOf_length]; exact mem_insertAddrs _ _ _ _

/-- A store in range and aligned, in a memory in canonical form. -/
theorem storeBytes_storesOnly (s : State) (n : Nat) (v : DWord) (a : Word) (hn : n ∈ [1, 2, 4, 8])
    (hr : InRange a n) (ha : IsAligned a n) (h : s.mem.wf) :
    ∃ t, storeBytes s n v a = .next t ∧ StoresOnly s t a.toNat (bytesOf s.le n v) := by
  unfold storeBytes
  rw [memWrite_ok _ (checkAccess_ok s a n hn hr ha)]
  exact ⟨_, rfl, store_storesBytes s a n v h, fun _ _ => rfl, ⟨rfl, rfl⟩,
    by simp [State.nextPc_eq], rfl, rfl, rfl, rfl, rfl⟩

/-- The bytes of a byte stored. -/
theorem bytesOf_one (s : State) (w : Word) : bytesOf s.le 1 (w.setWidth 64) = inOrder s [w.extractLsb' 0 8] := by
  have h : (w.setWidth 64).setWidth 8 = w.extractLsb' 0 8 := by
    apply BitVec.eq_of_getLsbD_eq; intro j hj; simp [hj]
  unfold bytesOf inOrder
  simp [bytesLittle, h]

/-- The bytes of a half word stored. -/
theorem bytesOf_two (s : State) (w : Word) : bytesOf s.le 2 (w.setWidth 64) = inOrder s (halfBytes w) := by
  have h : bytesLittle 2 (w.setWidth 64) = halfBytes w := by
    simp only [bytesLittle, halfBytes, List.cons.injEq, and_true]
    constructor <;>
      · apply BitVec.eq_of_getLsbD_eq; intro j hj
        simp [hj, show j < 64 by omega, show 8 + j < 64 by omega]
  unfold bytesOf inOrder
  rw [h]

/-- The bytes of a word stored. -/
theorem bytesOf_four (s : State) (w : Word) : bytesOf s.le 4 (w.setWidth 64) = inOrder s (wordBytes w) := by
  have h : bytesLittle 4 (w.setWidth 64) = wordBytes w := by
    simp only [bytesLittle, wordBytes, List.cons.injEq, and_true]
    refine ⟨?_, ?_, ?_, ?_⟩ <;>
      · apply BitVec.eq_of_getLsbD_eq; intro j hj
        simp [hj, show j < 64 by omega, show 8 + j < 64 by omega, show 16 + j < 64 by omega,
          show 24 + j < 64 by omega]
  unfold bytesOf inOrder
  rw [h]

/-- The bytes of a pair stored. -/
theorem bytesOf_eight (s : State) (hi lo : Word) :
    bytesOf s.le 8 (hi ++ lo) = inOrder s (wordBytes lo ++ wordBytes hi) := by
  have h : bytesLittle 8 (hi ++ lo) = wordBytes lo ++ wordBytes hi := by
    apply List.ext_getElem?
    intro k
    by_cases hk : k < 8
    · rw [bytesLittle_getElem? _ _ _ hk]
      have e : ∀ m, m < 8 → BitVec.extractLsb' (8 * m) 8 (hi ++ lo : DWord) =
          if m < 4 then lo.extractLsb' (8 * m) 8 else hi.extractLsb' (8 * (m - 4)) 8 := by
        intro m hm
        apply BitVec.eq_of_getLsbD_eq; intro j hj
        rw [BitVec.getLsbD_extractLsb', getLsbD_append_words]
        by_cases h4 : m < 4
        · simp [h4, hj, show 8 * m + j < 32 by omega]
        · simp [h4, hj, show ¬ 8 * m + j < 32 by omega, show 8 * m + j - 32 = 8 * (m - 4) + j by omega]
      rw [e k hk]
      interval_cases k <;> simp [wordBytes]
    · rw [List.getElem?_eq_none (by simp; omega), List.getElem?_eq_none (by simp [wordBytes]; omega)]
  unfold bytesOf inOrder
  rw [h]

/-- The bytes of a register pair stored. -/
theorem bytesOf_pair (s : State) (r : Reg) :
    bytesOf s.le 8 (s.pair r) = inOrder s (wordBytes (s.reg (r + 1#5)) ++ wordBytes (s.reg r)) := by
  rw [State.pair_eq, bytesOf_eight]

end Sys2Proof.Machine
end

