-- ==== Sys2Proof/Laws/Effects.lean ====
section
/-! SUPPORT. Said once: everything an instruction can do when it answers a next state (`Effect`), and that every
instruction does one of these (`exec_effect`). The rules about the whole machine follow from it. -/

namespace Sys2Proof.Machine

/-- What instruction `i` may make of `s`. -/
inductive Effect (i : Instr) (s : State) : State → Prop
  /-- It writes general registers, or nothing, and is complete; a control-flow instruction only outside a delay slot. -/
  | registers (u : State) (hu : OnlyRegs s u) (hd : i.isControlFlow = true → s.delay = none) (hs : i.isStore = false)
      (h1 : i ≠ .stop) : Effect i s u.retire
  /-- It writes registers and the carry. -/
  | carry (u : State) (c : Bool) (hu : OnlyRegs s u) (hc : i.writesCarry = true) (hs : i.isStore = false)
      (hf : i.isControlFlow = false) (h1 : i ≠ .stop) : Effect i s (u.setCrBit 28 c).retire
  /-- It records an integer condition with exceptions inhibited. -/
  | records (k : Nat) (c : Cause) (hk : k = 12 ∧ c = .integerOverflow ∨ k = 13 ∧ c = .integerDivideByZero)
      (he : s.ei = true) (hc : c ∈ i.causes) (hs : i.isStore = false) (hf : i.isControlFlow = false)
      (h1 : i ≠ .stop) : Effect i s (s.recordFlag k).retire
  /-- It raises an exception. -/
  | raises (c : Cause) (he : s.ei = false) (hc : c ∈ i.causes) (hs : i.isStore = false)
      (hf : i.isControlFlow = false) (h1 : i ≠ .stop) : Effect i s { s with run := .exception c s.pc }
  /-- It branches, outside a delay slot, to a multiple of 4 if `pc` is one. -/
  | branches (u : State) (n : Bool) (a : Word) (hu : OnlyRegs s u) (hd : s.delay = none)
      (ha : s.pc.toNat % 4 = 0 → a.toNat % 4 = 0) (hf : i.isControlFlow = true) (hs : i.isStore = false)
      (h1 : i ≠ .stop) : Effect i s (u.branch n a)
  /-- It stores in range, then writes registers or nothing. -/
  | stores (a : Word) (n : Nat) (v : DWord) (u : State) (ha : i.access s = some (a, n)) (hr : InRange a n)
      (hu : OnlyRegs (s.store a n v) u) (hs : i.isStore = true) (hf : i.isControlFlow = false)
      (h1 : i ≠ .stop) : Effect i s u.retire
  /-- It is `stcr`, with a value that keeps the byte order. -/
  | control (v : Word) (hv : v.getLsbD 30 = s.cfg.littleEndian) (hi : i.isStcr = true) (hs : i.isStore = false)
      (hf : i.isControlFlow = false) (h1 : i ≠ .stop) : Effect i s { s with cr := v }.retire
  /-- It is `stop`. -/
  | stops (h1 : i = .stop) : Effect i s s.halt

/-! ## The shared ends of an instruction -/

theorem writeBack_effect {i : Instr} {s t : State} {d : Reg} {v : Word} (h : writeBack s d v = .next t)
    (hf : i.isControlFlow = false) (hs : i.isStore = false) (h1 : i ≠ .stop) : Effect i s t := by
  cases h
  exact .registers _ (OnlyRegs.setReg s d v) (by simp [hf]) hs h1

theorem finishInteger_effect {i : Instr} {s t : State} {d : Reg} {v : Word} (h : finishInteger s d v = .next t)
    (hf : i.isControlFlow = false) (hs : i.isStore = false) (h1 : i ≠ .stop) : Effect i s t := by
  cases h
  rw [State.settleFlags_eq]
  exact .registers _ (OnlyRegs.setReg s d v) (by simp [hf]) hs h1

theorem raise_next {s t : State} {c : Cause} (h : raise c s = .next t) : t = { s with run := .exception c s.pc } := by
  cases h; rfl

theorem overflow_effect {i : Instr} {s w t : State} (h : overflow s w = .next t) (hc : .integerOverflow ∈ i.causes)
    (hf : i.isControlFlow = false) (hs : i.isStore = false) (h1 : i ≠ .stop) : Effect i s t := by
  unfold overflow at h
  split at h
  · rename_i he
    cases h
    exact .records 12 .integerOverflow (.inl ⟨rfl, rfl⟩) he hc hs hf h1
  · rename_i he
    rw [raise_next h]
    exact .raises _ (by simpa using he) hc hs hf h1

theorem divideByZero_effect {i : Instr} {s t : State} (h : divideByZero s = .next t)
    (hc : .integerDivideByZero ∈ i.causes) (hf : i.isControlFlow = false) (hs : i.isStore = false) (h1 : i ≠ .stop) :
    Effect i s t := by
  unfold divideByZero at h
  split at h
  · rename_i he
    cases h
    exact .records 13 .integerDivideByZero (.inr ⟨rfl, rfl⟩) he hc hs hf h1
  · rename_i he
    rw [raise_next h]
    exact .raises _ (by simpa using he) hc hs hf h1

theorem carryIf_effect {i : Instr} {s t : State} {o : Bool} {d : Reg} {v : Word} {c : Bool}
    (h : (Host.Outcome.next ((s.setReg d v).setCarryIf o c).settleFlags.retire : Result) = .next t)
    (ho : o = true → i.writesCarry = true)
    (hf : i.isControlFlow = false) (hs : i.isStore = false) (h1 : i ≠ .stop) : Effect i s t := by
  cases h
  rw [State.settleFlags_eq]
  cases o
  · exact .registers _ (OnlyRegs.setReg s d v) (by simp [hf]) hs h1
  · exact .carry _ c (OnlyRegs.setReg s d v) (ho rfl) hs hf h1

theorem finishSigned_effect {i : Instr} {s t : State} {o : Bool} {d : Reg} {r : IntResult}
    (h : finishSigned s o d r = .next t) (hc : .integerOverflow ∈ i.causes) (ho : o = true → i.writesCarry = true)
    (hf : i.isControlFlow = false) (hs : i.isStore = false) (h1 : i ≠ .stop) : Effect i s t := by
  unfold finishSigned at h
  dsimp only at h
  split at h
  · exact carryIf_effect h ho hf hs h1
  · exact overflow_effect h hc hf hs h1

theorem fpCondition_effect {i : Instr} {s t : State} {c : Cause} (h : fpCondition s c = .next t) (hc : c ∈ i.causes)
    (hf : i.isControlFlow = false) (hs : i.isStore = false) (h1 : i ≠ .stop) : Effect i s t := by
  unfold fpCondition at h
  split at h
  · cases h
  · rename_i he
    rw [raise_next h]
    exact .raises _ (by simpa using he) hc hs hf h1

theorem finishFp_effect {i : Instr} {s t : State} {d : Reg} {r : Except Cause FpBits} (h : finishFp s d r = .next t)
    (hc : ∀ c, r = .error c → c ∈ i.causes) (hf : i.isControlFlow = false) (hs : i.isStore = false) (h1 : i ≠ .stop) :
    Effect i s t := by
  cases r with
  | ok b => cases h; exact .registers _ (OnlyRegs.setFp s d b) (by simp [hf]) hs h1
  | error c => exact fpCondition_effect h (hc c rfl) hf hs h1

theorem finishFpWord_effect {i : Instr} {s t : State} {d : Reg} {r : Except Cause Word}
    (h : finishFpWord s d r = .next t) (hc : ∀ c, r = .error c → c ∈ i.causes) (hf : i.isControlFlow = false)
    (hs : i.isStore = false) (h1 : i ≠ .stop) : Effect i s t := by
  cases r with
  | ok b => exact writeBack_effect h hf hs h1
  | error c => exact fpCondition_effect h (hc c rfl) hf hs h1

theorem load_effect {i : Instr} {s t : State} {n : Nat} {ext : DWord → Word} {d : Reg} {a : Word}
    (h : load s n ext d a = .next t) (hf : i.isControlFlow = false) (hs : i.isStore = false) (h1 : i ≠ .stop) :
    Effect i s t := by
  unfold load at h
  split at h
  · cases h
  · exact writeBack_effect h hf hs h1

theorem loadDouble_effect {i : Instr} {s t : State} {d : Reg} {a : Word} (h : loadDouble s d a = .next t)
    (hf : i.isControlFlow = false) (hs : i.isStore = false) (h1 : i ≠ .stop) : Effect i s t := by
  have h := (guardPairs_next h).2
  split at h
  · cases h
  · cases h; exact .registers _ (OnlyRegs.setPair s d _) (by simp [hf]) hs h1

theorem storeBytes_effect {i : Instr} {s t : State} {n : Nat} {v : DWord} {a : Word}
    (h : storeBytes s n v a = .next t) (ha : i.access s = some (a, n)) (hf : i.isControlFlow = false)
    (hs : i.isStore = true) (h1 : i ≠ .stop) : Effect i s t := by
  unfold storeBytes at h
  split at h
  · cases h
  · rename_i u hu
    obtain ⟨hr, rfl⟩ := memWrite_inv hu
    cases h
    exact .stores a n v _ ha hr (OnlyRegs.refl _) hs hf h1

theorem unlessInDelaySlot_next {s t u : State} (h : unlessInDelaySlot s t = .next u) : s.delay = none ∧ u = t := by
  unfold unlessInDelaySlot at h
  split at h
  · cases h
  · rename_i hd; cases h; exact ⟨hd, rfl⟩

/-! ## Branch targets -/

/-- A target a whole number of instructions away is a multiple of 4 if `pc` is one. -/
theorem relative_aligned (pc x : Word) (h : pc.toNat % 4 = 0) : (pc + 4#32 * x).toNat % 4 = 0 := by
  simp only [BitVec.toNat_add, BitVec.toNat_mul, BitVec.toNat_ofNat]
  omega

/-- A register's target is a multiple of 4. -/
theorem masked_aligned (x : Word) : (x &&& 0xFFFFFFFC#32).toNat % 4 = 0 := by
  have h : (x &&& 0xFFFFFFFC#32) &&& 3#32 = 0#32 := by
    rw [BitVec.and_assoc]; simp
  have h2 := congrArg BitVec.toNat h
  rw [BitVec.toNat_and] at h2
  have h3 := Nat.and_two_pow_sub_one_eq_mod (x &&& 0xFFFFFFFC#32).toNat 2
  simpa using h3.symm.trans h2

/-! ## The floating-point operations' conditions -/

theorem roundResult_error {p : Prec} {rm : BitVec 2} {z : Bool} {x : ℚ} {c : Cause}
    (h : roundResult p rm z x = .error c) : c = .fpOverflow ∨ c = .fpUnderflow := by
  unfold roundResult at h
  dsimp only at h
  split at h
  · cases h
  · split at h
    · cases h; exact .inl rfl
    · split at h
      · cases h; exact .inr rfl
      · cases h

theorem fpAdd_error {p : Prec} {rm : BitVec 2} {a b : FpClass} {c : Cause} (h : fpAdd p rm a b = .error c) :
    c ∈ [Cause.fpReservedOperand, .fpOverflow, .fpUnderflow] := by
  unfold fpAdd at h
  split at h
  · cases h; simp
  · rcases roundResult_error h with rfl | rfl <;> simp

theorem fpSub_error {p : Prec} {rm : BitVec 2} {a b : FpClass} {c : Cause} (h : fpSub p rm a b = .error c) :
    c ∈ [Cause.fpReservedOperand, .fpOverflow, .fpUnderflow] := by
  unfold fpSub at h
  split at h
  · cases h; simp
  · rcases roundResult_error h with rfl | rfl <;> simp

theorem fpMul_error {p : Prec} {rm : BitVec 2} {a b : FpClass} {c : Cause} (h : fpMul p rm a b = .error c) :
    c ∈ [Cause.fpReservedOperand, .fpOverflow, .fpUnderflow] := by
  unfold fpMul at h
  split at h
  · cases h; simp
  · rcases roundResult_error h with rfl | rfl <;> simp

theorem fpDiv_error {p : Prec} {rm : BitVec 2} {a b : FpClass} {c : Cause} (h : fpDiv p rm a b = .error c) :
    c ∈ [Cause.fpReservedOperand, .fpDivideByZero, .fpOverflow, .fpUnderflow] := by
  unfold fpDiv at h
  split at h
  · cases h; simp
  · split at h
    · cases h; simp
    · rcases roundResult_error h with rfl | rfl <;> simp

theorem fpConvert_error {p : Prec} {rm : BitVec 2} {b : FpClass} {c : Cause} (h : fpConvert p rm b = .error c) :
    c ∈ [Cause.fpReservedOperand, .fpOverflow, .fpUnderflow] := by
  unfold fpConvert at h
  split at h
  · cases h; simp
  · rcases roundResult_error h with rfl | rfl <;> simp

theorem fpToInt_error {rm : BitVec 2} {b : FpClass} {c : Cause} (h : fpToInt rm b = .error c) :
    c ∈ [Cause.fpReservedOperand, .fpOverflow] := by
  unfold fpToInt at h
  split at h
  · cases h; simp
  · split at h
    · cases h
    · cases h; simp

theorem fpCompare_error {m : Config.FcmpNan} {a b : FpClass} {c : Cause} (h : fpCompare m a b = .error c) :
    c ∈ [Cause.fpReservedOperand] := by
  unfold fpCompare at h
  split at h
  · cases h
  · split at h
    · cases h; simp
    · cases h

/-- The exponent of an integer that is not 0 is the length of its magnitude less one. -/
theorem exponentOf_int (n : Int) (hn : n.natAbs ≠ 0) : exponentOf (n : ℚ) = Nat.log2 n.natAbs := by
  unfold exponentOf ilog2
  have h1 : Nat.log2 1 = 0 := rfl
  have h2 : 2 ^ Nat.log2 n.natAbs ≤ n.natAbs := Nat.log2_self_le hn
  simp [h1, h2]

/-- A 32-bit integer converts without a condition (43 R199). -/
theorem fpFromInt_ok (p : Prec) (rm : BitVec 2) (w : Word) : ∃ b, fpFromInt p rm w.toInt = .ok b := by
  unfold fpFromInt roundResult
  dsimp only
  by_cases h0 : (w.toInt : ℚ) = 0
  · exact ⟨_, if_pos h0⟩
  · rw [if_neg h0]
    have hn : w.toInt.natAbs ≠ 0 := fun e => h0 (by simp [Int.natAbs_eq_zero.1 e])
    have hlt : w.toInt.natAbs < 2 ^ 32 := by have := w.isLt; have := BitVec.toInt_lt (x := w);
                                              have := BitVec.le_toInt (x := w); simp at *; omega
    have he : exponentOf (w.toInt : ℚ) ≤ 31 := by
      rw [exponentOf_int _ hn]
      have := (Nat.log2_lt hn).2 hlt
      omega
    have he0 : 0 ≤ exponentOf (w.toInt : ℚ) := by rw [exponentOf_int _ hn]; omega
    have hr : (roundSignificand (format p) rm (w.toInt : ℚ)).2 ≤ 32 := by
      unfold roundSignificand
      dsimp only
      split <;> simp <;> omega
    rw [if_neg (by cases p <;> simp only [format, Format.maxExp] at hr ⊢ <;> omega),
      if_neg (by cases p <;> simp only [format, Format.minExp] <;> omega)]
    exact ⟨_, rfl⟩

/-! ## Every instruction -/

/-- Everything an instruction can do when it answers a next state. -/
theorem exec_effect (i : Instr) (s t : State) (h : exec i s = .next t) : Effect i s t := by
  cases i with
  | andImm u d s1 imm => exact writeBack_effect h rfl rfl (by simp)
  | andReg c d s1 s2 => exact writeBack_effect h rfl rfl (by simp)
  | xorImm u d s1 imm => exact writeBack_effect h rfl rfl (by simp)
  | xorReg c d s1 s2 => exact writeBack_effect h rfl rfl (by simp)
  | maskImm u d s1 imm => exact writeBack_effect h rfl rfl (by simp)
  | orImm u d s1 imm => exact writeBack_effect h rfl rfl (by simp)
  | orReg c d s1 s2 => exact writeBack_effect h rfl rfl (by simp)
  | addImm d s1 imm => exact finishSigned_effect h (by simp [Instr.causes]) (by simp) rfl rfl (by simp)
  | addReg i o d s1 s2 => exact finishSigned_effect h (by simp [Instr.causes]) id rfl rfl (by simp)
  | adduImm d s1 imm => exact carryIf_effect h (by simp) rfl rfl (by simp)
  | adduReg i o d s1 s2 => exact carryIf_effect h id rfl rfl (by simp)
  | subImm d s1 imm => exact finishSigned_effect h (by simp [Instr.causes]) (by simp) rfl rfl (by simp)
  | subReg i o d s1 s2 => exact finishSigned_effect h (by simp [Instr.causes]) id rfl rfl (by simp)
  | subuImm d s1 imm => exact carryIf_effect h (by simp) rfl rfl (by simp)
  | subuReg i o d s1 s2 => exact carryIf_effect h id rfl rfl (by simp)
  | cmpImm d s1 imm => exact finishInteger_effect h rfl rfl (by simp)
  | cmpReg d s1 s2 => exact finishInteger_effect h rfl rfl (by simp)
  | mulsReg d s1 s2 => exact finishSigned_effect h (by simp [Instr.causes]) (by simp) rfl rfl (by simp)
  | muluImm d s1 imm => exact finishInteger_effect h rfl rfl (by simp)
  | muluReg dbl d s1 s2 =>
    simp only [exec, execMuluReg] at h
    split at h
    · have h := (guardPairs_next h).2
      cases h
      rw [State.settleFlags_eq]
      exact .registers _ (OnlyRegs.setPair s d _) (by simp [Instr.isControlFlow]) rfl (by simp)
    · exact finishInteger_effect h rfl rfl (by simp)
  | divsImm d s1 imm =>
    simp only [exec, execDivsImm] at h
    split at h
    · exact divideByZero_effect h (by simp [Instr.causes]) rfl rfl (by simp)
    · exact finishSigned_effect h (by simp [Instr.causes]) (by simp) rfl rfl (by simp)
  | divsReg d s1 s2 =>
    simp only [exec, execDivsReg] at h
    split at h
    · exact divideByZero_effect h (by simp [Instr.causes]) rfl rfl (by simp)
    · exact finishSigned_effect h (by simp [Instr.causes]) (by simp) rfl rfl (by simp)
  | divuImm d s1 imm =>
    simp only [exec, execDivuImm] at h
    split at h
    · exact divideByZero_effect h (by simp [Instr.causes]) rfl rfl (by simp)
    · exact finishInteger_effect h rfl rfl (by simp)
  | divuReg dbl d s1 s2 =>
    simp only [exec, execDivuReg] at h
    have h := (guardPairs_next h).2
    split at h
    · exact divideByZero_effect h (by simp [Instr.causes]) rfl rfl (by simp)
    · split at h
      · cases h
        rw [State.settleFlags_eq]
        exact .registers _ (OnlyRegs.setPair s d _) (by simp [Instr.isControlFlow]) rfl (by simp)
      · exact finishInteger_effect h rfl rfl (by simp)
  | clrBit d s1 w5 o5 => exact writeBack_effect h rfl rfl (by simp)
  | clrReg d s1 s2 => exact writeBack_effect h rfl rfl (by simp)
  | setBit d s1 w5 o5 => exact writeBack_effect h rfl rfl (by simp)
  | setReg d s1 s2 => exact writeBack_effect h rfl rfl (by simp)
  | extBit d s1 w5 o5 => exact writeBack_effect h rfl rfl (by simp)
  | extReg d s1 s2 => exact writeBack_effect h rfl rfl (by simp)
  | extuBit d s1 w5 o5 => exact writeBack_effect h rfl rfl (by simp)
  | extuReg d s1 s2 => exact writeBack_effect h rfl rfl (by simp)
  | makBit d s1 w5 o5 => exact writeBack_effect h rfl rfl (by simp)
  | makReg d s1 s2 => exact writeBack_effect h rfl rfl (by simp)
  | rotBit d s1 o5 => exact writeBack_effect h rfl rfl (by simp)
  | rotReg d s1 s2 => exact writeBack_effect h rfl rfl (by simp)
  | fadd t1 t2 td d s1 s2 =>
    exact finishFp_effect (guardPairs_next h).2 (fun _ e => fpAdd_error e) rfl rfl (by simp)
  | fcmp t1 t2 d s1 s2 =>
    exact finishFpWord_effect (guardPairs_next h).2 (fun _ e => fpCompare_error e) rfl rfl (by simp)
  | fcvt t2 td d s2 => exact finishFp_effect (guardPairs_next h).2 (fun _ e => fpConvert_error e) rfl rfl (by simp)
  | fdiv t1 t2 td d s1 s2 =>
    exact finishFp_effect (guardPairs_next h).2 (fun _ e => fpDiv_error e) rfl rfl (by simp)
  | flt td d s2 =>
    refine finishFp_effect (guardPairs_next h).2 (fun c e => ?_) rfl rfl (by simp)
    obtain ⟨b, hb⟩ := fpFromInt_ok td s.rm (s.reg s2)
    rw [hb] at e; cases e
  | fmul t1 t2 td d s1 s2 =>
    exact finishFp_effect (guardPairs_next h).2 (fun _ e => fpMul_error e) rfl rfl (by simp)
  | fsub t1 t2 td d s1 s2 =>
    exact finishFp_effect (guardPairs_next h).2 (fun _ e => fpSub_error e) rfl rfl (by simp)
  | fint t2 d s2 => exact finishFpWord_effect (guardPairs_next h).2 (fun _ e => fpToInt_error e) rfl rfl (by simp)
  | bb0 n b5 s1 d16 =>
    obtain ⟨hd, rfl⟩ := unlessInDelaySlot_next h
    split
    · exact .registers _ (OnlyRegs.refl s) (fun _ => hd) rfl (by simp)
    · exact .branches s n _ (OnlyRegs.refl s) hd (relative_aligned _ _) rfl rfl (by simp)
  | bb1 n b5 s1 d16 =>
    obtain ⟨hd, rfl⟩ := unlessInDelaySlot_next h
    split
    · exact .branches s n _ (OnlyRegs.refl s) hd (relative_aligned _ _) rfl rfl (by simp)
    · exact .registers _ (OnlyRegs.refl s) (fun _ => hd) rfl (by simp)
  | br n d26 =>
    obtain ⟨hd, rfl⟩ := unlessInDelaySlot_next h
    exact .branches s n _ (OnlyRegs.refl s) hd (relative_aligned _ _) rfl rfl (by simp)
  | bsr n d26 =>
    obtain ⟨hd, rfl⟩ := unlessInDelaySlot_next h
    exact .branches _ n _ (OnlyRegs.setReg s _ _) hd (relative_aligned _ _) rfl rfl (by simp)
  | jmp n s2 =>
    obtain ⟨hd, rfl⟩ := unlessInDelaySlot_next h
    exact .branches s n _ (OnlyRegs.refl s) hd (fun _ => masked_aligned _) rfl rfl (by simp)
  | jsr n s2 =>
    obtain ⟨hd, rfl⟩ := unlessInDelaySlot_next h
    exact .branches _ n _ (OnlyRegs.setReg s _ _) hd (fun _ => masked_aligned _) rfl rfl (by simp)
  | lddImm d s1 imm => exact loadDouble_effect h rfl rfl (by simp)
  | ldImm d s1 imm => exact load_effect h rfl rfl (by simp)
  | ldhImm d s1 imm => exact load_effect h rfl rfl (by simp)
  | ldbImm d s1 imm => exact load_effect h rfl rfl (by simp)
  | ldhuImm d s1 imm => exact load_effect h rfl rfl (by simp)
  | ldbuImm d s1 imm => exact load_effect h rfl rfl (by simp)
  | lddReg d s1 s2 => exact loadDouble_effect h rfl rfl (by simp)
  | ldReg d s1 s2 => exact load_effect h rfl rfl (by simp)
  | ldhReg d s1 s2 => exact load_effect h rfl rfl (by simp)
  | ldbReg d s1 s2 => exact load_effect h rfl rfl (by simp)
  | ldhuReg d s1 s2 => exact load_effect h rfl rfl (by simp)
  | ldbuReg d s1 s2 => exact load_effect h rfl rfl (by simp)
  | stdImm d s1 imm => exact storeBytes_effect (guardPairs_next h).2 rfl rfl rfl (by simp)
  | stImm d s1 imm => exact storeBytes_effect h rfl rfl rfl (by simp)
  | sthImm d s1 imm => exact storeBytes_effect h rfl rfl rfl (by simp)
  | stbImm d s1 imm => exact storeBytes_effect h rfl rfl rfl (by simp)
  | stdReg wt d s1 s2 => exact storeBytes_effect (guardPairs_next h).2 rfl rfl rfl (by simp)
  | stReg wt d s1 s2 => exact storeBytes_effect h rfl rfl rfl (by simp)
  | sthReg wt d s1 s2 => exact storeBytes_effect h rfl rfl rfl (by simp)
  | stbReg wt d s1 s2 => exact storeBytes_effect h rfl rfl rfl (by simp)
  | ldcr d => exact writeBack_effect h rfl rfl (by simp)
  | stcr s1 =>
    simp only [exec, execStcr] at h
    split at h
    · cases h
    · rename_i hb
      cases h
      refine .control _ ?_ rfl rfl rfl (by simp)
      simpa [fetchOrder] using hb
  | xmem d s1 s2 =>
    simp only [exec, execXmem] at h
    split at h
    · cases h
    · rename_i v hv
      cases h
      exact .stores _ 4 _ _ rfl (memRead_inv hv) (OnlyRegs.setReg _ d _) rfl rfl (by simp)
  | stop => cases h; exact .stops rfl

end Sys2Proof.Machine
end

