-- ==== Sys2Proof/Laws/PerInstr.lean ====
section
/-! SUPPORT. A statement for every instruction: its word has the fixed bits of its row of the opcode table. One lemma
per constructor. -/

namespace Sys2Proof.Laws.RowMatch

/-- The mask and the value of an instruction's row of `spec/opcode_table.json` (30 R99). -/
def row (i : Instr) : Word × Word :=
  match i with
  | .andImm _ _ _ _ => (0xF8000000#32, 0x40000000#32)
  | .andReg _ _ _ _ => (0xFC00FBE0#32, 0xF4004000#32)
  | .xorImm _ _ _ _ => (0xF8000000#32, 0x50000000#32)
  | .xorReg _ _ _ _ => (0xFC00FBE0#32, 0xF4005000#32)
  | .maskImm _ _ _ _ => (0xF8000000#32, 0x48000000#32)
  | .orImm _ _ _ _ => (0xF8000000#32, 0x58000000#32)
  | .orReg _ _ _ _ => (0xFC00FBE0#32, 0xF4005800#32)
  | .addImm _ _ _ => (0xFC000000#32, 0x70000000#32)
  | .addReg _ _ _ _ _ => (0xFC00FCE0#32, 0xF4007000#32)
  | .adduImm _ _ _ => (0xFC000000#32, 0x60000000#32)
  | .adduReg _ _ _ _ _ => (0xFC00FCE0#32, 0xF4006000#32)
  | .subImm _ _ _ => (0xFC000000#32, 0x74000000#32)
  | .subReg _ _ _ _ _ => (0xFC00FCE0#32, 0xF4007400#32)
  | .subuImm _ _ _ => (0xFC000000#32, 0x64000000#32)
  | .subuReg _ _ _ _ _ => (0xFC00FCE0#32, 0xF4006400#32)
  | .cmpImm _ _ _ => (0xFC000000#32, 0x7C000000#32)
  | .cmpReg _ _ _ => (0xFC00FFE0#32, 0xF4007C00#32)
  | .mulsReg _ _ _ => (0xFC00FFE0#32, 0xF4006E00#32)
  | .muluImm _ _ _ => (0xFC000000#32, 0x6C000000#32)
  | .muluReg _ _ _ _ => (0xFC00FEE0#32, 0xF4006C00#32)
  | .divsImm _ _ _ => (0xFC000000#32, 0x78000000#32)
  | .divsReg _ _ _ => (0xFC00FFE0#32, 0xF4007800#32)
  | .divuImm _ _ _ => (0xFC000000#32, 0x68000000#32)
  | .divuReg _ _ _ _ => (0xFC00FEE0#32, 0xF4006800#32)
  | .clrBit _ _ _ _ => (0xFC00FC00#32, 0xF0008000#32)
  | .clrReg _ _ _ => (0xFC00FFE0#32, 0xF4008000#32)
  | .setBit _ _ _ _ => (0xFC00FC00#32, 0xF0008800#32)
  | .setReg _ _ _ => (0xFC00FFE0#32, 0xF4008800#32)
  | .extBit _ _ _ _ => (0xFC00FC00#32, 0xF0009000#32)
  | .extReg _ _ _ => (0xFC00FFE0#32, 0xF4009000#32)
  | .extuBit _ _ _ _ => (0xFC00FC00#32, 0xF0009800#32)
  | .extuReg _ _ _ => (0xFC00FFE0#32, 0xF4009800#32)
  | .makBit _ _ _ _ => (0xFC00FC00#32, 0xF000A000#32)
  | .makReg _ _ _ => (0xFC00FFE0#32, 0xF400A000#32)
  | .rotBit _ _ _ => (0xFC00FFE0#32, 0xF000A800#32)
  | .rotReg _ _ _ => (0xFC00FFE0#32, 0xF400A800#32)
  | .fadd _ _ _ _ _ _ => (0xFC00FD40#32, 0x84002800#32)
  | .fcmp _ _ _ _ _ => (0xFC00FD60#32, 0x84003800#32)
  | .fcvt _ _ _ _ => (0xFC1FFF40#32, 0x84000800#32)
  | .fdiv _ _ _ _ _ _ => (0xFC00FD40#32, 0x84007000#32)
  | .flt _ _ _ => (0xFC1FFFC0#32, 0x84002000#32)
  | .fmul _ _ _ _ _ _ => (0xFC00FD40#32, 0x84000000#32)
  | .fsub _ _ _ _ _ _ => (0xFC00FD40#32, 0x84003000#32)
  | .fint _ _ _ => (0xFC1FFF60#32, 0x84004800#32)
  | .bb0 _ _ _ _ => (0xF8000000#32, 0xD0000000#32)
  | .bb1 _ _ _ _ => (0xF8000000#32, 0xD8000000#32)
  | .br _ _ => (0xF8000000#32, 0xC0000000#32)
  | .bsr _ _ => (0xF8000000#32, 0xC8000000#32)
  | .jmp _ _ => (0xFFFFFBE0#32, 0xF400C000#32)
  | .jsr _ _ => (0xFFFFFBE0#32, 0xF400C800#32)
  | .lddImm _ _ _ => (0xFC000000#32, 0x10000000#32)
  | .ldImm _ _ _ => (0xFC000000#32, 0x14000000#32)
  | .ldhImm _ _ _ => (0xFC000000#32, 0x18000000#32)
  | .ldbImm _ _ _ => (0xFC000000#32, 0x1C000000#32)
  | .ldhuImm _ _ _ => (0xFC000000#32, 0x08000000#32)
  | .ldbuImm _ _ _ => (0xFC000000#32, 0x0C000000#32)
  | .lddReg _ _ _ => (0xFC00FFE0#32, place ldstRegMajor 26 ||| 0x00001000#32)
  | .ldReg _ _ _ => (0xFC00FFE0#32, place ldstRegMajor 26 ||| 0x00001400#32)
  | .ldhReg _ _ _ => (0xFC00FFE0#32, place ldstRegMajor 26 ||| 0x00001800#32)
  | .ldbReg _ _ _ => (0xFC00FFE0#32, place ldstRegMajor 26 ||| 0x00001C00#32)
  | .ldhuReg _ _ _ => (0xFC00FFE0#32, 0xF4000800#32)
  | .ldbuReg _ _ _ => (0xFC00FFE0#32, 0xF4000C00#32)
  | .stdImm _ _ _ => (0xFC000000#32, 0x20000000#32)
  | .stImm _ _ _ => (0xFC000000#32, 0x24000000#32)
  | .sthImm _ _ _ => (0xFC000000#32, 0x28000000#32)
  | .stbImm _ _ _ => (0xFC000000#32, 0x2C000000#32)
  | .stdReg _ _ _ _ => (0xFC00FDE0#32, place ldstRegMajor 26 ||| 0x00002000#32)
  | .stReg _ _ _ _ => (0xFC00FDE0#32, place ldstRegMajor 26 ||| 0x00002400#32)
  | .sthReg _ _ _ _ => (0xFC00FDE0#32, place ldstRegMajor 26 ||| 0x00002800#32)
  | .stbReg _ _ _ _ => (0xFC00FDE0#32, place ldstRegMajor 26 ||| 0x00002C00#32)
  | .ldcr _ => (0xFC1FFFFF#32, 0x80000000#32)
  | .stcr _ => (0xFFE0FFFF#32, 0x80008000#32)
  | .xmem _ _ _ => (0xFC00FFE0#32, 0xF4000000#32)
  | .stop => (0xFFFFFFFF#32, 0xFFFFFFFF#32)

/-- The encoded word has the fixed bits of the instruction's row. -/
def Statement (i : Instr) : Prop := encode i &&& (row i).1 = (row i).2

theorem andImm (u : Bool) (d s1 : Reg) (imm : Half) : Statement (.andImm u d s1 imm) := by
  show encImm16L 0b01000#5 u d s1 imm &&& 0xF8000000#32 = 0x40000000#32
  exact (encImm16L_and _ _ _ _ _ _ (by decide)).trans (by decide)
theorem andReg (c : Bool) (d s1 s2 : Reg) : Statement (.andReg c d s1 s2) := by
  show (encTri 0b111101#6 d s1 0b01000000000#11 s2 ||| optionBit c 10) &&& 0xFC00FBE0#32 = 0xF4004000#32
  exact (optionBit_and _ _ _ _ (by decide)).trans ((encTri_and _ _ _ _ _ _ (by decide)).trans (by decide))
theorem xorImm (u : Bool) (d s1 : Reg) (imm : Half) : Statement (.xorImm u d s1 imm) := by
  show encImm16L 0b01010#5 u d s1 imm &&& 0xF8000000#32 = 0x50000000#32
  exact (encImm16L_and _ _ _ _ _ _ (by decide)).trans (by decide)
theorem xorReg (c : Bool) (d s1 s2 : Reg) : Statement (.xorReg c d s1 s2) := by
  show (encTri 0b111101#6 d s1 0b01010000000#11 s2 ||| optionBit c 10) &&& 0xFC00FBE0#32 = 0xF4005000#32
  exact (optionBit_and _ _ _ _ (by decide)).trans ((encTri_and _ _ _ _ _ _ (by decide)).trans (by decide))
theorem maskImm (u : Bool) (d s1 : Reg) (imm : Half) : Statement (.maskImm u d s1 imm) := by
  show encImm16L 0b01001#5 u d s1 imm &&& 0xF8000000#32 = 0x48000000#32
  exact (encImm16L_and _ _ _ _ _ _ (by decide)).trans (by decide)
theorem orImm (u : Bool) (d s1 : Reg) (imm : Half) : Statement (.orImm u d s1 imm) := by
  show encImm16L 0b01011#5 u d s1 imm &&& 0xF8000000#32 = 0x58000000#32
  exact (encImm16L_and _ _ _ _ _ _ (by decide)).trans (by decide)
theorem orReg (c : Bool) (d s1 s2 : Reg) : Statement (.orReg c d s1 s2) := by
  show (encTri 0b111101#6 d s1 0b01011000000#11 s2 ||| optionBit c 10) &&& 0xFC00FBE0#32 = 0xF4005800#32
  exact (optionBit_and _ _ _ _ (by decide)).trans ((encTri_and _ _ _ _ _ _ (by decide)).trans (by decide))
theorem addImm (d s1 : Reg) (imm : Half) : Statement (.addImm d s1 imm) := by
  show encImm16 0b011100#6 d s1 imm &&& 0xFC000000#32 = 0x70000000#32
  exact (encImm16_and _ _ _ _ _ (by decide)).trans (by decide)
theorem addReg (i o : Bool) (d s1 s2 : Reg) : Statement (.addReg i o d s1 s2) := by
  show (encTri 0b111101#6 d s1 0b01110000000#11 s2 ||| optionBit i 9 ||| optionBit o 8)
    &&& 0xFC00FCE0#32 = 0xF4007000#32
  exact (optionBit_and _ _ _ _ (by decide)).trans ((optionBit_and _ _ _ _ (by decide)).trans
    ((encTri_and _ _ _ _ _ _ (by decide)).trans (by decide)))
theorem adduImm (d s1 : Reg) (imm : Half) : Statement (.adduImm d s1 imm) := by
  show encImm16 0b011000#6 d s1 imm &&& 0xFC000000#32 = 0x60000000#32
  exact (encImm16_and _ _ _ _ _ (by decide)).trans (by decide)
theorem adduReg (i o : Bool) (d s1 s2 : Reg) : Statement (.adduReg i o d s1 s2) := by
  show (encTri 0b111101#6 d s1 0b01100000000#11 s2 ||| optionBit i 9 ||| optionBit o 8)
    &&& 0xFC00FCE0#32 = 0xF4006000#32
  exact (optionBit_and _ _ _ _ (by decide)).trans ((optionBit_and _ _ _ _ (by decide)).trans
    ((encTri_and _ _ _ _ _ _ (by decide)).trans (by decide)))
theorem subImm (d s1 : Reg) (imm : Half) : Statement (.subImm d s1 imm) := by
  show encImm16 0b011101#6 d s1 imm &&& 0xFC000000#32 = 0x74000000#32
  exact (encImm16_and _ _ _ _ _ (by decide)).trans (by decide)
theorem subReg (i o : Bool) (d s1 s2 : Reg) : Statement (.subReg i o d s1 s2) := by
  show (encTri 0b111101#6 d s1 0b01110100000#11 s2 ||| optionBit i 9 ||| optionBit o 8)
    &&& 0xFC00FCE0#32 = 0xF4007400#32
  exact (optionBit_and _ _ _ _ (by decide)).trans ((optionBit_and _ _ _ _ (by decide)).trans
    ((encTri_and _ _ _ _ _ _ (by decide)).trans (by decide)))
theorem subuImm (d s1 : Reg) (imm : Half) : Statement (.subuImm d s1 imm) := by
  show encImm16 0b011001#6 d s1 imm &&& 0xFC000000#32 = 0x64000000#32
  exact (encImm16_and _ _ _ _ _ (by decide)).trans (by decide)
theorem subuReg (i o : Bool) (d s1 s2 : Reg) : Statement (.subuReg i o d s1 s2) := by
  show (encTri 0b111101#6 d s1 0b01100100000#11 s2 ||| optionBit i 9 ||| optionBit o 8)
    &&& 0xFC00FCE0#32 = 0xF4006400#32
  exact (optionBit_and _ _ _ _ (by decide)).trans ((optionBit_and _ _ _ _ (by decide)).trans
    ((encTri_and _ _ _ _ _ _ (by decide)).trans (by decide)))
theorem cmpImm (d s1 : Reg) (imm : Half) : Statement (.cmpImm d s1 imm) := by
  show encImm16 0b011111#6 d s1 imm &&& 0xFC000000#32 = 0x7C000000#32
  exact (encImm16_and _ _ _ _ _ (by decide)).trans (by decide)
theorem cmpReg (d s1 s2 : Reg) : Statement (.cmpReg d s1 s2) := by
  show encTri 0b111101#6 d s1 0b01111100000#11 s2 &&& 0xFC00FFE0#32 = 0xF4007C00#32
  exact (encTri_and _ _ _ _ _ _ (by decide)).trans (by decide)
theorem mulsReg (d s1 s2 : Reg) : Statement (.mulsReg d s1 s2) := by
  show encTri 0b111101#6 d s1 0b01101110000#11 s2 &&& 0xFC00FFE0#32 = 0xF4006E00#32
  exact (encTri_and _ _ _ _ _ _ (by decide)).trans (by decide)
theorem muluImm (d s1 : Reg) (imm : Half) : Statement (.muluImm d s1 imm) := by
  show encImm16 0b011011#6 d s1 imm &&& 0xFC000000#32 = 0x6C000000#32
  exact (encImm16_and _ _ _ _ _ (by decide)).trans (by decide)
theorem muluReg (dbl : Bool) (d s1 s2 : Reg) : Statement (.muluReg dbl d s1 s2) := by
  show (encTri 0b111101#6 d s1 0b01101100000#11 s2 ||| optionBit dbl 8) &&& 0xFC00FEE0#32 = 0xF4006C00#32
  exact (optionBit_and _ _ _ _ (by decide)).trans ((encTri_and _ _ _ _ _ _ (by decide)).trans (by decide))
theorem divsImm (d s1 : Reg) (imm : Half) : Statement (.divsImm d s1 imm) := by
  show encImm16 0b011110#6 d s1 imm &&& 0xFC000000#32 = 0x78000000#32
  exact (encImm16_and _ _ _ _ _ (by decide)).trans (by decide)
theorem divsReg (d s1 s2 : Reg) : Statement (.divsReg d s1 s2) := by
  show encTri 0b111101#6 d s1 0b01111000000#11 s2 &&& 0xFC00FFE0#32 = 0xF4007800#32
  exact (encTri_and _ _ _ _ _ _ (by decide)).trans (by decide)
theorem divuImm (d s1 : Reg) (imm : Half) : Statement (.divuImm d s1 imm) := by
  show encImm16 0b011010#6 d s1 imm &&& 0xFC000000#32 = 0x68000000#32
  exact (encImm16_and _ _ _ _ _ (by decide)).trans (by decide)
theorem divuReg (dbl : Bool) (d s1 s2 : Reg) : Statement (.divuReg dbl d s1 s2) := by
  show (encTri 0b111101#6 d s1 0b01101000000#11 s2 ||| optionBit dbl 8) &&& 0xFC00FEE0#32 = 0xF4006800#32
  exact (optionBit_and _ _ _ _ (by decide)).trans ((encTri_and _ _ _ _ _ _ (by decide)).trans (by decide))
theorem clrBit (d s1 : Reg) (w5 o5 : BitVec 5) : Statement (.clrBit d s1 w5 o5) := by
  show encBit d s1 0b100000#6 w5 o5 &&& 0xFC00FC00#32 = 0xF0008000#32
  exact (encBit_and _ _ _ _ _ _ (by decide)).trans (by decide)
theorem clrReg (d s1 s2 : Reg) : Statement (.clrReg d s1 s2) := by
  show encTri 0b111101#6 d s1 0b10000000000#11 s2 &&& 0xFC00FFE0#32 = 0xF4008000#32
  exact (encTri_and _ _ _ _ _ _ (by decide)).trans (by decide)
theorem setBit (d s1 : Reg) (w5 o5 : BitVec 5) : Statement (.setBit d s1 w5 o5) := by
  show encBit d s1 0b100010#6 w5 o5 &&& 0xFC00FC00#32 = 0xF0008800#32
  exact (encBit_and _ _ _ _ _ _ (by decide)).trans (by decide)
theorem setReg (d s1 s2 : Reg) : Statement (.setReg d s1 s2) := by
  show encTri 0b111101#6 d s1 0b10001000000#11 s2 &&& 0xFC00FFE0#32 = 0xF4008800#32
  exact (encTri_and _ _ _ _ _ _ (by decide)).trans (by decide)
theorem extBit (d s1 : Reg) (w5 o5 : BitVec 5) : Statement (.extBit d s1 w5 o5) := by
  show encBit d s1 0b100100#6 w5 o5 &&& 0xFC00FC00#32 = 0xF0009000#32
  exact (encBit_and _ _ _ _ _ _ (by decide)).trans (by decide)
theorem extReg (d s1 s2 : Reg) : Statement (.extReg d s1 s2) := by
  show encTri 0b111101#6 d s1 0b10010000000#11 s2 &&& 0xFC00FFE0#32 = 0xF4009000#32
  exact (encTri_and _ _ _ _ _ _ (by decide)).trans (by decide)
theorem extuBit (d s1 : Reg) (w5 o5 : BitVec 5) : Statement (.extuBit d s1 w5 o5) := by
  show encBit d s1 0b100110#6 w5 o5 &&& 0xFC00FC00#32 = 0xF0009800#32
  exact (encBit_and _ _ _ _ _ _ (by decide)).trans (by decide)
theorem extuReg (d s1 s2 : Reg) : Statement (.extuReg d s1 s2) := by
  show encTri 0b111101#6 d s1 0b10011000000#11 s2 &&& 0xFC00FFE0#32 = 0xF4009800#32
  exact (encTri_and _ _ _ _ _ _ (by decide)).trans (by decide)
theorem makBit (d s1 : Reg) (w5 o5 : BitVec 5) : Statement (.makBit d s1 w5 o5) := by
  show encBit d s1 0b101000#6 w5 o5 &&& 0xFC00FC00#32 = 0xF000A000#32
  exact (encBit_and _ _ _ _ _ _ (by decide)).trans (by decide)
theorem makReg (d s1 s2 : Reg) : Statement (.makReg d s1 s2) := by
  show encTri 0b111101#6 d s1 0b10100000000#11 s2 &&& 0xFC00FFE0#32 = 0xF400A000#32
  exact (encTri_and _ _ _ _ _ _ (by decide)).trans (by decide)
theorem rotBit (d s1 : Reg) (o5 : BitVec 5) : Statement (.rotBit d s1 o5) := by
  show encBit d s1 0b101010#6 0#5 o5 &&& 0xFC00FFE0#32 = 0xF000A800#32
  rw [encBit, or_and_mask, or_and_mask, or_and_mask, or_and_mask, or_and_mask,
    place_and_zero d 21 0x03FF001F#32 _ (by decide) (by decide),
    place_and_zero s1 16 0x03FF001F#32 _ (by decide) (by decide),
    place_and_zero o5 0 0x03FF001F#32 _ (by decide) (by decide)]
  decide
theorem rotReg (d s1 s2 : Reg) : Statement (.rotReg d s1 s2) := by
  show encTri 0b111101#6 d s1 0b10101000000#11 s2 &&& 0xFC00FFE0#32 = 0xF400A800#32
  exact (encTri_and _ _ _ _ _ _ (by decide)).trans (by decide)
theorem fadd (t1 t2 td : Prec) (d s1 s2 : Reg) : Statement (.fadd t1 t2 td d s1 s2) := by
  show encFp d s1 0b00101#5 t1 t2 td s2 &&& 0xFC00FD40#32 = 0x84002800#32
  exact (encFp_and _ _ _ _ _ _ _ _ (by decide) (place_and_zero s1 16 0x001F0000#32 _ (by decide) (by decide))
    (prec_and_zero t1 _ _ (by decide)) (prec_and_zero t2 _ _ (by decide))
    (prec_and_zero td _ _ (by decide))).trans (by decide)
theorem fcmp (t1 t2 : Prec) (d s1 s2 : Reg) : Statement (.fcmp t1 t2 d s1 s2) := by
  show encFp d s1 0b00111#5 t1 t2 .single s2 &&& 0xFC00FD60#32 = 0x84003800#32
  exact (encFp_and _ _ _ _ _ _ _ _ (by decide) (place_and_zero s1 16 0x001F0000#32 _ (by decide) (by decide))
    (prec_and_zero t1 _ _ (by decide)) (prec_and_zero t2 _ _ (by decide)) (by decide)).trans (by decide)
theorem fcvt (t2 td : Prec) (d s2 : Reg) : Statement (.fcvt t2 td d s2) := by
  show encFp d 0#5 0b00001#5 .single t2 td s2 &&& 0xFC1FFF40#32 = 0x84000800#32
  exact (encFp_and _ _ _ _ _ _ _ _ (by decide) (by decide)
    (by decide) (prec_and_zero t2 _ _ (by decide)) (prec_and_zero td _ _ (by decide))).trans (by decide)
theorem fdiv (t1 t2 td : Prec) (d s1 s2 : Reg) : Statement (.fdiv t1 t2 td d s1 s2) := by
  show encFp d s1 0b01110#5 t1 t2 td s2 &&& 0xFC00FD40#32 = 0x84007000#32
  exact (encFp_and _ _ _ _ _ _ _ _ (by decide) (place_and_zero s1 16 0x001F0000#32 _ (by decide) (by decide))
    (prec_and_zero t1 _ _ (by decide)) (prec_and_zero t2 _ _ (by decide))
    (prec_and_zero td _ _ (by decide))).trans (by decide)
theorem flt (td : Prec) (d s2 : Reg) : Statement (.flt td d s2) := by
  show encFp d 0#5 0b00100#5 .single .single td s2 &&& 0xFC1FFFC0#32 = 0x84002000#32
  exact (encFp_and _ _ _ _ _ _ _ _ (by decide) (by decide)
    (by decide) (by decide) (prec_and_zero td _ _ (by decide))).trans (by decide)
theorem fmul (t1 t2 td : Prec) (d s1 s2 : Reg) : Statement (.fmul t1 t2 td d s1 s2) := by
  show encFp d s1 0b00000#5 t1 t2 td s2 &&& 0xFC00FD40#32 = 0x84000000#32
  exact (encFp_and _ _ _ _ _ _ _ _ (by decide) (place_and_zero s1 16 0x001F0000#32 _ (by decide) (by decide))
    (prec_and_zero t1 _ _ (by decide)) (prec_and_zero t2 _ _ (by decide))
    (prec_and_zero td _ _ (by decide))).trans (by decide)
theorem fsub (t1 t2 td : Prec) (d s1 s2 : Reg) : Statement (.fsub t1 t2 td d s1 s2) := by
  show encFp d s1 0b00110#5 t1 t2 td s2 &&& 0xFC00FD40#32 = 0x84003000#32
  exact (encFp_and _ _ _ _ _ _ _ _ (by decide) (place_and_zero s1 16 0x001F0000#32 _ (by decide) (by decide))
    (prec_and_zero t1 _ _ (by decide)) (prec_and_zero t2 _ _ (by decide))
    (prec_and_zero td _ _ (by decide))).trans (by decide)
theorem fint (t2 : Prec) (d s2 : Reg) : Statement (.fint t2 d s2) := by
  show encFp d 0#5 0b01001#5 .single t2 .single s2 &&& 0xFC1FFF60#32 = 0x84004800#32
  exact (encFp_and _ _ _ _ _ _ _ _ (by decide) (by decide)
    (by decide) (prec_and_zero t2 _ _ (by decide)) (by decide)).trans (by decide)
theorem bb0 (n : Bool) (b5 : BitVec 5) (s1 : Reg) (d16 : Half) : Statement (.bb0 n b5 s1 d16) := by
  show encBb 0b11010#5 n b5 s1 d16 &&& 0xF8000000#32 = 0xD0000000#32
  exact (encBb_and _ _ _ _ _ _ (by decide)).trans (by decide)
theorem bb1 (n : Bool) (b5 : BitVec 5) (s1 : Reg) (d16 : Half) : Statement (.bb1 n b5 s1 d16) := by
  show encBb 0b11011#5 n b5 s1 d16 &&& 0xF8000000#32 = 0xD8000000#32
  exact (encBb_and _ _ _ _ _ _ (by decide)).trans (by decide)
theorem br (n : Bool) (d26 : BitVec 26) : Statement (.br n d26) := by
  show encBr26 0b11000#5 n d26 &&& 0xF8000000#32 = 0xC0000000#32
  exact (encBr26_and _ _ _ _ (by decide)).trans (by decide)
theorem bsr (n : Bool) (d26 : BitVec 26) : Statement (.bsr n d26) := by
  show encBr26 0b11001#5 n d26 &&& 0xF8000000#32 = 0xC8000000#32
  exact (encBr26_and _ _ _ _ (by decide)).trans (by decide)
theorem jmp (n : Bool) (s2 : Reg) : Statement (.jmp n s2) := by
  show encJmp 0b11000#5 n s2 &&& 0xFFFFFBE0#32 = 0xF400C000#32
  exact (encJmp_and _ _ _ _ (by decide)).trans (by decide)
theorem jsr (n : Bool) (s2 : Reg) : Statement (.jsr n s2) := by
  show encJmp 0b11001#5 n s2 &&& 0xFFFFFBE0#32 = 0xF400C800#32
  exact (encJmp_and _ _ _ _ (by decide)).trans (by decide)
theorem lddImm (d s1 : Reg) (imm : Half) : Statement (.lddImm d s1 imm) := by
  show encImm16 0b000100#6 d s1 imm &&& 0xFC000000#32 = 0x10000000#32
  exact (encImm16_and _ _ _ _ _ (by decide)).trans (by decide)
theorem ldImm (d s1 : Reg) (imm : Half) : Statement (.ldImm d s1 imm) := by
  show encImm16 0b000101#6 d s1 imm &&& 0xFC000000#32 = 0x14000000#32
  exact (encImm16_and _ _ _ _ _ (by decide)).trans (by decide)
theorem ldhImm (d s1 : Reg) (imm : Half) : Statement (.ldhImm d s1 imm) := by
  show encImm16 0b000110#6 d s1 imm &&& 0xFC000000#32 = 0x18000000#32
  exact (encImm16_and _ _ _ _ _ (by decide)).trans (by decide)
theorem ldbImm (d s1 : Reg) (imm : Half) : Statement (.ldbImm d s1 imm) := by
  show encImm16 0b000111#6 d s1 imm &&& 0xFC000000#32 = 0x1C000000#32
  exact (encImm16_and _ _ _ _ _ (by decide)).trans (by decide)
theorem ldhuImm (d s1 : Reg) (imm : Half) : Statement (.ldhuImm d s1 imm) := by
  show encImm16 0b000010#6 d s1 imm &&& 0xFC000000#32 = 0x08000000#32
  exact (encImm16_and _ _ _ _ _ (by decide)).trans (by decide)
theorem ldbuImm (d s1 : Reg) (imm : Half) : Statement (.ldbuImm d s1 imm) := by
  show encImm16 0b000011#6 d s1 imm &&& 0xFC000000#32 = 0x0C000000#32
  exact (encImm16_and _ _ _ _ _ (by decide)).trans (by decide)
theorem lddReg (d s1 s2 : Reg) : Statement (.lddReg d s1 s2) := by
  show encTri ldstRegMajor d s1 0b00010000000#11 s2 &&& 0xFC00FFE0#32 = place ldstRegMajor 26 ||| 0x00001000#32
  exact (encTri_and _ _ _ _ _ _ (by decide)).trans (by decide)
theorem ldReg (d s1 s2 : Reg) : Statement (.ldReg d s1 s2) := by
  show encTri ldstRegMajor d s1 0b00010100000#11 s2 &&& 0xFC00FFE0#32 = place ldstRegMajor 26 ||| 0x00001400#32
  exact (encTri_and _ _ _ _ _ _ (by decide)).trans (by decide)
theorem ldhReg (d s1 s2 : Reg) : Statement (.ldhReg d s1 s2) := by
  show encTri ldstRegMajor d s1 0b00011000000#11 s2 &&& 0xFC00FFE0#32 = place ldstRegMajor 26 ||| 0x00001800#32
  exact (encTri_and _ _ _ _ _ _ (by decide)).trans (by decide)
theorem ldbReg (d s1 s2 : Reg) : Statement (.ldbReg d s1 s2) := by
  show encTri ldstRegMajor d s1 0b00011100000#11 s2 &&& 0xFC00FFE0#32 = place ldstRegMajor 26 ||| 0x00001C00#32
  exact (encTri_and _ _ _ _ _ _ (by decide)).trans (by decide)
theorem ldhuReg (d s1 s2 : Reg) : Statement (.ldhuReg d s1 s2) := by
  show encTri 0b111101#6 d s1 0b00001000000#11 s2 &&& 0xFC00FFE0#32 = 0xF4000800#32
  exact (encTri_and _ _ _ _ _ _ (by decide)).trans (by decide)
theorem ldbuReg (d s1 s2 : Reg) : Statement (.ldbuReg d s1 s2) := by
  show encTri 0b111101#6 d s1 0b00001100000#11 s2 &&& 0xFC00FFE0#32 = 0xF4000C00#32
  exact (encTri_and _ _ _ _ _ _ (by decide)).trans (by decide)
theorem stdImm (d s1 : Reg) (imm : Half) : Statement (.stdImm d s1 imm) := by
  show encImm16 0b001000#6 d s1 imm &&& 0xFC000000#32 = 0x20000000#32
  exact (encImm16_and _ _ _ _ _ (by decide)).trans (by decide)
theorem stImm (d s1 : Reg) (imm : Half) : Statement (.stImm d s1 imm) := by
  show encImm16 0b001001#6 d s1 imm &&& 0xFC000000#32 = 0x24000000#32
  exact (encImm16_and _ _ _ _ _ (by decide)).trans (by decide)
theorem sthImm (d s1 : Reg) (imm : Half) : Statement (.sthImm d s1 imm) := by
  show encImm16 0b001010#6 d s1 imm &&& 0xFC000000#32 = 0x28000000#32
  exact (encImm16_and _ _ _ _ _ (by decide)).trans (by decide)
theorem stbImm (d s1 : Reg) (imm : Half) : Statement (.stbImm d s1 imm) := by
  show encImm16 0b001011#6 d s1 imm &&& 0xFC000000#32 = 0x2C000000#32
  exact (encImm16_and _ _ _ _ _ (by decide)).trans (by decide)
theorem stdReg (wt : Bool) (d s1 s2 : Reg) : Statement (.stdReg wt d s1 s2) := by
  show (encTri ldstRegMajor d s1 0b00100000000#11 s2 ||| optionBit wt 9)
    &&& 0xFC00FDE0#32 = place ldstRegMajor 26 ||| 0x00002000#32
  exact (optionBit_and _ _ _ _ (by decide)).trans ((encTri_and _ _ _ _ _ _ (by decide)).trans (by decide))
theorem stReg (wt : Bool) (d s1 s2 : Reg) : Statement (.stReg wt d s1 s2) := by
  show (encTri ldstRegMajor d s1 0b00100100000#11 s2 ||| optionBit wt 9)
    &&& 0xFC00FDE0#32 = place ldstRegMajor 26 ||| 0x00002400#32
  exact (optionBit_and _ _ _ _ (by decide)).trans ((encTri_and _ _ _ _ _ _ (by decide)).trans (by decide))
theorem sthReg (wt : Bool) (d s1 s2 : Reg) : Statement (.sthReg wt d s1 s2) := by
  show (encTri ldstRegMajor d s1 0b00101000000#11 s2 ||| optionBit wt 9)
    &&& 0xFC00FDE0#32 = place ldstRegMajor 26 ||| 0x00002800#32
  exact (optionBit_and _ _ _ _ (by decide)).trans ((encTri_and _ _ _ _ _ _ (by decide)).trans (by decide))
theorem stbReg (wt : Bool) (d s1 s2 : Reg) : Statement (.stbReg wt d s1 s2) := by
  show (encTri ldstRegMajor d s1 0b00101100000#11 s2 ||| optionBit wt 9)
    &&& 0xFC00FDE0#32 = place ldstRegMajor 26 ||| 0x00002C00#32
  exact (optionBit_and _ _ _ _ (by decide)).trans ((encTri_and _ _ _ _ _ _ (by decide)).trans (by decide))
theorem ldcr (d : Reg) : Statement (.ldcr d) := by
  show (place 0b100000#6 26 ||| place d 21) &&& 0xFC1FFFFF#32 = 0x80000000#32
  rw [or_and_mask, place_and_zero d 21 0x03E00000#32 _ (by decide) (by decide)]
  decide
theorem stcr (s1 : Reg) : Statement (.stcr s1) := by
  show (place 0b100000#6 26 ||| place s1 16 ||| 0x8000#32) &&& 0xFFE0FFFF#32 = 0x80008000#32
  rw [or_and_mask, or_and_mask, place_and_zero s1 16 0x001F0000#32 _ (by decide) (by decide)]
  decide
theorem xmem (d s1 s2 : Reg) : Statement (.xmem d s1 s2) := by
  show encTri 0b111101#6 d s1 0b00000000000#11 s2 &&& 0xFC00FFE0#32 = 0xF4000000#32
  exact (encTri_and _ _ _ _ _ _ (by decide)).trans (by decide)
theorem stop : Statement .stop := by unfold Statement; decide

end Sys2Proof.Laws.RowMatch
end

