-- ==== Sys2Proof/Machine/Assembler.lean ====
section
/-! DEFINITION. The assembler `88110e` (spec 30 R104 to R118): its command line, and source lines to an image (70 R330).
Labels, the pseudo-instructions `org`, `data` and `res`, text templates (the source's macros, R114), `low` and `high`,
the condition names. Lines are read in order and the first that does not follow the syntax is the error (R118 a); labels
are looked up when all have been read. What the source does not say is log entry 33. -/

namespace Sys2Proof.Machine

/-! ## Operands (30 R107 to R110) -/

/-- An operand as written. -/
inductive Operand where
  | reg (r : Reg)
  | number (z : Int)
  | low (label : Text)
  | high (label : Text)
  /-- A name that stands alone: a label or a condition. -/
  | name (n : Text)
  /-- `W5<O5>`. -/
  | field (w o : Nat)
  /-- `<O5>`. -/
  | rotation (o : Nat)
  /-- `(rS2)`. -/
  | indirect (r : Reg)
deriving DecidableEq, Repr

/-- Why a program is not assembled (30 R111, R118). -/
inductive AsmError where
  /-- "parse error" in a line (R118 a). -/
  | parse (line : Nat)
  /-- An undefined symbol (R118 b). -/
  | undefinedSymbol (name : Text)
  /-- Two zones share the byte at an address (R111). -/
  | overlap (addr : Nat)
  /-- A label defined twice. The source does not show the message (log entry 33). -/
  | repeatedLabel (name : Text)
  /-- A number that does not fit its field. The source does not show the message (R107, log entry 33). -/
  | outOfField (line : Nat)
deriving DecidableEq, Repr

/-- A register: `r` and a decimal number up to 31 (30 R107). DESIGN CHOICE (log entry 33): with any number of leading
zeros. -/
def readRegister (t : Text) : Option Reg :=
  match t with
  | 'r' :: c :: cs =>
    match readDigits 10 0 (c :: cs) with
    | some n => if n < 32 then some (BitVec.ofNat 5 n) else none
    | none => none
  | _ => none

/-- A signed number: decimal, hexadecimal with `0x`, or `-` and decimal (30 R107, R112). -/
def readSigned (t : Text) : Option Int :=
  match t with
  | '-' :: c :: cs => (readDigits 10 0 (c :: cs)).map (fun n => -(n : Int))
  | cs => (readNumber cs).map (fun n => (n : Int))

/-- The text between a known beginning and a final character. -/
def between (start : Text) (last : Char) (t : Text) : Option Text :=
  if start.isPrefixOf t then
    match (t.drop start.length).reverse with
    | c :: cs => if c = last then some cs.reverse else none
    | [] => none
  else none

/-- An operand (30 R107). DESIGN CHOICE (log entry 33): a name spelled like a register, such as `r5`, is the register,
so that a label of that name is no branch operand; blanks may stand inside the parentheses of `(rS2)`, and not inside
those of `low` and `high` or inside `W5<O5>`. -/
def readOperand (t : Text) : Option Operand :=
  match readRegister t with
  | some r => some (.reg r)
  | none =>
    match readSigned t with
    | some z => some (.number z)
    | none =>
      match between "low(".toList ')' t with
      | some l => if isName l then some (.low l) else none
      | none =>
        match between "high(".toList ')' t with
        | some l => if isName l then some (.high l) else none
        | none =>
          match between ['('] ')' t with
          | some r => (readRegister (trim r)).map .indirect
          | none =>
            if isName t then some (.name t)
            else
              match splitWhere (· == '<') t with
              | [w, o] =>
                match between [] '>' o with
                | none => none
                | some o =>
                  match readNumber o with
                  | none => none
                  | some n => if w = [] then some (.rotation n) else (readNumber w).map (.field · n)
              | _ => none

/-- The operands of a line, separated by commas (30 R107); none where one is malformed. -/
def readOperands (t : Text) : Option (List Operand) :=
  if (trim t).isEmpty then some [] else ((splitWhere (· == ',') t).map trim).mapM readOperand

/-- The bit numbers of the condition names (30 R110). -/
def conditionNames : List (Text × Nat) :=
  ["eq", "ne", "gt", "le", "lt", "ge", "hi", "ls", "lo", "hs", "be", "nb", "he", "nh"].zipIdx.map
    (fun p => (p.1.toList, p.2 + 2))

/-! ## Instructions -/

/-- What an instruction line knows: the label table, none while only the form of the line is read (R118 a); whether
numbers must fit their fields, which is checked last; its address and its line number; whether a template's expansion
made it (R114). -/
structure AsmContext where
  labels : Option (List (Text × Nat))
  mustFit : Bool
  addr : Nat
  line : Nat
  inMacro : Bool
deriving DecidableEq, Repr

/-- The address of a label (30 R105); while only the form is read, any will do. -/
def AsmContext.label (c : AsmContext) (n : Text) : Except AsmError Nat :=
  match c.labels with
  | none => .ok c.addr
  | some table =>
    match lookupName n table with
    | some a => .ok a
    | none => .error (.undefinedSymbol n)

/-- A field's content; where it does not fit, an error once that is checked (R107, log entry 33). -/
def AsmContext.fit {α : Type} (c : AsmContext) (fits : Bool) (v : α) : Except AsmError α :=
  if c.mustFit && !fits then .error (.outOfField c.line) else .ok v

/-- A 16-bit immediate: a number that fits, or `low` or `high` of a label (30 R107, R108). A negative number is taken
where the immediate is signed. DESIGN CHOICE (log entry 33): a signed immediate takes the numbers 32768 to 65535 too, as
the field value that the disassembler prints. -/
def AsmContext.imm (c : AsmContext) (isSigned : Bool) (x : Operand) : Except AsmError Half :=
  match x with
  | .number z =>
    c.fit (decide ((if isSigned then -32768 else 0) ≤ z) && decide (z ≤ 65535)) (BitVec.ofInt 16 z)
  | .low l => (c.label l).map (fun a => BitVec.ofNat 16 a)
  | .high l => (c.label l).map (fun a => BitVec.ofNat 16 (a / 65536))
  | _ => .error (.parse c.line)

/-- A branch displacement of `n` bits: a number of words, or a label, which an expansion may not use (30 R109, R114).
DESIGN CHOICE (log entry 33): the distance to a label that is no multiple of 4 is divided rounding down. -/
def AsmContext.displacement (c : AsmContext) (n : Nat) (x : Operand) : Except AsmError (BitVec n) :=
  let field (z : Int) : Except AsmError (BitVec n) :=
    c.fit (decide (-(2 ^ (n - 1) : Nat) ≤ z) && decide (z < (2 ^ (n - 1) : Nat))) (BitVec.ofInt n z)
  match x with
  | .number z => field z
  | .name l =>
    if c.inMacro then .error (.parse c.line) else (c.label l).bind (fun a => field (((a : Int) - c.addr) / 4))
  | _ => .error (.parse c.line)

/-- The bit number of `bb0` and `bb1`: a number or a condition name (30 R110). -/
def AsmContext.bitNumber (c : AsmContext) (x : Operand) : Except AsmError (BitVec 5) :=
  match x with
  | .number z => c.fit (decide (0 ≤ z) && decide (z < 32)) (BitVec.ofInt 5 z)
  | .name n =>
    match lookupName n conditionNames with
    | some b => .ok (BitVec.ofNat 5 b)
    | none => .error (.parse c.line)
  | _ => .error (.parse c.line)

/-- A five-bit field of a bit-field operand. -/
def AsmContext.five (c : AsmContext) (n : Nat) : Except AsmError (BitVec 5) :=
  c.fit (decide (n < 32)) (BitVec.ofNat 5 n)

/-- `and`, `xor`, `or` (40 R131 to R137). -/
def asmLogical (c : AsmContext) (ki : Bool → Reg → Reg → Half → Instr) (kr : Bool → Reg → Reg → Reg → Instr)
    (sfx : List String) (ops : List Operand) : Except AsmError Instr :=
  match sfx, ops with
  | [], [.reg d, .reg a, .reg b] => .ok (kr false d a b)
  | ["c"], [.reg d, .reg a, .reg b] => .ok (kr true d a b)
  | [], [.reg d, .reg a, x] => (c.imm false x).map (ki false d a)
  | ["u"], [.reg d, .reg a, x] => (c.imm false x).map (ki true d a)
  | _, _ => .error (.parse c.line)

/-- `add`, `addu`, `sub`, `subu` (41 R146 to R153). -/
def asmCarry (c : AsmContext) (isSigned : Bool) (ki : Reg → Reg → Half → Instr)
    (kr : Bool → Bool → Reg → Reg → Reg → Instr) (sfx : List String) (ops : List Operand) : Except AsmError Instr :=
  match sfx, ops with
  | [], [.reg d, .reg a, .reg b] => .ok (kr false false d a b)
  | ["ci"], [.reg d, .reg a, .reg b] => .ok (kr true false d a b)
  | ["co"], [.reg d, .reg a, .reg b] => .ok (kr false true d a b)
  | ["cio"], [.reg d, .reg a, .reg b] => .ok (kr true true d a b)
  | [], [.reg d, .reg a, x] => (c.imm isSigned x).map (ki d a)
  | _, _ => .error (.parse c.line)

/-- An instruction with a register form and an immediate form and no option. -/
def asmPlain (c : AsmContext) (isSigned : Bool) (ki : Reg → Reg → Half → Instr) (kr : Reg → Reg → Reg → Instr)
    (ops : List Operand) : Except AsmError Instr :=
  match ops with
  | [.reg d, .reg a, .reg b] => .ok (kr d a b)
  | [.reg d, .reg a, x] => (c.imm isSigned x).map (ki d a)
  | _ => .error (.parse c.line)

/-- `mulu` and `divu` (41 R157, R158, R161, R162). -/
def asmWide (c : AsmContext) (ki : Reg → Reg → Half → Instr) (kr : Bool → Reg → Reg → Reg → Instr)
    (sfx : List String) (ops : List Operand) : Except AsmError Instr :=
  match sfx, ops with
  | [], [.reg d, .reg a, .reg b] => .ok (kr false d a b)
  | ["d"], [.reg d, .reg a, .reg b] => .ok (kr true d a b)
  | [], [.reg d, .reg a, x] => (c.imm false x).map (ki d a)
  | _, _ => .error (.parse c.line)

/-- A bit-field instruction (42 R171 to R180). -/
def asmField (c : AsmContext) (kb : Reg → Reg → BitVec 5 → BitVec 5 → Instr) (kr : Reg → Reg → Reg → Instr)
    (ops : List Operand) : Except AsmError Instr :=
  match ops with
  | [.reg d, .reg a, .reg b] => .ok (kr d a b)
  | [.reg d, .reg a, .field w o] => (c.five w).bind (fun w => (c.five o).map (kb d a w))
  | _ => .error (.parse c.line)

/-- A precision's letter (30 R94). -/
def readPrec (ch : Char) : Option Prec :=
  if ch = 's' then some .single else if ch = 'd' then some .double else none

/-- The precisions of a floating-point suffix (30 R94). -/
def readPrecs (sfx : List String) : Option (List Prec) :=
  match sfx with
  | [s] => s.toList.mapM readPrec
  | _ => none

/-- `fadd`, `fsub`, `fmul`, `fdiv`: destination, source 1, source 2 (30 R94). -/
def asmFloat (c : AsmContext) (k : Prec → Prec → Prec → Reg → Reg → Reg → Instr) (sfx : List String)
    (ops : List Operand) : Except AsmError Instr :=
  match readPrecs sfx, ops with
  | some [td, t1, t2], [.reg d, .reg a, .reg b] => .ok (k t1 t2 td d a b)
  | _, _ => .error (.parse c.line)

/-- `bb0` and `bb1` (44 R223, R224). -/
def asmBranchBit (c : AsmContext) (k : Bool → BitVec 5 → Reg → Half → Instr) (sfx : List String)
    (ops : List Operand) : Except AsmError Instr :=
  match sfx, ops with
  | [], [b, .reg a, x] => (c.bitNumber b).bind (fun b => (c.displacement 16 x).map (k false b a))
  | ["n"], [b, .reg a, x] => (c.bitNumber b).bind (fun b => (c.displacement 16 x).map (k true b a))
  | _, _ => .error (.parse c.line)

/-- `br` and `bsr` (44 R225, R226). -/
def asmBranch (c : AsmContext) (k : Bool → BitVec 26 → Instr) (sfx : List String) (ops : List Operand) :
    Except AsmError Instr :=
  match sfx, ops with
  | [], [x] => (c.displacement 26 x).map (k false)
  | ["n"], [x] => (c.displacement 26 x).map (k true)
  | _, _ => .error (.parse c.line)

/-- `jmp` and `jsr` (44 R227, R228). -/
def asmJump (c : AsmContext) (k : Bool → Reg → Instr) (sfx : List String) (ops : List Operand) :
    Except AsmError Instr :=
  match sfx, ops with
  | [], [.indirect r] => .ok (k false r)
  | ["n"], [.indirect r] => .ok (k true r)
  | _, _ => .error (.parse c.line)

/-- `st` of a size (45 R254 to R261). -/
def asmStore (c : AsmContext) (ki : Reg → Reg → Half → Instr) (kr : Bool → Reg → Reg → Reg → Instr) (wt : Bool)
    (ops : List Operand) : Except AsmError Instr :=
  match ops with
  | [.reg d, .reg a, .reg b] => .ok (kr wt d a b)
  | [.reg d, .reg a, x] => if wt then .error (.parse c.line) else (c.imm true x).map (ki d a)
  | _ => .error (.parse c.line)

/-- The instruction of a mnemonic cut at its dots, and its operands (30 R94, R106). -/
def asmInstr (c : AsmContext) (mn : List String) (ops : List Operand) : Except AsmError Instr :=
  match mn with
  | "and" :: s => asmLogical c .andImm .andReg s ops
  | "xor" :: s => asmLogical c .xorImm .xorReg s ops
  | "or" :: s => asmLogical c .orImm .orReg s ops
  | "mask" :: s =>
    match s, ops with
    | [], [.reg d, .reg a, x] => (c.imm false x).map (.maskImm false d a)
    | ["u"], [.reg d, .reg a, x] => (c.imm false x).map (.maskImm true d a)
    | _, _ => .error (.parse c.line)
  | "add" :: s => asmCarry c true .addImm .addReg s ops
  | "addu" :: s => asmCarry c false .adduImm .adduReg s ops
  | "sub" :: s => asmCarry c true .subImm .subReg s ops
  | "subu" :: s => asmCarry c false .subuImm .subuReg s ops
  | ["cmp"] => asmPlain c true .cmpImm .cmpReg ops
  | ["divs"] => asmPlain c true .divsImm .divsReg ops
  | ["muls"] =>
    match ops with
    | [.reg d, .reg a, .reg b] => .ok (.mulsReg d a b)
    | _ => .error (.parse c.line)
  | "mulu" :: s => asmWide c .muluImm .muluReg s ops
  | "divu" :: s => asmWide c .divuImm .divuReg s ops
  | ["clr"] => asmField c .clrBit .clrReg ops
  | ["set"] => asmField c .setBit .setReg ops
  | ["ext"] => asmField c .extBit .extReg ops
  | ["extu"] => asmField c .extuBit .extuReg ops
  | ["mak"] => asmField c .makBit .makReg ops
  | ["rot"] =>
    match ops with
    | [.reg d, .reg a, .reg b] => .ok (.rotReg d a b)
    | [.reg d, .reg a, .rotation o] => (c.five o).map (.rotBit d a)
    | _ => .error (.parse c.line)
  | "fadd" :: s => asmFloat c .fadd s ops
  | "fsub" :: s => asmFloat c .fsub s ops
  | "fmul" :: s => asmFloat c .fmul s ops
  | "fdiv" :: s => asmFloat c .fdiv s ops
  | "fcmp" :: s =>
    match readPrecs s, ops with
    | some [.single, t1, t2], [.reg d, .reg a, .reg b] => .ok (.fcmp t1 t2 d a b)
    | _, _ => .error (.parse c.line)
  | ["fcvt", "sd"] =>
    match ops with
    | [.reg d, .reg b] => .ok (.fcvt .double .single d b)
    | _ => .error (.parse c.line)
  | ["fcvt", "ds"] =>
    match ops with
    | [.reg d, .reg b] => .ok (.fcvt .single .double d b)
    | _ => .error (.parse c.line)
  | "flt" :: s =>
    match readPrecs s, ops with
    | some [td, .single], [.reg d, .reg b] => .ok (.flt td d b)
    | _, _ => .error (.parse c.line)
  | "int" :: s =>
    match readPrecs s, ops with
    | some [.single, t2], [.reg d, .reg b] => .ok (.fint t2 d b)
    | _, _ => .error (.parse c.line)
  | "bb0" :: s => asmBranchBit c .bb0 s ops
  | "bb1" :: s => asmBranchBit c .bb1 s ops
  | "br" :: s => asmBranch c .br s ops
  | "bsr" :: s => asmBranch c .bsr s ops
  | "jmp" :: s => asmJump c .jmp s ops
  | "jsr" :: s => asmJump c .jsr s ops
  | ["ld", "d"] => asmPlain c true .lddImm .lddReg ops
  | ["ld"] => asmPlain c true .ldImm .ldReg ops
  | ["ld", "h"] => asmPlain c true .ldhImm .ldhReg ops
  | ["ld", "b"] => asmPlain c true .ldbImm .ldbReg ops
  | ["ld", "hu"] => asmPlain c true .ldhuImm .ldhuReg ops
  | ["ld", "bu"] => asmPlain c true .ldbuImm .ldbuReg ops
  | ["st", "d"] => asmStore c .stdImm .stdReg false ops
  | ["st", "d", "wt"] => asmStore c .stdImm .stdReg true ops
  | ["st"] => asmStore c .stImm .stReg false ops
  | ["st", "wt"] => asmStore c .stImm .stReg true ops
  | ["st", "h"] => asmStore c .sthImm .sthReg false ops
  | ["st", "h", "wt"] => asmStore c .sthImm .sthReg true ops
  | ["st", "b"] => asmStore c .stbImm .stbReg false ops
  | ["st", "b", "wt"] => asmStore c .stbImm .stbReg true ops
  | ["ldcr"] =>
    match ops with
    | [.reg d] => .ok (.ldcr d)
    | _ => .error (.parse c.line)
  | ["stcr"] =>
    match ops with
    | [.reg a] => .ok (.stcr a)
    | _ => .error (.parse c.line)
  | ["xmem"] =>
    match ops with
    | [.reg d, .reg a, .reg b] => .ok (.xmem d a b)
    | _ => .error (.parse c.line)
  | ["stop"] => if ops.isEmpty then .ok .stop else .error (.parse c.line)
  | _ => .error (.parse c.line)

/-! ## Lines (30 R104, R105) -/

/-- What stands on a line after its label. -/
inductive Item where
  /-- An instruction: the mnemonic cut at its dots, and its operands. -/
  | instr (mn : List String) (ops : List Operand)
  /-- `org n` (R111). -/
  | org (n : Nat)
  /-- `data` with numbers (R112). -/
  | words (ws : List Int)
  /-- `data` with a string (R112). -/
  | chars (bs : List Byte)
  /-- `res n` (R113). -/
  | reserve (n : Nat)
deriving DecidableEq, Repr

/-- A line: its number, whether a template's expansion made it, its label, its item. -/
structure Line where
  number : Nat
  inMacro : Bool
  label : Option Text
  item : Option Item
deriving DecidableEq, Repr

/-- The line up to the comment (R104); a `;` inside a string begins none (log entry 33). `apart` says that a blank or
the beginning of the line stands before: a comment that follows another field without a blank is none (R104). -/
def cutComment (quoted apart : Bool) (t : Text) : Option Text :=
  match t with
  | [] => some []
  | '\\' :: c :: cs =>
    if quoted then (cutComment quoted false cs).map (fun r => '\\' :: c :: r)
    else (cutComment quoted false (c :: cs)).map ('\\' :: ·)
  | '"' :: cs => (cutComment (!quoted) false cs).map ('"' :: ·)
  | c :: cs =>
    if c = ';' && !quoted then (if apart then some [] else none)
    else (cutComment quoted (isBlank c) cs).map (c :: ·)

/-- The label at the head of a line and the rest (R105), which a blank separates from it (R104). -/
def splitLabel (t : Text) : Option Text × Text :=
  let n := t.takeWhile isAlnum
  match t.drop n.length with
  | [':'] => if isName n then (some n, []) else (none, t)
  | ':' :: c :: rest => if isName n && isBlank c then (some n, trim rest) else (none, t)
  | _ => (none, t)

/-- The characters of a string up to the closing quote, escapes replaced (R112). DESIGN CHOICE (log entry 33): a
character above code 255 gives the low byte of its code, and a backslash before another character than the six of the
rule is a parse error. -/
def readString (t : Text) : Option (List Byte) :=
  match t with
  | ['"'] => some []
  | '\\' :: c :: cs =>
    let code : Option Nat :=
      match c with
      | '"' => some 34
      | 'n' => some 10
      | 'r' => some 13
      | '0' => some 0
      | 't' => some 9
      | '\\' => some 92
      | _ => none
    code.bind (fun n => (readString cs).map (BitVec.ofNat 8 n :: ·))
  | c :: cs => if c = '"' then none else (readString cs).map (BitVec.ofNat 8 c.toNat :: ·)
  | [] => none

/-- The item of a line without comment and label; none where the line does not follow the syntax (R111 to R113). -/
def readItem (t : Text) : Option Item :=
  let mn := t.takeWhile (fun ch => !isBlank ch)
  let rest := trim (t.drop mn.length)
  if mn = "org".toList then (readNumber rest).map .org
  else if mn = "res".toList then (readNumber rest).map .reserve
  else if mn = "data".toList then
    match rest with
    | '"' :: cs => (readString cs).map .chars
    | _ => (((splitWhere (· == ',') rest).map trim).mapM readSigned).map .words
  else (readOperands rest).map (.instr ((splitWhere (· == '.') mn).map String.ofList))

/-- The form of an item is one of the syntax lines of its mnemonic (R106, R118 a): checked before any label is known and
whether or not its numbers fit. -/
def Item.checkForm (i : Item) (line : Nat) (inMacro : Bool) : Except AsmError Unit :=
  match i with
  | .instr mn ops =>
    (asmInstr { labels := none, mustFit := false, addr := 0, line := line, inMacro := inMacro } mn ops).map
      (fun _ => ())
  | .org _ => .ok ()
  | .words _ => .ok ()
  | .chars _ => .ok ()
  | .reserve _ => .ok ()

/-- The line of a text that stands after any label, read and its form checked. A label here, a second one or one that an
expansion would define, is a mnemonic that does not exist (R104, R114, R118 a). -/
def readSource (number : Nat) (inMacro : Bool) (t : Text) : Except AsmError Line :=
  let rest := trim t
  if rest.isEmpty then .ok { number := number, inMacro := inMacro, label := none, item := none }
  else
    match readItem rest with
    | none => .error (.parse number)
    | some i =>
      (i.checkForm number inMacro).map (fun _ =>
        { number := number, inMacro := inMacro, label := none, item := some i })

/-! ## Templates: the source's macros (30 R114) -/

/-- A template: its name, its formal parameters, its body as written. -/
structure Template where
  name : Text
  params : List Text
  body : List Text
deriving DecidableEq, Repr

/-- A text with every name that is a formal parameter replaced by the actual one. `word` is the name being read. -/
def substitute (table : List (Text × Text)) (word : Text) (t : Text) : Text :=
  let done := match lookupName word table with
    | some v => v
    | none => word
  match t with
  | [] => done
  | c :: cs => if isAlnum c then substitute table (word ++ [c]) cs else done ++ c :: substitute table [] cs

/-- `head(arg1, ..., argn)` as its head and arguments. DESIGN CHOICE (log entry 33): the head and the parenthesis stand
together; with a blank between them the line is a mnemonic and an operand, as `jmp (r1)`. -/
def readCall (t : Text) : Option (Text × List Text) :=
  let n := t.takeWhile isAlnum
  match between ['('] ')' (t.drop n.length) with
  | some args =>
    if isName n then some (n, if (trim args).isEmpty then [] else (splitWhere (· == ',') args).map trim) else none
  | none => none

/-- The lines that a line without label stands for, by the templates `ts`, the last one defined first: itself, or, where
it invokes a template, its body with the formal parameters replaced, in which the templates defined before that one are
expanded in turn (R114). The Boolean says that a template was expanded. DESIGN CHOICE (log entry 33): an invocation of a
template that is not defined before, and one with another number of arguments than its definition, is a parse error. -/
def expandLine (number : Nat) (ts : List Template) (t : Text) : Except AsmError (Bool × List Text) :=
  match ts with
  | [] =>
    match readCall (trim t) with
    | none => .ok (false, [t])
    | some _ => .error (.parse number)
  | m :: earlier =>
    match readCall (trim t) with
    | none => .ok (false, [t])
    | some (n, args) =>
      if n = m.name then
        if m.params.length = args.length then
          ((m.body.map (substitute (m.params.zip args) [])).mapM (expandLine number earlier)).map
            (fun ls => (true, ls.flatMap (fun l => l.2)))
        else .error (.parse number)
      else expandLine number earlier t

/-- A line may stand in the body of a template `m` defined after `ts` (R114): it defines no label, and a template it
invokes is defined before, unless a parameter names it. -/
def bodyLineOk (ts : List Template) (m : Template) (t : Text) : Bool :=
  (splitLabel (trim t)).1.isNone &&
    (match readCall (trim t) with
      | none => true
      | some (n, _) => m.params.contains n || ts.any (fun d => d.name == n))

/-- The head of a definition, `name: MACRO(arg1, ..., argn)` (R114). DESIGN CHOICE (log entry 33): the name is no entry
of the label table. -/
def readHead (t : Text) : Option (Text × List Text) :=
  let (label, rest) := splitLabel (trim t)
  match label, readCall rest with
  | some n, some (h, ps) => if h = "MACRO".toList then some (n, ps) else none
  | _, _ => none

/-- A label put on the first of some lines, which have none; alone where there is no line (log entry 33). -/
def putLabel (number : Nat) (label : Option Text) (ls : List Line) : List Line :=
  match label, ls with
  | none, ls => ls
  | some n, [] => [{ number := number, inMacro := false, label := some n, item := none }]
  | some n, l :: ls => { l with label := some n } :: ls

/-- The lines of one source line outside a definition: its label, if it has one, and what the rest stands for. -/
def readExpanded (ts : List Template) (number : Nat) (t : Text) : Except AsmError (List Line) :=
  let (label, rest) := splitLabel (trim t)
  (expandLine number ts rest).bind (fun b =>
    (b.2.mapM (readSource number b.1)).map (putLabel number label))

/-- The lines of a program, read in order: definitions are taken out, invocations expanded. `open?` is the template
being defined and the number of its first line. -/
def readLines (ts : List Template) (open? : Option (Nat × Template)) (lines : List (Nat × Text)) :
    Except AsmError (List Line) :=
  match lines with
  | [] =>
    match open? with
    | none => .ok []
    | some (k, _) => .error (.parse k)
  | (k, raw) :: rest =>
    match cutComment false true raw with
    | none => .error (.parse k)
    | some t =>
      match open? with
      | some (h, m) =>
        if trim t = "ENDMACRO".toList then readLines (m :: ts) none rest
        else if bodyLineOk ts m t then readLines ts (some (h, { m with body := m.body ++ [t] })) rest
        else .error (.parse k)
      | none =>
        match readHead t with
        | some (n, ps) =>
          if ps.all isName then readLines ts (some (k, { name := n, params := ps, body := [] })) rest
          else .error (.parse k)
        | none => (readExpanded ts k t).bind (fun ls => (readLines ts none rest).map (ls ++ ·))

/-! ## Placing and generating (30 R105, R111 to R116) -/

/-- An address brought up to a multiple of 4. -/
def alignWord (a : Nat) : Nat := (a + 3) / 4 * 4

/-- Where an item stands when the location counter is at `a` (R104, R112). DESIGN CHOICE (log entry 33): `res` stands at
the counter, aligned or not. -/
def Item.place (i : Item) (a : Nat) : Nat :=
  match i with
  | .instr _ _ => alignWord a
  | .org n => n
  | .words _ => alignWord a
  | .chars _ => a
  | .reserve _ => a

/-- The bytes an item occupies. -/
def Item.size (i : Item) : Nat :=
  match i with
  | .instr _ _ => 4
  | .org _ => 0
  | .words ws => 4 * ws.length
  | .chars bs => bs.length
  | .reserve n => n

/-- Every line with its address, which is the value of its label: that of its item, or the location counter. DESIGN
CHOICE (log entry 33): the address of an `org` line is the location it sets. -/
def placeLines (a : Nat) (ls : List Line) : List (Nat × Line) :=
  match ls with
  | [] => []
  | l :: ls =>
    match l.item with
    | none => (a, l) :: placeLines a ls
    | some i => (i.place a, l) :: placeLines (i.place a + i.size) ls

/-- The label table, in line order (R105). -/
def labelTable (ls : List (Nat × Line)) : List (Text × Nat) :=
  ls.filterMap (fun p => p.2.label.map (fun n => (n, p.1)))

/-- The first label of a table that stands in it again. -/
def repeatedLabel (labels : List (Text × Nat)) : Option Text :=
  match labels with
  | [] => none
  | (n, _) :: t => if (lookupName n t).isSome then some n else repeatedLabel t

/-- The bytes of a placed line in the byte order of option `-m` (R116, 70 R333). Where numbers must fit, a datum fits 32
bits (R112) and an area is a whole number of words (R113). -/
def generate (le : Bool) (labels : List (Text × Nat)) (mustFit : Bool) (p : Nat × Line) :
    Except AsmError (Nat × List Byte) :=
  let c : AsmContext :=
    { labels := some labels, mustFit := mustFit, addr := p.1, line := p.2.number, inMacro := p.2.inMacro }
  let bytes : Except AsmError (List Byte) :=
    match p.2.item with
    | some (.instr mn ops) => (asmInstr c mn ops).map (fun i => bytesOf le 4 ((encode i).setWidth 64))
    | some (.words ws) =>
      c.fit (ws.all (fun z => decide (-2147483648 ≤ z) && decide (z < 4294967296)))
        (ws.flatMap (fun z => bytesOf le 4 (BitVec.ofInt 64 z)))
    | some (.chars bs) => .ok bs
    | some (.org _) => .ok []
    | some (.reserve n) => c.fit (n % 4 == 0) []
    | none => .ok []
  bytes.map (fun bs => (p.1, bs))

/-- Blocks, each joined to the one before where it begins at that one's end (70 R330). -/
def joinBlocks (bs : List (Nat × List Byte)) : List (Nat × List Byte) :=
  match bs with
  | [] => []
  | (a, x) :: t =>
    match joinBlocks t with
    | [] => if x.isEmpty then [] else [(a, x)]
    | (b, y) :: u =>
      if x.isEmpty then (b, y) :: u
      else if a + x.length = b then (a, x ++ y) :: u
      else (a, x) :: (b, y) :: u

/-- The first address two of the ranges share. -/
def firstOverlap (rs : List (Nat × Nat)) : Option Nat :=
  match rs with
  | [] => none
  | r :: rs =>
    match rs.find? (fun q => !apartRanges r q) with
    | some q => some (max r.1 q.1)
    | none => firstOverlap rs

/-- The entry point given with `-e`: a number or a label; 0 without it (R116). -/
inductive Entry where
  | unset
  | at (n : Nat)
  | label (n : Text)
deriving DecidableEq, Repr

/-- The entry address (R116). -/
def Entry.resolve (e : Entry) (labels : List (Text × Nat)) : Except AsmError Nat :=
  match e with
  | .unset => .ok 0
  | .at n => .ok n
  | .label n =>
    match lookupName n labels with
    | some a => .ok a
    | none => .error (.undefinedSymbol n)

/-- The lines of a source file, numbered from 1. -/
def readProgram (src : List Text) : Except AsmError (List Line) :=
  readLines [] none (src.zipIdx.map (fun p => (p.2 + 1, p.1)))

/-- The reserved areas of placed lines (R113). -/
def reservedAreas (placed : List (Nat × Line)) : List (Nat × Nat) :=
  placed.filterMap (fun p =>
    match p.2.item with
    | some (.reserve n) => if n = 0 then none else some (p.1, n)
    | _ => none)

/-- The assembler (30 R104 to R118): the image of a source file, for an entry point and a byte order. The errors that
the source shows come first: the first line that does not follow the syntax, the first undefined symbol or that of the
entry, overlapping areas. DESIGN CHOICE (log entry 33): the model's own follow, a repeated label and the first number
that does not fit. -/
def assembleProgram (entry : Entry) (le : Bool) (src : List Text) : Except AsmError Image :=
  (readProgram src).bind (fun ls =>
    let placed := placeLines 0 ls
    let labels := labelTable placed
    let reserved := reservedAreas placed
    (placed.mapM (generate le labels false)).bind (fun blocks =>
      (entry.resolve labels).bind (fun e =>
        let joined := joinBlocks blocks
        match firstOverlap (joined.map (fun b => (b.1, b.2.length)) ++ reserved) with
        | some a => .error (.overlap a)
        | none =>
          match repeatedLabel labels with
          | some n => .error (.repeatedLabel n)
          | none =>
            (placed.mapM (generate le labels true)).map (fun _ =>
              { blocks := joined, reserved := reserved, entry := e, labels := labels }))))

/-- The messages of an assembly (30 R111, R117, R118): `file` is the source file's name. DESIGN CHOICE (log entry 33):
the number of compiled lines, which is 28 for a file of 28 lines and 10 for one of 9, and the two numbers of the
undefined-symbol message are arguments, since the source does not explain them. -/
def assemblyMessages (file : Text) (count : Nat) (n1 n2 : Nat) (r : Except AsmError Image) : List Text :=
  let compiling := "Compilando ".toList ++ file ++ " ...".toList
  let compiled := "Compiladas ".toList ++ decimal count ++ " lineas".toList
  match r with
  | .ok _ => [compiling, compiled, "Generando Codigo...".toList, "Programa generado correctamente".toList]
  | .error (.parse k) => [compiling, "ERROR: Linea: ".toList ++ decimal k ++ " - parse error".toList]
  | .error (.undefinedSymbol n) =>
    [compiling, compiled, "Linea ".toList ++ decimal n1 ++ " (".toList ++ decimal n2
        ++ "): El simbolo no esta definido (".toList ++ n ++ [')'], "Programa no generado".toList]
  | .error (.overlap a) =>
    [compiling, compiled, "Generando Codigo...".toList,
      "ERROR: Hay direcciones solapadas alrededor de la posicion ".toList ++ decimal (a + 1),
      "No pude generar programa".toList]
  | .error (.repeatedLabel _) => [compiling]
  | .error (.outOfField _) => [compiling]

/-! ## The command line (30 R116) -/

/-- The options of `88110e` read so far. -/
structure AsmOptions where
  entry : Entry
  littleEndian : Bool
  output : Option Text
deriving DecidableEq, Repr

/-- The options when none is given: entry 0, little endian, no output file (R116). -/
def AsmOptions.default : AsmOptions := { entry := .unset, littleEndian := true, output := none }

/-- An option and its value: `e` with a decimal number or a label, `m` with `l` or `b`, `o` with a file. -/
def AsmOptions.put (o : AsmOptions) (letter : Char) (value : Text) : Option AsmOptions :=
  match letter with
  | 'e' =>
    if isName value then some { o with entry := .label value }
    else if value.isEmpty then none
    else (readDigits 10 0 value).map (fun n => { o with entry := .at n })
  | 'm' =>
    if value = ['l'] then some { o with littleEndian := true }
    else if value = ['b'] then some { o with littleEndian := false }
    else none
  | 'o' => some { o with output := some value }
  | _ => none

/-- The options and, last, the source file; the value follows the option letter directly or after a blank (R116). -/
def readOptions (o : AsmOptions) (ws : List Text) : Option (AsmOptions × Text) :=
  match ws with
  | [] => none
  | [file] => if file.head? = some '-' then none else some (o, file)
  | w :: v :: rest =>
    match w with
    | ['-', c] => (o.put c v).bind (fun o => readOptions o rest)
    | '-' :: c :: value => (o.put c value).bind (fun o => readOptions o (v :: rest))
    | _ => none

/-- An invocation of the assembler (R116). -/
structure Invocation where
  entry : Entry
  littleEndian : Bool
  output : Text
  source : Text
deriving DecidableEq, Repr

/-- A command line `88110e [-e entry] [-m{l|b}] -o output source` (R116); none without `-o`. -/
def readInvocation (line : Text) : Option Invocation :=
  match wordsOf line with
  | [] => none
  | prog :: ws =>
    if prog = "88110e".toList then
      (readOptions AsmOptions.default ws).bind (fun r =>
        r.1.output.map (fun out =>
          { entry := r.1.entry, littleEndian := r.1.littleEndian, output := out, source := r.2 }))
    else none

/-- What an invocation leaves: the messages, and the binary file's name and image where there is one (R115). -/
structure Assembly where
  messages : List Text
  binary : Option (Text × Image)
deriving DecidableEq, Repr

/-- The assembler invoked on the lines of its source file (R115 to R118); the numbers are those of the messages. -/
def runAssembler (count n1 n2 : Nat) (inv : Invocation) (src : List Text) : Assembly :=
  let r := assembleProgram inv.entry inv.littleEndian src
  { messages := assemblyMessages inv.source count n1 n2 r
    binary := match r with
      | .ok m => some (inv.output, m)
      | .error _ => none }

end Sys2Proof.Machine
end

