-- ==== Sys2Proof/Tests/Slice0.lean ====
section
/-! SUPPORT. Tests. Expected values come from the spec: words from the encodings of 30 and 40 to 46 and the vectors of
95, results from the vectors of 95 (cited as `V<n>`, `S<n>`). At the end a witness for every statement that has
hypotheses: a state and operands that meet them. -/

open Sys2Proof Sys2Proof.Machine

namespace Sys2Proof.Tests

set_option Elab.async false

/-- Reset with some registers set. -/
def st (rs : List (Reg × Word)) : State := rs.foldl (fun s p => s.setReg p.1 p.2) State.reset

/-- The same with another `CR`. -/
def stCr (cr : Word) (rs : List (Reg × Word)) : State := { st rs with cr := cr }

/-- The state with bytes in memory. -/
def withMem (s : State) (a : Nat) (bs : List Byte) : State := { s with mem := s.mem.writeBytes a bs }

/-- One step from `s` with the instruction word `w` at `pc`. -/
def run (s : State) (w : Nat) : Result := step (s.withFetchWord 32 w)

/-- What a next state shows; none after a fault or a refusal. -/
def shows {α : Type} (r : Result) (f : State → α) : Option α :=
  match r with
  | .next t => some (f t)
  | .fault _ => none
  | .refused _ => none

/-- The fault of a step. -/
def faultOf (r : Result) : Option Fault :=
  match r with
  | .next _ => none
  | .fault f => some f
  | .refused _ => none

/-! ## Well-formedness: each check refuses an ill-formed term (10 R24, 00 R8) -/

theorem test_wellFormed_refuses_pairs :
    (Instr.muluReg true 31#5 1#5 2#5).wellFormed = false ∧ (Instr.divuReg true 31#5 1#5 2#5).wellFormed = false ∧
    (Instr.divuReg true 1#5 31#5 2#5).wellFormed = false ∧
    (Instr.fadd .double .single .single 1#5 31#5 2#5).wellFormed = false ∧
    (Instr.fsub .single .double .single 1#5 2#5 31#5).wellFormed = false ∧
    (Instr.fmul .single .single .double 31#5 1#5 2#5).wellFormed = false ∧
    (Instr.fdiv .double .single .single 1#5 31#5 2#5).wellFormed = false ∧
    (Instr.fcmp .double .single 1#5 31#5 2#5).wellFormed = false ∧
    (Instr.fcmp .single .double 1#5 2#5 31#5).wellFormed = false ∧
    (Instr.fcvt .double .single 1#5 31#5).wellFormed = false ∧
    (Instr.fcvt .single .double 31#5 1#5).wellFormed = false ∧
    (Instr.flt .double 31#5 1#5).wellFormed = false ∧ (Instr.fint .double 1#5 31#5).wellFormed = false ∧
    (Instr.lddImm 31#5 1#5 0#16).wellFormed = false ∧ (Instr.lddReg 31#5 1#5 2#5).wellFormed = false ∧
    (Instr.stdImm 31#5 1#5 0#16).wellFormed = false ∧ (Instr.stdReg false 31#5 1#5 2#5).wellFormed = false := by
  decide

theorem test_wellFormed_accepts_single_r31 :
    (Instr.muluReg false 31#5 31#5 31#5).wellFormed = true ∧
    (Instr.fadd .single .single .single 31#5 31#5 31#5).wellFormed = true ∧
    (Instr.lddImm 30#5 31#5 0#16).wellFormed = true ∧ (Instr.divuReg true 30#5 30#5 31#5).wellFormed = true := by
  decide

theorem test_wellFormed_refuses_cache_lines :
    (Config.Emulator.wellFormed { Config.Emulator.default with
      dcache := { Config.Cache.off with bytesPerLine := 4 } }) = false ∧
    (Config.Emulator.wellFormed { Config.Emulator.default with
      icache := { Config.Cache.off with bytesPerLine := 12 } }) = false ∧
    Config.Emulator.default.wellFormed = true := by decide

theorem test_wellFormed_refuses_images :
    (Image.wellFormed { blocks := [], reserved := [], entry := 2, labels := [] }) = false ∧
    (Image.wellFormed { blocks := [], reserved := [], entry := 0x40000, labels := [] }) = false ∧
    (Image.wellFormed { blocks := [(0x3ffff, [1#8, 2#8])], reserved := [], entry := 0, labels := [] }) = false ∧
    (Image.wellFormed { blocks := [(0, [1#8, 2#8]), (1, [3#8])], reserved := [], entry := 0, labels := [] }) = false ∧
    (Image.wellFormed { blocks := [], reserved := [(8, 6)], entry := 0, labels := [] }) = false ∧
    (Image.wellFormed { blocks := [(0, [1#8])], reserved := [(8, 4)], entry := 0x3fffc, labels := [] }) = true := by
  decide

/-! ## Decoding: for every constructor a word written out field by field from its diagram (30 R84 to R92) -/

theorem test_decode_logical :
    decode (0b01000#5 ++ 0b1#1 ++ 0b00011#5 ++ 0b00001#5 ++ 0x0F0F#16) = some (.andImm true 3#5 1#5 0x0F0F#16) ∧
    decode (0b111101#6 ++ 0b00011#5 ++ 0b00001#5 ++ 0b01000#5 ++ 0b1#1 ++ 0b00000#5 ++ 0b00010#5)
      = some (.andReg true 3#5 1#5 2#5) ∧
    decode (0b01010#5 ++ 0b0#1 ++ 0b00011#5 ++ 0b00001#5 ++ 0xFFFF#16) = some (.xorImm false 3#5 1#5 0xFFFF#16) ∧
    decode (0b111101#6 ++ 0b00011#5 ++ 0b00001#5 ++ 0b01010#5 ++ 0b0#1 ++ 0b00000#5 ++ 0b00010#5)
      = some (.xorReg false 3#5 1#5 2#5) ∧
    decode (0b01001#5 ++ 0b0#1 ++ 0b00011#5 ++ 0b00001#5 ++ 0x0FF0#16) = some (.maskImm false 3#5 1#5 0x0FF0#16) ∧
    decode (0b01011#5 ++ 0b1#1 ++ 0b00011#5 ++ 0b00001#5 ++ 0x8001#16) = some (.orImm true 3#5 1#5 0x8001#16) ∧
    decode (0b111101#6 ++ 0b00011#5 ++ 0b00001#5 ++ 0b01011#5 ++ 0b1#1 ++ 0b00000#5 ++ 0b00010#5)
      = some (.orReg true 3#5 1#5 2#5) := by decide

theorem test_decode_integer_immediate :
    decode (0b011100#6 ++ 0b00011#5 ++ 0b00001#5 ++ 0x0064#16) = some (.addImm 3#5 1#5 0x0064#16) ∧
    decode (0b011000#6 ++ 0b00011#5 ++ 0b00001#5 ++ 0xFFFF#16) = some (.adduImm 3#5 1#5 0xFFFF#16) ∧
    decode (0b011101#6 ++ 0b00011#5 ++ 0b00001#5 ++ 0x0001#16) = some (.subImm 3#5 1#5 0x0001#16) ∧
    decode (0b011001#6 ++ 0b00101#5 ++ 0b00101#5 ++ 0x0001#16) = some (.subuImm 5#5 5#5 0x0001#16) ∧
    decode (0b011111#6 ++ 0b00100#5 ++ 0b00101#5 ++ 0x0000#16) = some (.cmpImm 4#5 5#5 0#16) ∧
    decode (0b011011#6 ++ 0b00011#5 ++ 0b00001#5 ++ 0x000A#16) = some (.muluImm 3#5 1#5 0x000A#16) ∧
    decode (0b011110#6 ++ 0b00011#5 ++ 0b00001#5 ++ 0xFFFE#16) = some (.divsImm 3#5 1#5 0xFFFE#16) ∧
    decode (0b011010#6 ++ 0b00011#5 ++ 0b00001#5 ++ 0x0002#16) = some (.divuImm 3#5 1#5 0x0002#16) := by decide

theorem test_decode_integer_register :
    decode (0b111101#6 ++ 0b00011#5 ++ 0b00001#5 ++ 0b011100#6 ++ 0b1#1 ++ 0b0#1 ++ 0b000#3 ++ 0b00010#5)
      = some (.addReg true false 3#5 1#5 2#5) ∧
    decode (0b111101#6 ++ 0b00011#5 ++ 0b00001#5 ++ 0b011000#6 ++ 0b0#1 ++ 0b1#1 ++ 0b000#3 ++ 0b00010#5)
      = some (.adduReg false true 3#5 1#5 2#5) ∧
    decode (0b111101#6 ++ 0b00011#5 ++ 0b00001#5 ++ 0b011101#6 ++ 0b1#1 ++ 0b1#1 ++ 0b000#3 ++ 0b00010#5)
      = some (.subReg true true 3#5 1#5 2#5) ∧
    decode (0b111101#6 ++ 0b00011#5 ++ 0b00001#5 ++ 0b011001#6 ++ 0b0#1 ++ 0b0#1 ++ 0b000#3 ++ 0b00010#5)
      = some (.subuReg false false 3#5 1#5 2#5) ∧
    decode (0b111101#6 ++ 0b00100#5 ++ 0b00001#5 ++ 0b01111100000#11 ++ 0b00010#5) = some (.cmpReg 4#5 1#5 2#5) ∧
    decode (0b111101#6 ++ 0b00011#5 ++ 0b00001#5 ++ 0b01101110000#11 ++ 0b00010#5) = some (.mulsReg 3#5 1#5 2#5) ∧
    decode (0b111101#6 ++ 0b00100#5 ++ 0b00001#5 ++ 0b0110110#7 ++ 0b1#1 ++ 0b000#3 ++ 0b00010#5)
      = some (.muluReg true 4#5 1#5 2#5) ∧
    decode (0b111101#6 ++ 0b00011#5 ++ 0b00001#5 ++ 0b01111000000#11 ++ 0b00010#5) = some (.divsReg 3#5 1#5 2#5) ∧
    decode (0b111101#6 ++ 0b00110#5 ++ 0b00100#5 ++ 0b0110100#7 ++ 0b1#1 ++ 0b000#3 ++ 0b00010#5)
      = some (.divuReg true 6#5 4#5 2#5) := by decide

theorem test_decode_bit_field :
    decode (0b111100#6 ++ 0b00011#5 ++ 0b00001#5 ++ 0b100000#6 ++ 0b00101#5 ++ 0b10000#5)
      = some (.clrBit 3#5 1#5 5#5 16#5) ∧
    decode (0b111101#6 ++ 0b00011#5 ++ 0b00001#5 ++ 0b10000000000#11 ++ 0b00010#5) = some (.clrReg 3#5 1#5 2#5) ∧
    decode (0b111100#6 ++ 0b00011#5 ++ 0b00001#5 ++ 0b100010#6 ++ 0b00101#5 ++ 0b10000#5)
      = some (.setBit 3#5 1#5 5#5 16#5) ∧
    decode (0b111101#6 ++ 0b00011#5 ++ 0b00001#5 ++ 0b10001000000#11 ++ 0b00010#5) = some (.setReg 3#5 1#5 2#5) ∧
    decode (0b111100#6 ++ 0b00011#5 ++ 0b00001#5 ++ 0b100100#6 ++ 0b00101#5 ++ 0b10000#5)
      = some (.extBit 3#5 1#5 5#5 16#5) ∧
    decode (0b111101#6 ++ 0b00011#5 ++ 0b00001#5 ++ 0b10010000000#11 ++ 0b00010#5) = some (.extReg 3#5 1#5 2#5) ∧
    decode (0b111100#6 ++ 0b00011#5 ++ 0b00001#5 ++ 0b100110#6 ++ 0b00101#5 ++ 0b10000#5)
      = some (.extuBit 3#5 1#5 5#5 16#5) ∧
    decode (0b111101#6 ++ 0b00011#5 ++ 0b00001#5 ++ 0b10011000000#11 ++ 0b00010#5) = some (.extuReg 3#5 1#5 2#5) ∧
    decode (0b111100#6 ++ 0b00011#5 ++ 0b00001#5 ++ 0b101000#6 ++ 0b00101#5 ++ 0b10000#5)
      = some (.makBit 3#5 1#5 5#5 16#5) ∧
    decode (0b111101#6 ++ 0b00011#5 ++ 0b00001#5 ++ 0b10100000000#11 ++ 0b00010#5) = some (.makReg 3#5 1#5 2#5) ∧
    decode (0b111100#6 ++ 0b00011#5 ++ 0b00001#5 ++ 0b101010#6 ++ 0b00000#5 ++ 0b01000#5)
      = some (.rotBit 3#5 1#5 8#5) ∧
    decode (0b111101#6 ++ 0b00011#5 ++ 0b00001#5 ++ 0b10101000000#11 ++ 0b00010#5) = some (.rotReg 3#5 1#5 2#5) := by
  decide

theorem test_decode_float :
    decode (0b100001#6 ++ 0b01010#5 ++ 0b01111#5 ++ 0b00101#5 ++ 0b00#2 ++ 0b01#2 ++ 0b01#2 ++ 0b10011#5)
      = some (.fadd .single .double .double 10#5 15#5 19#5) ∧
    decode (0b100001#6 ++ 0b00100#5 ++ 0b00110#5 ++ 0b00111#5 ++ 0b01#2 ++ 0b00#2 ++ 0b00#2 ++ 0b01000#5)
      = some (.fcmp .double .single 4#5 6#5 8#5) ∧
    decode (0b100001#6 ++ 0b00100#5 ++ 0b00000#5 ++ 0b00001#5 ++ 0b00#2 ++ 0b00#2 ++ 0b01#2 ++ 0b01000#5)
      = some (.fcvt .single .double 4#5 8#5) ∧
    decode (0b100001#6 ++ 0b00100#5 ++ 0b00110#5 ++ 0b01110#5 ++ 0b01#2 ++ 0b00#2 ++ 0b00#2 ++ 0b01000#5)
      = some (.fdiv .double .single .single 4#5 6#5 8#5) ∧
    decode (0b100001#6 ++ 0b00100#5 ++ 0b00000#5 ++ 0b00100#5 ++ 0b00#2 ++ 0b00#2 ++ 0b01#2 ++ 0b01000#5)
      = some (.flt .double 4#5 8#5) ∧
    decode (0b100001#6 ++ 0b00100#5 ++ 0b00110#5 ++ 0b00000#5 ++ 0b00#2 ++ 0b01#2 ++ 0b00#2 ++ 0b01000#5)
      = some (.fmul .single .double .single 4#5 6#5 8#5) ∧
    decode (0b100001#6 ++ 0b00100#5 ++ 0b00110#5 ++ 0b00110#5 ++ 0b01#2 ++ 0b00#2 ++ 0b01#2 ++ 0b01000#5)
      = some (.fsub .double .single .double 4#5 6#5 8#5) ∧
    decode (0b100001#6 ++ 0b00100#5 ++ 0b00000#5 ++ 0b01001#5 ++ 0b00#2 ++ 0b01#2 ++ 0b00#2 ++ 0b01000#5)
      = some (.fint .double 4#5 8#5) := by decide

theorem test_decode_control_flow :
    decode (0b11010#5 ++ 0b0#1 ++ 0b00010#5 ++ 0b00100#5 ++ 0x0003#16) = some (.bb0 false 2#5 4#5 3#16) ∧
    decode (0b11011#5 ++ 0b1#1 ++ 0b00100#5 ++ 0b00101#5 ++ 0xFFF9#16) = some (.bb1 true 4#5 5#5 0xFFF9#16) ∧
    decode (0b11000#5 ++ 0b0#1 ++ 2#26) = some (.br false 2#26) ∧
    decode (0b11001#5 ++ 0b1#1 ++ 10#26) = some (.bsr true 10#26) ∧
    decode (0b111101#6 ++ 0#10 ++ 0b11000#5 ++ 0b0#1 ++ 0#5 ++ 0b00001#5) = some (.jmp false 1#5) ∧
    decode (0b111101#6 ++ 0#10 ++ 0b11001#5 ++ 0b1#1 ++ 0#5 ++ 0b00101#5) = some (.jsr true 5#5) := by decide

theorem test_decode_load :
    decode (0b000100#6 ++ 6#5 ++ 10#5 ++ 0x0004#16) = some (.lddImm 6#5 10#5 4#16) ∧
    decode (0b000101#6 ++ 6#5 ++ 10#5 ++ 0x0004#16) = some (.ldImm 6#5 10#5 4#16) ∧
    decode (0b000110#6 ++ 6#5 ++ 10#5 ++ 0x0004#16) = some (.ldhImm 6#5 10#5 4#16) ∧
    decode (0b000111#6 ++ 6#5 ++ 10#5 ++ 0x0004#16) = some (.ldbImm 6#5 10#5 4#16) ∧
    decode (0b000010#6 ++ 6#5 ++ 10#5 ++ 0x0004#16) = some (.ldhuImm 6#5 10#5 4#16) ∧
    decode (0b000011#6 ++ 6#5 ++ 10#5 ++ 0x0004#16) = some (.ldbuImm 6#5 10#5 4#16) ∧
    decode (0b111100#6 ++ 6#5 ++ 10#5 ++ 0b00010000000#11 ++ 11#5) = some (.lddReg 6#5 10#5 11#5) ∧
    decode (0b111100#6 ++ 6#5 ++ 10#5 ++ 0b00010100000#11 ++ 11#5) = some (.ldReg 6#5 10#5 11#5) ∧
    decode (0b111100#6 ++ 6#5 ++ 10#5 ++ 0b00011000000#11 ++ 11#5) = some (.ldhReg 6#5 10#5 11#5) ∧
    decode (0b111100#6 ++ 6#5 ++ 10#5 ++ 0b00011100000#11 ++ 11#5) = some (.ldbReg 6#5 10#5 11#5) ∧
    decode (0b111101#6 ++ 6#5 ++ 10#5 ++ 0b00001000000#11 ++ 11#5) = some (.ldhuReg 6#5 10#5 11#5) ∧
    decode (0b111101#6 ++ 6#5 ++ 10#5 ++ 0b00001100000#11 ++ 11#5) = some (.ldbuReg 6#5 10#5 11#5) := by decide

theorem test_decode_store_and_special :
    decode (0b001000#6 ++ 8#5 ++ 20#5 ++ 0x0008#16) = some (.stdImm 8#5 20#5 8#16) ∧
    decode (0b001001#6 ++ 8#5 ++ 20#5 ++ 0x0008#16) = some (.stImm 8#5 20#5 8#16) ∧
    decode (0b001010#6 ++ 8#5 ++ 20#5 ++ 0x0008#16) = some (.sthImm 8#5 20#5 8#16) ∧
    decode (0b001011#6 ++ 8#5 ++ 20#5 ++ 0x0008#16) = some (.stbImm 8#5 20#5 8#16) ∧
    decode (0b111100#6 ++ 8#5 ++ 20#5 ++ 0b001000#6 ++ 0b1#1 ++ 0b0000#4 ++ 21#5) = some (.stdReg true 8#5 20#5 21#5) ∧
    decode (0b111100#6 ++ 8#5 ++ 20#5 ++ 0b001001#6 ++ 0b0#1 ++ 0b0000#4 ++ 21#5) = some (.stReg false 8#5 20#5 21#5) ∧
    decode (0b111100#6 ++ 8#5 ++ 20#5 ++ 0b001010#6 ++ 0b1#1 ++ 0b0000#4 ++ 21#5) = some (.sthReg true 8#5 20#5 21#5) ∧
    decode (0b111100#6 ++ 8#5 ++ 20#5 ++ 0b001011#6 ++ 0b1#1 ++ 0b0000#4 ++ 21#5) = some (.stbReg true 8#5 20#5 21#5) ∧
    decode (0b100000#6 ++ 4#5 ++ 0b00000#5 ++ 0x0000#16) = some (.ldcr 4#5) ∧
    decode (0b100000#6 ++ 0b00000#5 ++ 1#5 ++ 0x8000#16) = some (.stcr 1#5) ∧
    decode (0b111101#6 ++ 3#5 ++ 1#5 ++ 0b00000000000#11 ++ 2#5) = some (.xmem 3#5 1#5 2#5) ∧
    decode (0b111111#6 ++ 0x3FFFFFF#26) = some .stop := by decide

/-- V46.2 to V46.6 and the illegal words of V43. -/
theorem test_decode_refuses :
    [0x00000000#32, 0xF4005821#32, 0x80800001#32, 0xF400C020#32, 0x84862C08#32, 0x84862908#32, 0x84862848#32,
      0x84863828#32, 0x84810828#32].map decode = List.replicate 9 none ∧ decode 0xF4005801#32
        = some (.orReg false 0#5 0#5 1#5)
      ∧ decode 0x68610002#32 = some (.divuImm 3#5 1#5 2#16) ∧ decode 0xD0000000#32
        = some (.bb0 false 0#5 0#5 0#16) := by
  decide

/-- V46.9: the loads under the other value of LDST_REG_MAJOR. -/
theorem test_decode_other_major :
    decodeWith 0b111101#6 0xF4A01414#32 = some (.ldReg 5#5 0#5 20#5) ∧ decodeWith 0b111101#6 0xF0A01414#32 = none ∧
    encodeWith 0b111101#6 (.stReg false 10#5 0#5 22#5) = 0xF5402416#32 := by decide

/-- The words of the listing S3 and of P2, P3 come out of the encoder. -/
theorem test_encode_listing :
    encode (.orImm true 20#5 20#5 0#16) = 0x5E940000#32 ∧ encode (.adduReg false true 10#5 10#5 11#5) = 0xF54A610B#32 ∧
    encode (.bb1 false 4#5 4#5 0xFFF9#16) = 0xD884FFF9#32 ∧ encode (.bsr true 4#26) = 0xCC000004#32 ∧
    encode (.makBit 6#5 5#5 8#5 8#5) = 0xF0C5A108#32 ∧ encode (.stdImm 8#5 20#5 12#16) = 0x2114000C#32 := by decide

/-! ## Logical and integer arithmetic (V40, V41) -/

/-- V40.1, V40.2, V40.4, V40.5, V40.8, V40.10, V40.11, V40.13, V40.15, V40.17. -/
theorem test_logical :
    ([0x40610F0F, 0x44610F0F, 0xF4614402, 0x5061FFFF, 0xF4615402, 0x48610FF0, 0x4C610FF0, 0x5C618001,
        0xF4615C02].map (fun w => shows (run (st [(1#5, 0x12345678#32), (2#5, 0xFF00FF00#32)]) w) (fun t => t.reg 3#5)))
      = [some 0x12340608#32, some 0x02045678#32, some 0x00340078#32, some 0x1234A987#32, some 0x12CB5687#32,
        some 0x00000670#32, some 0x02300000#32, some 0x92355678#32, some 0x12FF56FF#32] ∧
    shows (run (st [(1#5, 1#32)]) 0xF4015802) (fun t => (t.reg 0#5, t.pc, t.totInst)) = some (0#32, 4#32, 1) := by
  decide +kernel

/-- V41.4 and V41.5: an overflow inhibited and enabled. -/
theorem test_add_overflow :
    shows (run (st [(1#5, 0x7FFFFFFF#32), (3#5, 0xAAAA#32)]) 0x70610001) (fun t => (t.reg 3#5, t.cr, t.pc))
      = some (0xAAAA#32, 0x40001001#32, 4#32) ∧
    shows (run (stCr 0x40000000#32 [(1#5, 0x7FFFFFFF#32), (3#5, 0xAAAA#32)]) 0x70610001)
        (fun t => (t.reg 3#5, t.cr, t.pc, t.run))
      = some (0xAAAA#32, 0x40000000#32, 0#32, .exception .integerOverflow 0#32) := by decide +kernel

/-- V41.9, V41.11, V41.16, V41.30: the carry in and out. -/
theorem test_add_carry :
    shows (run (stCr 0x50000001#32 [(1#5, 0x7FFFFFFF#32), (2#5, 0x80000000#32)]) 0xF4617302) (fun t => (t.reg 3#5,
      t.cr))
      = some (0#32, 0x50000001#32) ∧
    shows (run (stCr 0x50000001#32 [(1#5, 1#32), (2#5, 2#32)]) 0xF4617102) (fun t => (t.reg 3#5, t.cr))
      = some (3#32, 0x40000001#32) ∧
    shows (run (stCr 0x50000001#32 [(1#5, 0xFFFFFFFF#32)]) 0xF4616302) (fun t => (t.reg 3#5, t.cr))
      = some (0#32, 0x50000001#32) := by decide +kernel

/-- V41.21, V41.22, V41.30, V41.19: the borrow. -/
theorem test_sub_borrow :
    shows (run (st [(1#5, 5#32), (2#5, 7#32)]) 0xF4617502) (fun t => (t.reg 3#5, t.carry))
      = some (0xFFFFFFFE#32, true) ∧
    shows (run (stCr 0x50000001#32 [(1#5, 7#32), (2#5, 5#32)]) 0xF4617502) (fun t => (t.reg 3#5, t.carry))
      = some (2#32, false) ∧
    shows (run (stCr 0x50000001#32 [(2#5, 0xFFFFFFFF#32)]) 0xF4616702) (fun t => (t.reg 3#5, t.carry))
      = some (0#32, true) ∧
    shows (run (st [(1#5, 0x7FFFFFFF#32), (3#5, 9#32)]) 0x7461FFFF) (fun t => (t.reg 3#5, t.cr))
      = some (9#32, 0x40001001#32) := by decide +kernel

/-- V41.21 to V41.24 under SUB_CARRY = not-borrow. -/
theorem test_sub_not_borrow :
    (subExact .notBorrow 5#32 7#32 true).carryOut = false ∧ (subExact .notBorrow 7#32 5#32 true).carryOut = true ∧
    (subExact .notBorrow 7#32 5#32 true).word = 2#32 ∧
    subExact .notBorrow 0#32 0#32 true = { fits := true, word := 0#32, carryOut := true } := by decide +kernel

/-- V41.33 to V41.37. -/
theorem test_cmp_strings :
    cmpString 1#32 0xFFFFFFFF#32 = 0x0000A698#32 ∧ cmpString 0x80000000#32 0x7FFFFFFF#32 = 0x0000A968#32 ∧
    cmpString 0x11223344#32 0x55667744#32 = 0x00009668#32 ∧ cmpString 0x11223344#32 0x44332211#32 = 0x0000A668#32 ∧
    cmpString 0x11223344#32 0x11229999#32 = 0x00005668#32 ∧
    shows (run (st [(5#5, 4#32)]) 0x7C850000) (fun t => t.reg 4#5) = some 0x00005998#32 := by decide +kernel

/-- V41.40, V41.44 to V41.46. -/
theorem test_multiply :
    shows (run (st [(1#5, 0x10000#32), (2#5, 0xFFFF8000#32)]) 0xF4616E02) (fun t => t.reg 3#5)
      = some 0x80000000#32 ∧
    shows (run (st [(1#5, 0xFFFFFFFF#32), (2#5, 0xFFFFFFFF#32)]) 0xF4816D02) (fun t => (t.reg 4#5, t.reg 5#5))
      = some (0xFFFFFFFE#32, 1#32) ∧
    faultOf (run (st [(1#5, 3#32), (2#5, 4#32)]) 0xF7E16D02) = some (.pairAtR31 0#32) ∧
    shows (run (st [(1#5, 0x10000#32), (2#5, 0x30000#32)]) 0xF4016D02) (fun t => (t.reg 0#5, t.reg 1#5))
      = some (0#32, 0#32) := by decide +kernel

/-- V41.48, V41.49, V41.51, V41.52. -/
theorem test_divide_signed :
    shows (run (st [(1#5, 0xFFFFFFF9#32)]) 0x78610002) (fun t => t.reg 3#5) = some 0xFFFFFFFD#32 ∧
    shows (run (st [(1#5, 7#32)]) 0x7861FFFE) (fun t => t.reg 3#5) = some 0xFFFFFFFD#32 ∧
    shows (run (st [(1#5, 7#32), (3#5, 9#32)]) 0xF4617802) (fun t => (t.reg 3#5, t.cr)) = some (9#32, 0x40002001#32) ∧
    shows (run (st [(1#5, 0x80000000#32), (3#5, 9#32)]) 0x7861FFFF) (fun t => (t.reg 3#5, t.cr))
      = some (9#32, 0x40001001#32) ∧
    (divSigned .floor 0xFFFFFFF9#32 2#32).word = 0xFFFFFFFC#32 := by decide +kernel

/-- V41.54, V41.57, V41.58. -/
theorem test_divide_unsigned :
    shows (run (st [(1#5, 0xFFFFFFFE#32)]) 0x68610002) (fun t => t.reg 3#5) = some 0x7FFFFFFF#32 ∧
    shows (run (st [(1#5, 0x64#32), (3#5, 9#32)]) 0x68610000) (fun t => (t.reg 3#5, t.cr))
      = some (9#32, 0x40002001#32) ∧
    shows (run (st [(4#5, 1#32), (2#5, 2#32)]) 0xF4C46902) (fun t => (t.reg 6#5, t.reg 7#5))
      = some (0#32, 0x80000000#32) := by decide +kernel

/-! ## Bit fields (V42) -/

/-- V42.5 (cut at bit 31) and V42.6. -/
theorem test_bit_fields :
    [0xF061811C, 0xF061891C, 0xF061911C, 0xF061991C, 0xF061A11C, 0xF0618104, 0xF0618904, 0xF0619104, 0xF0619904,
        0xF061A104].map (fun w => shows (run (st [(1#5, 0x87654321#32)]) w) (fun t => t.reg 3#5))
      = [some 0x07654321#32, some 0xF7654321#32, some 0xFFFFFFF8#32, some 0x00000008#32, some 0x10000000#32,
        some 0x87654001#32, some 0x87654FF1#32, some 0x00000032#32, some 0x00000032#32, some 0x00000210#32] := by
  decide +kernel

/-- V42.8 (bits 31:10 of `rS2` ignored), V42.11, V42.13. -/
theorem test_bit_fields_register :
    [0xF4618002, 0xF4618802, 0xF4619002, 0xF4619802, 0xF461A002].map
        (fun w => shows (run (st [(1#5, 0x87654321#32), (2#5, 0xFFFFFD04#32)]) w) (fun t => t.reg 3#5))
      = [some 0x87654001#32, some 0x87654FF1#32, some 0x00000032#32, some 0x00000032#32, some 0x00000210#32] ∧
    shows (run (st [(1#5, 0x12345678#32)]) 0xF061A81F) (fun t => t.reg 3#5) = some 0x2468ACF0#32 ∧
    shows (run (st [(1#5, 0x12345678#32), (2#5, 0x24#32)]) 0xF461A802) (fun t => t.reg 3#5)
      = some 0x81234567#32 := by decide +kernel

/-! ## Floating point (V43) -/

/-- V43.3, V43.6, V43.7, V43.9. -/
theorem test_float_arithmetic :
    shows (run (st [(15#5, 0x3FC00000#32), (19#5, 0x40020000#32)]) 0x854F28B3) (fun t => (t.reg 10#5, t.reg 11#5))
      = some (0x400E0000#32, 0#32) ∧
    shows (run (st [(6#5, 0x3FF00000#32), (8#5, 0x40400000#32)]) 0x84863228) (fun t => (t.reg 4#5, t.reg 5#5))
      = some (0xC0000000#32, 0#32) ∧
    shows (run (st [(6#5, 0x3FC00000#32), (8#5, 0xC0200000#32)]) 0x84860008) (fun t => t.reg 4#5)
      = some 0xC0700000#32 ∧
    shows (run (st [(6#5, 0x3FE00000#32), (8#5, 0x3FB99999#32), (9#5, 0x9999999A#32)]) 0x848602A8)
        (fun t => (t.reg 4#5, t.reg 5#5)) = some (0x3FA99999#32, 0x9999999A#32) := by decide +kernel

/-- V43.13 (1/3 in the four modes) and V43.12. -/
theorem test_float_divide :
    [0x40000001#32, 0x40000401#32, 0x40000801#32, 0x40000C01#32].map
        (fun cr => shows (run (stCr cr [(6#5, 0x3F800000#32), (8#5, 0x40400000#32)]) 0x84867008) (fun t => t.reg 4#5))
      = [some 0x3EAAAAAB#32, some 0x3EAAAAAA#32, some 0x3EAAAAAA#32, some 0x3EAAAAAB#32] ∧
    shows (run (stCr 0x40000000#32 [(6#5, 0x40C00000#32)]) 0x84867008) (fun t => (t.reg 4#5, t.run))
      = some (0#32, .exception .fpDivideByZero 0#32) ∧
    faultOf (run (st [(6#5, 0x40C00000#32)]) 0x84867008)
      = some (.unspecifiedFloatingPoint 0#32 .fpDivideByZero) := by decide +kernel

/-- V43.16, V43.18, V43.19. -/
theorem test_float_compare :
    shows (run (st [(6#5, 0x40400000#32), (8#5, 0xC0040000#32)]) 0x84863888) (fun t => t.reg 4#5)
      = some 0x0000004C#32 ∧
    shows (run (st [(8#5, 0x80000000#32)]) 0x84863A08) (fun t => t.reg 4#5) = some 0x00000052#32 ∧
    shows (run (st [(6#5, 0x7FC00000#32), (8#5, 0x3F800000#32)]) 0x84863808) (fun t => t.reg 4#5)
      = some 0x00000005#32 ∧
    fpCompare .reservedOperand (FpBits.single 0x7FC00000#32).classify (FpBits.single 0x3F800000#32).classify
      = .error .fpReservedOperand := by decide +kernel

/-- V43.21 to V43.23, V43.26, V43.30. -/
theorem test_float_conversions :
    shows (run (st [(8#5, 0x3DCCCCCD#32)]) 0x84800828) (fun t => (t.reg 4#5, t.reg 5#5))
      = some (0x3FB99999#32, 0xA0000000#32) ∧
    [0x40000001#32, 0x40000401#32].map (fun cr =>
        shows (run (stCr cr [(8#5, 0x3FB99999#32), (9#5, 0x9999999A#32)]) 0x84800888) (fun t => t.reg 4#5))
      = [some 0x3DCCCCCD#32, some 0x3DCCCCCC#32] ∧
    shows (run (st [(8#5, 0xFFFFFF9C#32)]) 0x84802028) (fun t => (t.reg 4#5, t.reg 5#5))
      = some (0xC0590000#32, 0#32) ∧
    shows (run (stCr 0x40000801#32 [(8#5, 0xFEFFFFFF#32)]) 0x84802008) (fun t => t.reg 4#5)
      = some 0xCB800001#32 := by decide +kernel

/-- The rounding table of `int` (V43) for 2.5 and -2.5, and V43.32. -/
theorem test_float_to_integer :
    [0x40000001#32, 0x40000401#32, 0x40000801#32, 0x40000C01#32].map (fun cr =>
        (shows (run (stCr cr [(8#5, 0x40200000#32)]) 0x84804808) (fun t => t.reg 4#5),
          shows (run (stCr cr [(8#5, 0xC0200000#32)]) 0x84804808) (fun t => t.reg 4#5)))
      = [(some 2#32, some 0xFFFFFFFE#32), (some 2#32, some 0xFFFFFFFE#32), (some 2#32, some 0xFFFFFFFD#32),
        (some 3#32, some 0xFFFFFFFE#32)] ∧
    shows (run (stCr 0x40000000#32 [(8#5, 0x41E00000#32)]) 0x84804888) (fun t => t.run)
      = some (.exception .fpOverflow 0#32) := by decide +kernel

/-! ## Control flow (V44) -/

/-- V44.1, V44.5 to V44.7, V44.9. -/
theorem test_branch_on_bit :
    shows (run { st [(4#5, 0x50000001#32)] with pc := 48#32 } 0xDB840007) (fun t => t.pc) = some 76#32 ∧
    shows (run { st [(4#5, 0x5998#32)] with pc := 60#32 } 0xDC84FFF9) (fun t => (t.pc, t.delay))
      = some (64#32, some 32#32) ∧
    shows (run { st [(4#5, 0x5AA4#32)] with pc := 60#32 } 0xDC84FFF9) (fun t => (t.pc, t.delay))
      = some (64#32, none) ∧
    shows (run { st [(4#5, 0x5998#32)] with pc := 100#32 } 0xD0440003) (fun t => t.pc) = some 112#32 ∧
    shows (run (st []) 0xD7E47FFF) (fun t => (t.pc, t.delay)) = some (4#32, some 0x1FFFC#32) := by decide +kernel

/-- V44.15, V44.18, V44.21, V44.25, V44.27, V44.28. -/
theorem test_jumps :
    shows (run { st [] with pc := 72#32 } 0xC3FFFFFD) (fun t => t.pc) = some 60#32 ∧
    shows (run { st [] with pc := 0x100#32 } 0xCC00000A) (fun t => (t.pc, t.delay, t.reg 1#5))
      = some (0x104#32, some 0x128#32, 0x108#32) ∧
    shows (run { st [(5#5, 0x107#32)] with pc := 0x200#32 } 0xF400C005) (fun t => t.pc) = some 0x104#32 ∧
    shows (run { st [(1#5, 0x300#32)] with pc := 0x40#32 } 0xF400C801) (fun t => (t.pc, t.reg 1#5))
      = some (0x300#32, 0x44#32) ∧
    faultOf (run { st [] with pc := 16#32, delay := some 40#32 } 0xC0000005)
      = some (.controlTransferInDelaySlot 16#32) ∧
    shows (run { st [] with pc := 16#32, delay := some 40#32 } 0xFFFFFFFF) (fun t => (t.pc, t.run, t.delay))
      = some (20#32, .stopped, none) := by decide +kernel

/-! ## Loads, stores, exchange, control register (V45) -/

/-- The memory and the address of V45.1 to V45.6. -/
def loadState (cr : Word) : State :=
  withMem (stCr cr [(10#5, 1000#32)]) 1000 [0x80#8, 0x90#8, 0xA0#8, 0xB0#8, 0x0F#8, 0#8, 0#8, 0#8]

theorem test_loads_little_endian :
    [0x1CCA0000, 0x0CCA0000, 0x18CA0000, 0x08CA0000, 0x14CA0000, 0xF0CA1C0B, 0xF4CA0C0B, 0xF0CA180B, 0xF4CA080B,
        0xF0CA140B].map (fun w => shows (run (loadState 0x40000001#32) w) (fun t => t.reg 6#5))
      = [some 0xFFFFFF80#32, some 0x80#32, some 0xFFFF9080#32, some 0x9080#32, some 0xB0A09080#32,
        some 0xFFFFFF80#32, some 0x80#32, some 0xFFFF9080#32, some 0x9080#32, some 0xB0A09080#32] ∧
    shows (run (loadState 0x40000001#32) 0x10CA0000) (fun t => (t.reg 6#5, t.reg 7#5))
      = some (0xF#32, 0xB0A09080#32) := by decide +kernel

theorem test_loads_big_endian :
    [0x18CA0000, 0x14CA0000].map (fun w => shows (run (loadState 0x00000001#32) w) (fun t => t.reg 6#5))
      = [some 0xFFFF8090#32, some 0x8090A0B0#32] ∧
    shows (run (loadState 0x00000001#32) 0xF0CA100B) (fun t => (t.reg 6#5, t.reg 7#5))
      = some (0x8090A0B0#32, 0x0F000000#32) := by decide +kernel

/-- V45.7 to V45.10: the immediate and the `.wt` words. -/
theorem test_stores :
    [(0x40000001#32, 0x2D140008), (0x40000001#32, 0xF1142A15), (0x40000001#32, 0xF1142615), (0x40000001#32, 0x21140008),
        (0x00000001#32, 0x29140008), (0x00000001#32, 0xF1142215)].map (fun p =>
        shows (run (stCr p.1 [(8#5, 0xB0A09080#32), (9#5, 0xF#32), (20#5, 2000#32), (21#5, 8#32)]) p.2)
          (fun t => t.mem.readBytes 2008 8))
      = [some [0x80#8, 0#8, 0#8, 0#8, 0#8, 0#8, 0#8, 0#8], some [0x80#8, 0x90#8, 0#8, 0#8, 0#8, 0#8, 0#8, 0#8],
        some [0x80#8, 0x90#8, 0xA0#8, 0xB0#8, 0#8, 0#8, 0#8, 0#8],
        some [0x0F#8, 0#8, 0#8, 0#8, 0x80#8, 0x90#8, 0xA0#8, 0xB0#8], some [0x90#8, 0x80#8, 0#8, 0#8, 0#8, 0#8, 0#8,
          0#8],
        some [0xB0#8, 0xA0#8, 0x90#8, 0x80#8, 0#8, 0#8, 0#8, 0x0F#8]] := by decide +kernel

/-- V45.15, V45.17, V45.20 to V45.23. -/
theorem test_load_corners :
    shows (run (withMem (st [(1#5, 1000#32)]) 1000 [7#8, 0#8, 0#8, 0#8, 9#8]) 0x10210000)
      (fun t => (t.reg 1#5, t.reg 2#5)) = some (9#32, 7#32) ∧
    faultOf (run (st [(1#5, 1000#32)]) 0x14610002) = some (.misaligned 0#32 1002#32 4) ∧
    faultOf (run (st [(1#5, 0x40000#32)]) 0x14610000) = some (.addressOutOfRange 0#32 0x40000#32) ∧
    faultOf (run (st []) 0x1460FFFC) = some (.addressOutOfRange 0#32 0xFFFFFFFC#32) ∧
    faultOf (run (st [(1#5, 0x3FFFC#32)]) 0x10810000) = some (.addressOutOfRange 0#32 0x3FFFC#32) ∧
    faultOf (run (st [(1#5, 1000#32)]) 0x23E10000) = some (.pairAtR31 0#32) := by decide +kernel

/-- V45.28, V45.32, V45.34, V45.31. -/
theorem test_exchange_and_control_register :
    shows (run (withMem (st [(1#5, 1000#32), (2#5, 8#32)]) 1008 [0x78#8, 0x56#8, 0x34#8, 0x12#8]) 0xF4210002)
        (fun t => (t.reg 1#5, t.mem.readBytes 1008 4))
      = some (0x12345678#32, [0xE8#8, 0x03#8, 0#8, 0#8]) ∧
    shows (run (st [(1#5, 0x50000401#32)]) 0x80018000) (fun t => t.cr) = some 0x50000401#32 ∧
    faultOf (run (st []) 0x80008000) = some (.byteOrderChanged 0#32) ∧
    shows (run (stCr 0x40003C01#32 []) 0x80800000) (fun t => t.reg 4#5) = some 0x40003C01#32 := by decide +kernel

/-! ## `stop`, fetch, the record of stored bytes (V46, 20 R67) -/

theorem test_stop_and_fetch_faults :
    shows (run { st [] with pc := 80#32 } 0xFFFFFFFF) (fun t => (t.run, t.pc, t.totInst))
      = some (.stopped, 84#32, 1) ∧
    faultOf (step (st [])) = some (.illegalInstruction 0#32 0#32) ∧
    faultOf (step { st [] with run := .stopped }) = some .machineStopped ∧
    faultOf (step { (withMem (st []) 0 [0xFF#8, 0xFF#8, 0xFF#8, 0xFF#8]) with stored := [3] })
      = some (.fetchAfterStore 0#32) ∧
    shows (run (st [(1#5, 0x1000#32)]) 0x24010000) (fun t => t.stored)
      = some [0x1000, 0x1001, 0x1002, 0x1003] := by decide +kernel

/-! ## Assembler, loader and console (95 S1 to S17) -/

/-- A source program. -/
def lines (ls : List String) : List Text := ls.map String.toList

/-- S1 and S2: `data` with numbers and with a string, and the view of memory. -/
theorem test_data_and_view :
    ((assembleProgram .unset true (lines ["org 140", "data -1, 2 , -9, -1, 0, 0x80000000"])).toOption.bind
        (fun m => (loadImage Config.Emulator.default m (fun _ => 0#8)).map (fun s => viewLines s 140 12)))
      = some (lines ["128 FFFFFFFF", "144 02000000 F7FFFFFF FFFFFFFF 00000000",
          "160 00000080 00000000 00000000 00000000"]) ∧
    ((assembleProgram .unset true (lines ["org 100", "data \"1234\\n\"", "data 3"])).toOption.map (fun m => m.blocks))
      = some [(100, [0x31#8, 0x32#8, 0x33#8, 0x34#8, 0x0A#8]), (108, [3#8, 0#8, 0#8, 0#8])] := by decide +kernel

/-- S14 (the message names 145), S12, and the two errors of S15. -/
theorem test_assembler :
    assembleProgram (.at 144) true (lines ["org 144", "and.c r1, r2, r3", "and r1, r2, r3", "and.c r1, r2, r3",
        "and r1, r2, 3", "org 140", "add r1, r2, 3", "bsr 1", "stop"]) = .error (.overlap 144) ∧
    ((assembleProgram .unset false (lines ["swap: MACRO(ra,rb)", "or r1, ra,ra", "or ra,rb,rb", "or rb,r1,r1",
        "ENDMACRO", "swap(r5,r8)"])).toOption.map (fun m => m.blocks))
      = some [(0, [0xF4#8, 0x25#8, 0x58#8, 0x05#8, 0xF4#8, 0xA8#8, 0x58#8, 0x08#8, 0xF5#8, 0x01#8, 0x58#8, 0x01#8])] ∧
    assembleProgram .unset true (lines ["org 0", "or r20,r0,N", "N: data 5"]) = .error (.parse 2) ∧
    assembleProgram .unset true (lines ["or r20,r0,low(n)", "N: data 5"])
      = .error (.undefinedSymbol "n".toList) := by decide +kernel

/-- The Sintaxis forms of `jmp` and `jsr` are instructions and no invocations (30 R106, 44 R227, R228); fields are
separated by blanks, and a line has one label at most (30 R104). -/
theorem test_assembler_lines :
    ((assembleProgram .unset false (lines ["jmp (r1)", "jsr (r5)"])).toOption.map (fun m => m.blocks))
      = some [(0, [0xF4#8, 0#8, 0xC0#8, 0x01#8, 0xF4#8, 0#8, 0xC8#8, 0x05#8])] ∧
    assembleProgram .unset true (lines ["L:stop"]) = .error (.parse 1) ∧
    assembleProgram .unset true (lines ["stop;x"]) = .error (.parse 1) ∧
    (assembleProgram .unset true (lines ["L: stop ;x"])).toOption.isSome = true ∧
    assembleProgram .unset true (lines ["A: B: stop"]) = .error (.parse 1) ∧
    assembleProgram .unset true (lines ["A: B:"]) = .error (.parse 1) ∧
    assembleProgram .unset true (lines ["bb0 40,r1,(r2)"]) = .error (.parse 1) ∧
    assembleProgram .unset true (lines ["data 5000000000, x"]) = .error (.parse 1) ∧
    assembleProgram .unset true (lines ["bb0 40,r1,x"]) = .error (.undefinedSymbol ['x']) ∧
    assembleProgram .unset true (lines ["stop", "bb0 40,r1,1"]) = .error (.outOfField 2) ∧
    assembleProgram .unset true (lines ["A: stop", "A: data 5000000000"]) = .error (.repeatedLabel ['A']) ∧
    assembleProgram .unset true (lines ["or r1,r0,low(n)", "foo r1"]) = .error (.parse 2) := by decide +kernel

/-- Templates: a branch in one takes a number only (30 R109, R114); the outer one's parameter `r2` does not touch the
register `r2` in the body of the inner one; an inner one must be defined before. -/
theorem test_templates :
    assembleProgram .unset true (lines ["L: stop", "m: MACRO()", "br L", "ENDMACRO", "m()"]) = .error (.parse 5) ∧
    ((assembleProgram .unset false (lines ["m: MACRO()", "br -1", "ENDMACRO", "stop", "m()"])).toOption.map
        (fun m => m.blocks)) = some [(0, [0xFF#8, 0xFF#8, 0xFF#8, 0xFF#8, 0xC3#8, 0xFF#8, 0xFF#8, 0xFF#8])] ∧
    ((assembleProgram .unset false (lines ["in: MACRO(ra)", "or r1,r2,ra", "ENDMACRO", "out: MACRO(r2,x)", "in(x)",
        "ENDMACRO", "out(r7,r8)"])).toOption.map (fun m => m.blocks)) = some [(0, [0xF4#8, 0x22#8, 0x58#8, 0x08#8])] ∧
    assembleProgram .unset true (lines ["out: MACRO()", "in()", "ENDMACRO", "stop"]) = .error (.parse 2) := by
  decide +kernel

/-- The command lines of 30 R116. -/
theorem test_command_lines :
    readInvocation "88110e -e 500 -ml -o practica.bin practica.ens".toList
      = some ⟨.at 500, true, "practica.bin".toList, "practica.ens".toList⟩ ∧
    readInvocation "88110e -emain -mb -o a.bin a.ens".toList
      = some ⟨.label "main".toList, false, "a.bin".toList, "a.ens".toList⟩ ∧
    readInvocation "88110e -e 0 a.ens".toList = none ∧
    (readInvocation "88110e -o a.bin a.ens".toList).map (fun v => (v.entry, v.littleEndian)) = some (.unset, true) ∧
    readEmulatorInvocation "mc88110 practica.bin".toList = some "practica.bin".toList := by decide +kernel

/-- S4: the first display. -/
theorem test_start :
    (startSession Config.Emulator.default
        { blocks := [(0, [0xE8#8, 0x03#8, 0x80#8, 0x5A#8])], reserved := [], entry := 0, labels := [] }
        (fun _ => 0#8)).map (fun p => (p.1.take 2, p.1.length, p.1.getLast?))
      = some (lines ["PC=0 or r20,r00,1000 Tot. Inst: 0 << Ciclo : 0", "FL=1 FE=1 FC=0 FV=0 FR=0"], 10,
          some "R29 = 00000000 h R30 = 00000000 h R31 = 00000000 h".toList) ∧
    prompt = "88110 > ".toList := by decide +kernel

/-- A fault is terminal (60 R302): the session that keeps it runs no further. An address outside memory is refused. -/
theorem test_console_refusals :
    (match console 9 0 { machine := st [], fault := none, labels := [], last := none } "e".toList with
      | .undescribed ses => some (ses.fault, console 9 0 ses "t".toList)
      | _ => none) = some (some (.illegalInstruction 0#32 0#32), .refused) ∧
    console 9 0 { machine := st [], fault := none, labels := [], last := none } "p - 0x40000".toList = .refused := by
  decide +kernel

/-- A breakpoint and a run on a program of two instructions: the message of S6 (70 R351). -/
theorem test_console_breakpoint :
    (match console 0 0
        { machine := withMem (st []) 0 [0#8, 0x58#8, 0#8, 0xF4#8], fault := none, labels := [], last := none }
        "p + 4".toList with
      | .shown ls ses => some (ls, ses.machine.breakpoints)
      | _ => none) = some ([], [4]) ∧
    (match runAnswer 248 { machine := st [], fault := none, labels := [], last := none }
        (.breakpoint { st [] with pc := 60#32 }) with
      | .shown ls _ => ls.head?
      | _ => none) = some "Alcanzado punto de ruptura, direccion 60".toList ∧
    (statusDisplay 0 (withMem (st []) 0 [0xE8#8, 0x03#8, 0x80#8, 0x5A#8])).take 3
      = lines ["PC=0 or r20,r00,1000 Tot. Inst: 0 << Ciclo : 0", "FL=1 FE=1 FC=0 FV=0 FR=0",
          "R01 = 00000000 h R02 = 00000000 h R03 = 00000000 h R04 = 00000000 h"] := by decide +kernel

/-- S3: lines of the disassembly. -/
theorem test_disassembly :
    [0x5E940000#32, 0xF0A01414#32, 0xF54A610B#32, 0xDB840007#32, 0xD884FFF9#32, 0x73C0FFFF#32, 0xFFFFFFFF#32, 0#32].map
        disassembleWord
      = lines ["or.u r20,r20,0", "ld r05,r00,r20", "addu.co r10,r10,r11", "bb1 28,r04,7", "bb1 04,r04,-7",
          "add r30,r00,65535", "stop", "instruccion incorrecta"] := by decide +kernel

/-! ## Witnesses: for every statement with hypotheses a state and operands that meet all of them, each clause at a
boundary of its range -/

/-- A state whose memory holds the word of an instruction at an address, little endian, with `pc` there. -/
def atWord (pc : Word) (w : Word) (rs : List (Reg × Word)) : State :=
  withMem { st rs with pc := pc } pc.toNat (bytesOf true 4 (w.setWidth 64))

theorem witness_EncodeOfDecode : decode 0xF54A610B#32 = some (.adduReg false true 10#5 10#5 11#5) := by decide

theorem witness_NotInstructions :
    (0x03FFFFFF#32).extractLsb' 26 6 ∈ [0b000000#6] ∧ (0xFBFFFFFF#32).extractLsb' 26 6 ∈ [0b111110#6] ∧
    ((0xFFFFFFFE#32).extractLsb' 26 6 = 0b111111#6 ∧ 0xFFFFFFFE#32 ≠ 0xFFFFFFFF#32) ∧
    ((0x84000400#32).extractLsb' 26 6 = 0b100001#6 ∧ (0x84000400#32).getLsbD 10 = true) ∧
    ((0xF000A820#32).extractLsb' 26 6 = 0b111100#6 ∧ (0xF000A820#32).extractLsb' 10 6 = 0b101010#6 ∧
      (0xF000A820#32).extractLsb' 5 5 ≠ 0#5) := by decide

/-- At the last word of memory, with a stored byte just below it. -/
theorem witness_StepRunsDecoded :
    let s := { atWord 0x3fffc#32 0x70610064#32 [] with stored := [0x3fffb] }
    s.run = .running ∧ InRange s.pc 4 ∧ IsAligned s.pc 4 ∧ (∀ a ∈ s.stored, a < s.pc.toNat ∨ s.pc.toNat + 4 ≤ a) ∧
      decode (wordAt s s.pc.toNat) = some (.addImm 3#5 1#5 0x64#16) := by
  unfold InRange IsAligned; decide +kernel

theorem witness_StepStops :
    ({ st [] with run := .stopped } : State).run = .stopped ∧
    ({ st [] with run := .exception .fpOverflow 4#32 } : State).run = .exception .fpOverflow 4#32 ∧
    (let s := { st [] with pc := 0x3fffd#32 }; s.run = .running ∧ ¬ InRange s.pc 4) ∧
    (let s := { st [] with pc := 0x3fffa#32 }; s.run = .running ∧ InRange s.pc 4 ∧ ¬ IsAligned s.pc 4) ∧
    (let s := { st [] with pc := 8#32, stored := [11] };
      s.run = .running ∧ InRange s.pc 4 ∧ IsAligned s.pc 4 ∧ ∃ a ∈ s.stored, s.pc.toNat ≤ a ∧ a < s.pc.toNat + 4) ∧
    (let s := { st [] with pc := 8#32, stored := [7, 12] };
      s.run = .running ∧ InRange s.pc 4 ∧ IsAligned s.pc 4 ∧
        (∀ a ∈ s.stored, a < s.pc.toNat ∨ s.pc.toNat + 4 ≤ a) ∧ decode (wordAt s s.pc.toNat) = none) := by
  unfold InRange IsAligned; decide +kernel

theorem witness_Sequencing :
    (∃ t, (st []).run = .running ∧ exec (.ldcr 3#5) (st []) = .next t ∧ t.run = .running ∧
      (Instr.ldcr 3#5).isControlFlow = false) ∧
    ∃ t, exec (.br true 2#26) (st []) = .next t ∧ t.run = .running ∧ (Instr.br true 2#26).isControlFlow = true :=
  ⟨⟨_, rfl, rfl, rfl, rfl⟩, _, rfl, rfl, rfl⟩

/-- The sums and differences 2^31 - 1 and -2^31, the last that fit. -/
theorem witness_SignedSumFits :
    let s := st [(1#5, 0x7FFFFFFE#32), (2#5, 0x80000001#32), (3#5, 1#32)];
    (s.reg 1#5).toInt + (1#16).toInt = 2147483647 ∧ (s.reg 2#5).toInt - (1#16).toInt = -2147483648 ∧
    (s.reg 1#5).toInt + (s.reg 3#5).toInt + 0 = 2147483647 ∧
    (s.reg 2#5).toInt - (s.reg 3#5).toInt - 0 = -2147483648 := by
  decide +kernel

theorem witness_CompareString :
    Instr.cmpImm 4#5 5#5 0xFFFF#16 = .cmpImm 4#5 5#5 0xFFFF#16 ∧ 0xFFFFFFFF#32 = (0xFFFF#16).signExtend 32 ∧
    Instr.cmpReg 4#5 1#5 2#5 = .cmpReg 4#5 1#5 2#5 ∧ 7#32 = (st [(2#5, 7#32)]).reg 2#5 := by decide +kernel

/-- The product -2^31, and the last register that names a pair. -/
theorem witness_Products :
    let s := st [(1#5, 0x10000#32), (2#5, 0xFFFF8000#32)];
    (s.reg 1#5).toInt * (s.reg 2#5).toInt = -2147483648 ∧ 30#5 ≠ 31#5 := by decide +kernel

theorem witness_SignedQuotient :
    let s := st [(1#5, 0x80000000#32), (2#5, 0xFFFFFFFE#32)];
    (0x8000#16).signExtend 32 ≠ 0#32 ∧ ¬ (s.reg 1#5 = 0x80000000#32 ∧ (0x8000#16).signExtend 32 = 0xFFFFFFFF#32) ∧
    s.reg 2#5 ≠ 0#32 ∧ ¬ (s.reg 1#5 = 0x80000000#32 ∧ s.reg 2#5 = 0xFFFFFFFF#32) := by decide +kernel

theorem witness_UnsignedQuotient :
    let s := st [(4#5, 0xFFFFFFFE#32), (5#5, 1#32), (2#5, 1#32)];
    (0xFFFF#16).setWidth 32 ≠ 0#32 ∧ s.reg 2#5 ≠ 0#32 ∧ 30#5 ≠ 31#5 ∧ 4#5 ≠ 31#5 := by decide +kernel

/-- The results 2^31 and -2^31 - 1, the first that do not fit, in both settings of `CR.EI`. -/
theorem witness_OverflowDetected :
    (let s := st [(1#5, 0x7FFFFFFF#32), (2#5, 0x80000000#32)];
      (Instr.addImm 3#5 1#5 1#16).signedResult s = some 2147483648 ∧
        (Instr.subImm 3#5 2#5 1#16).signedResult s = some (-2147483649) ∧
        (Instr.divsImm 3#5 2#5 0xFFFF#16).signedResult s = some 2147483648 ∧ s.ei = true ∧ s.cfg.mode = .serial) ∧
    (let s := stCr 0x40000000#32 [(1#5, 0x10000#32), (2#5, 0x8000#32)];
      (Instr.mulsReg 3#5 1#5 2#5).signedResult s = some 2147483648 ∧ s.ei = false) := by decide +kernel

theorem witness_DivideByZeroDetected :
    (let s := st [(1#5, 7#32)];
      (Instr.divsImm 3#5 1#5 0#16).divisor s = some 0#32 ∧ (Instr.divsImm 3#5 1#5 0#16).wellFormed = true ∧
        s.ei = true ∧ s.cfg.mode = .serial) ∧
    (let s := stCr 0x40000000#32 [(1#5, 7#32)];
      (Instr.divuReg true 30#5 1#5 0#5).divisor s = some 0#32 ∧ (Instr.divuReg true 30#5 1#5 0#5).wellFormed = true ∧
        s.ei = false) := by decide +kernel

theorem witness_SuperscalarConditions :
    let s := { st [(1#5, 0x7FFFFFFF#32)] with cfg := { Config.Emulator.default with mode := .superscalar } };
    (Instr.addImm 3#5 1#5 1#16).wellFormed = true ∧ s.ei = true ∧ s.cfg.mode = .superscalar ∧
      (∃ z, (Instr.addImm 3#5 1#5 1#16).signedResult s = some z ∧ (z < -2147483648 ∨ 2147483647 < z)) ∧
      (Instr.divuImm 3#5 1#5 0#16).divisor s = some 0#32 :=
  ⟨by decide, by decide, by decide, ⟨2147483648, by decide +kernel, by decide⟩, by decide⟩

/-- The field 8<28>, cut at bit 31: bit 28 lies in it, bit 27 does not; the register form names it with bits 9:0. -/
theorem witness_ClearAndSetField_ExtractField_MakeField :
    let s := st [(2#5, 0x11C#32)]
    8#5 = (s.reg 2#5).extractLsb' 5 5 ∧ 28#5 = (s.reg 2#5).extractLsb' 0 5 ∧ InField 8#5 28#5 28 ∧
      InField 8#5 28#5 31 ∧ ¬ InField 8#5 28#5 27 ∧
      Instr.setBit 3#5 1#5 8#5 28#5 = (if true then .setBit 3#5 1#5 8#5 28#5 else .clrBit 3#5 1#5 8#5 28#5) := by
  unfold InField; decide +kernel

theorem witness_Rotation_Shifts : 1#5 ≠ 0#5 ∧ 31#5 ≠ 0#5 := by decide

/-- The least and the greatest exponent of a normal number, a zero, and the three reserved classes. -/
theorem witness_FormatValues :
    (0 < ((0x00800000#32).extractLsb' 23 8).toNat ∧ ((0x7F7FFFFF#32).extractLsb' 23 8).toNat < 255) ∧
    (((0x80000000#32).extractLsb' 23 8).toNat = 0 ∧ ((0x80000000#32).extractLsb' 0 23).toNat = 0) ∧
    ((0x7F800000#32).extractLsb' 23 8).toNat = 255 ∧
    (((0x007FFFFF#32).extractLsb' 23 8).toNat = 0 ∧ ((0x007FFFFF#32).extractLsb' 0 23).toNat ≠ 0) ∧
    (0 < ((0x0010000000000000#64).extractLsb' 52 11).toNat ∧
      ((0x7FEFFFFFFFFFFFFF#64).extractLsb' 52 11).toNat < 2047) ∧
    ((0x7FF0000000000000#64).extractLsb' 52 11).toNat = 2047 := by decide

/-- A reset state with two operands: singles in `r6` and `r8`. -/
def fpState (cr a b : Word) : State := stCr cr [(6#5, a), (8#5, b)]

/-- 2^-126 + 0 is the smallest normal number, (2^24 - 1) * 2^104 + 0 the largest finite one; 6 / 3. -/
theorem witness_FloatArithmetic :
    (Instr.fadd .single .single .single 4#5 6#5 8#5).wellFormed = true ∧
    (let s := fpState 0x40000001#32 0x00800000#32 0#32;
      (operandBits s .single 6#5).isNumber ∧ (operandBits s .single 8#5).isNumber ∧
        minNormal .single ≤ |(operandBits s .single 6#5).value + (operandBits s .single 8#5).value| ∧
        ¬ RoundsAbove .single s.rm ((operandBits s .single 6#5).value + (operandBits s .single 8#5).value)) ∧
    (let s := fpState 0x40000001#32 0x7F7FFFFF#32 0#32;
      (operandBits s .single 6#5).isNumber ∧
        minNormal .single ≤ |(operandBits s .single 6#5).value - (operandBits s .single 8#5).value| ∧
        ¬ RoundsAbove .single s.rm ((operandBits s .single 6#5).value - (operandBits s .single 8#5).value)) ∧
    (let s := fpState 0x40000001#32 0x40C00000#32 0x40400000#32;
      (operandBits s .single 8#5).value ≠ 0 ∧ (operandBits s .single 6#5).isNumber ∧
        (operandBits s .single 8#5).isNumber ∧
        minNormal .single ≤ |(operandBits s .single 6#5).value / (operandBits s .single 8#5).value| ∧
        ¬ RoundsAbove .single s.rm ((operandBits s .single 6#5).value / (operandBits s .single 8#5).value)) := by
  unfold FpBits.isNumber RoundsAbove; decide +kernel

/-- 1 - 1, 1 + -1, 0 * -1 and 0 / 1. -/
theorem witness_FloatZeroResult :
    let s := fpState 0x40000001#32 0x3F800000#32 0x3F800000#32
    let z := fpState 0x40000001#32 0#32 0xBF800000#32;
    (operandBits s .single 6#5).value - (operandBits s .single 8#5).value = 0 ∧ (operandBits s .single 6#5).isNumber ∧
      (operandBits z .single 6#5).value * (operandBits z .single 8#5).value = 0 ∧
      (operandBits z .single 8#5).value ≠ 0 ∧ (operandBits z .single 6#5).value = 0 ∧
      (operandBits z .single 6#5).value + (operandBits z .single 0#5).value = 0 ∧
      (operandBits z .single 6#5).isNumber ∧ (operandBits z .single 8#5).isNumber := by
  unfold FpBits.isNumber; decide +kernel

theorem witness_FloatConversion :
    let s := fpState 0x40000001#32 0x7F7FFFFF#32 0x80000000#32;
    (Instr.fcvt .single .double 4#5 8#5).wellFormed = true ∧ (Instr.fcvt .single .single 4#5 6#5).wellFormed = true ∧
      (operandBits s .single 8#5).isNumber ∧ (operandBits s .single 8#5).value = 0 ∧
      (operandBits s .single 6#5).isNumber ∧ minNormal .single ≤ |(operandBits s .single 6#5).value| ∧
      ¬ RoundsAbove .single s.rm (operandBits s .single 6#5).value := by
  unfold FpBits.isNumber RoundsAbove; decide +kernel

theorem witness_FloatFromInteger :
    (Instr.flt .double 30#5 8#5).wellFormed = true ∧ (st []).reg 8#5 = 0#32 ∧
      (st [(8#5, 0x80000000#32)]).reg 8#5 ≠ 0#32 := by decide +kernel

/-- 2.5 to nearest is 2; 2^31 is one above the range, -2^31 its end. -/
theorem witness_IntegerFromFloat :
    (Instr.fint .single 4#5 8#5).wellFormed = true ∧
    (let s := fpState 0x40000001#32 0#32 0x40200000#32;
      (operandBits s .single 8#5).isNumber ∧ RoundsToInt s.rm (operandBits s .single 8#5).value 2) ∧
    (let s := fpState 0x40000001#32 0#32 0x4F000000#32;
      (operandBits s .single 8#5).isNumber ∧ RoundsToInt s.rm (operandBits s .single 8#5).value 2147483648) ∧
    (let s := fpState 0x40000001#32 0#32 0xCF000000#32;
      (operandBits s .single 8#5).isNumber ∧ -2147483648 ≤ (operandBits s .single 8#5).value ∧
        (operandBits s .single 8#5).value ≤ 2147483647) := by
  unfold FpBits.isNumber RoundsToInt; decide +kernel

/-- A NaN, and an infinity against the largest finite number. -/
theorem witness_FloatCompare :
    (Instr.fcmp .single .single 4#5 6#5 8#5).wellFormed = true ∧
    (operandBits (fpState 0x40000001#32 0x7FC00000#32 0#32) .single 6#5).isNaN ∧
    (let s := fpState 0x40000001#32 0x7F800000#32 0x7F7FFFFF#32;
      ¬ (operandBits s .single 6#5).isNaN ∧ ¬ (operandBits s .single 8#5).isNaN) := by
  unfold FpBits.isNaN; decide +kernel

/-- The greatest subnormal number; 1 / 0; half of 2^-126; and 2^127 + 2^127, with `CR.EI` 0 and 1. -/
theorem witness_FloatConditions :
    (Instr.fadd .single .single .single 4#5 6#5 8#5).wellFormed = true ∧
    ¬ (operandBits (fpState 0x40000000#32 0x007FFFFF#32 0#32) .single 6#5).isNumber ∧
    (let s := fpState 0x40000000#32 0x3F800000#32 0#32;
      (operandBits s .single 6#5).isNumber ∧ (operandBits s .single 8#5).isNumber ∧
        (operandBits s .single 8#5).value = 0 ∧ s.ei = false) ∧
    (let s := fpState 0x40000001#32 0x00800000#32 0x3F000000#32;
      (operandBits s .single 6#5).value * (operandBits s .single 8#5).value ≠ 0 ∧
        |(operandBits s .single 6#5).value * (operandBits s .single 8#5).value| < minNormal .single ∧ s.ei = true) ∧
    (let s := fpState 0x40000000#32 0x7F000000#32 0x7F000000#32;
      (operandBits s .single 6#5).isNumber ∧
        RoundsAbove .single s.rm ((operandBits s .single 6#5).value + (operandBits s .single 8#5).value)) := by
  unfold FpBits.isNumber RoundsAbove; decide +kernel

theorem witness_BranchOnBit_UnconditionalBranches :
    (st [(4#5, 0x80000000#32)]).delay = none ∧ ((st [(4#5, 0x80000000#32)]).reg 4#5).getLsbD (31#5).toNat = true ∧
      ((st [(4#5, 0x80000000#32)]).reg 4#5).getLsbD (30#5).toNat ≠ true := by decide +kernel

theorem witness_DelaySlotFault :
    (Instr.bb0 false 0#5 0#5 1#16).isControlFlow = true ∧
      ({ st [] with delay := some 40#32 } : State).delay = some 40#32 := by decide

theorem witness_DelayedBranch :
    ∃ t u, (st []).run = .running ∧ exec (.br true 2#26) (st []) = .next t ∧ t.delay = some 8#32 ∧
      exec (.ldcr 3#5) t = .next u ∧ u.run = .running := ⟨_, _, rfl, rfl, by decide +kernel, rfl, rfl⟩

/-- The effective address of `r1 + 0` in a state with `r1 = a`. -/
def ea1 (a : Word) : Word := (st [(1#5, a)]).reg 1#5 + (0#16).signExtend 32

/-- The last byte, half word, word and double word of memory; the first out of range; the misaligned ones. -/
theorem witness_LoadByte_LoadHalfAndWord_DoubleImmediate_StoreImmediate :
    InRange (ea1 0x3ffff#32) 1 ∧ ¬ InRange (ea1 0x40000#32) 1 ∧ (IsAligned (ea1 0x3fffe#32) 2 ∧
      InRange (ea1 0x3fffe#32) 2) ∧
    (IsAligned (ea1 0x3fffc#32) 4 ∧ InRange (ea1 0x3fffc#32) 4) ∧ (IsAligned (ea1 0x3fff8#32) 8 ∧
    InRange (ea1 0x3fff8#32) 8) ∧
    (IsAligned (ea1 0x40000#32) 4 ∧ ¬ InRange (ea1 0x40000#32) 4) ∧ (IsAligned (ea1 0x3fffc#32) 8 ∧
    ¬ InRange (ea1 0x3fffc#32) 8) ∧
    (¬ IsAligned (ea1 0x3fffd#32) 2 ∧ InRange (ea1 0x3fffd#32) 2) ∧ (¬ IsAligned (ea1 0x3fffa#32) 4 ∧
    InRange (ea1 0x3fffa#32) 4) ∧
    (¬ IsAligned (ea1 0x3fff6#32) 8 ∧ InRange (ea1 0x3fff6#32) 8) := by unfold InRange IsAligned; decide +kernel

/-- The effective addresses of `r1 + 0` and `r1 + r2` reach the last double word of a memory in canonical form. -/
theorem witness_LoadIndexed_DoubleImmediate_StoreImmediate_StoreIndexed_Exchange :
    let s := withMem (st [(1#5, 0x3fff8#32)]) 0x3fff8 [1#8, 2#8]
    s.mem.wf ∧ 30#5 ≠ 31#5 ∧ IsAligned (s.reg 1#5 + (0#16).signExtend 32) 8 ∧
      InRange (s.reg 1#5 + (0#16).signExtend 32) 8 ∧ IsAligned (s.reg 1#5 + s.reg 2#5) 8 ∧
      InRange (s.reg 1#5 + s.reg 2#5) 8 ∧ IsAligned (s.reg 1#5 + s.reg 2#5) 4 ∧ InRange (s.reg 1#5 + s.reg 2#5) 4 := by
  unfold InRange IsAligned; decide +kernel

theorem witness_AccessFaults :
    let s := st [(1#5, 0x40000#32), (2#5, 1#32)];
    (Instr.xmem 3#5 1#5 0#5).wellFormed = true ∧ (Instr.xmem 3#5 1#5 0#5).access s = some (0x40000#32, 4) ∧
      ¬ InRange 0x40000#32 4 ∧ (Instr.xmem 3#5 2#5 0#5).access s = some (1#32, 4) ∧ InRange 1#32 4 ∧
      ¬ IsAligned 1#32 4 := by unfold InRange IsAligned; decide +kernel

theorem witness_MemoryFrame :
    (∃ t, exec (.ldcr 3#5) (st []) = .next t ∧ (Instr.ldcr 3#5).isStore = false) ∧
    ∃ t, exec (.stImm 3#5 0#5 8#16) (st []) = .next t ∧ (Instr.stImm 3#5 0#5 8#16).isStore = true ∧
      (Instr.stImm 3#5 0#5 8#16).access (st []) = some (8#32, 4) :=
  ⟨⟨_, rfl, rfl⟩, _, rfl, rfl, by decide⟩

theorem witness_WriteThenRead :
    8 ∈ [1, 2, 4, 8] ∧ (st []).mem.wf ∧ (IsAligned 0x3fff8#32 8 ∧ InRange 0x3fff8#32 8) ∧
      (IsAligned 0x3fffc#32 8 ∧ ¬ InRange 0x3fffc#32 8) ∧ ¬ IsAligned 0x3fff6#32 8 ∧ InRange 0x3fff6#32 8 := by
  unfold InRange IsAligned; decide

theorem witness_PairAtLastRegister : (Instr.lddImm 31#5 1#5 0#16).wellFormed = false := by decide

theorem witness_StoreControl :
    ((st [(1#5, 0x50000401#32)]).reg 1#5).getLsbD 30 = (st [(1#5, 0x50000401#32)]).cfg.littleEndian ∧
      ((st []).reg 0#5).getLsbD 30 ≠ (st []).cfg.littleEndian := by decide +kernel

theorem witness_ControlRegisterWriters :
    ∃ t, exec (.addReg false true 3#5 1#5 2#5) (st [(1#5, 1#32)]) = .next t ∧
      (Instr.addReg false true 3#5 1#5 2#5).isStcr = false ∧ (st [(1#5, 1#32)]).cfg.mode = .serial :=
  ⟨_, rfl, rfl, by decide⟩

theorem witness_StopEndsTheRun :
    ∃ t, (st []).run = .running ∧ exec .stop (st []) = .next t ∧ t.run = .stopped := ⟨_, rfl, rfl, rfl⟩

theorem witness_PreciseExceptions :
    let s := stCr 0x40000000#32 [(1#5, 0x7FFFFFFF#32)]
    s.run = .running ∧ shows (exec (.addImm 3#5 1#5 1#16) s) id
      = some { s with run := .exception .integerOverflow 0#32 } := by decide +kernel

theorem witness_InvariantKept :
    shows (step (atWord 8#32 0x80600000#32 [])) id
      = some ((atWord 8#32 0x80600000#32 []).setReg 3#5 0x40000001#32).retire := by decide +kernel

/-- The state of `witness_InvariantKept` has the invariant. -/
theorem witness_Inv : Inv (atWord 8#32 0x80600000#32 []) :=
  ⟨by decide +kernel, by decide, (fun _ h => nomatch h), by decide +kernel, by decide +kernel,
    by decide, by decide, by decide⟩

/-- A block at the end of memory beside a reserved word. -/
theorem witness_Loading :
    let m : Image := ⟨[(0x3fffc, [1#8, 2#8, 3#8, 4#8])], [(0x3fff8, 4)], 0x3fffc, []⟩
    m.wellFormed = true ∧ Config.Emulator.default.wellFormed = true ∧
      (⟨[], [], 0x3fffd, []⟩ : Image).wellFormed = false := by decide

/-- The last register, the greatest word, the last word of memory; `witness_Inv` gives the state. -/
theorem witness_HostSetters :
    31 < 32 ∧ 4294967295 < 2 ^ 32 ∧ 262140 % 4 = 0 ∧ 262140 + 4 ≤ 262144 := by decide

/-- From `pc` 0 with a breakpoint at 4. -/
theorem witness_RunToBreakpoint :
    let s := { atWord 0#32 0x80600000#32 [] with breakpoints := [4] }
    runSteps true 1 s = .breakpoint (s.setReg 3#5 0x40000001#32).retire := by decide +kernel

end Sys2Proof.Tests
end

/-! # The state (spec 10): what every step keeps, who writes `CR`, pairs at `r31`, the values at reset -/

namespace Sys2Proof.Machine

/-! ## What a change of the general registers leaves -/

theorem OnlyRegs.pc_eq {s u : State} (h : OnlyRegs s u) : u.pc = s.pc := by rw [h.1]
theorem OnlyRegs.cr_eq {s u : State} (h : OnlyRegs s u) : u.cr = s.cr := by rw [h.1]
theorem OnlyRegs.mem_eq {s u : State} (h : OnlyRegs s u) : u.mem = s.mem := by rw [h.1]
theorem OnlyRegs.stored_eq {s u : State} (h : OnlyRegs s u) : u.stored = s.stored := by rw [h.1]
theorem OnlyRegs.delay_eq {s u : State} (h : OnlyRegs s u) : u.delay = s.delay := by rw [h.1]
theorem OnlyRegs.cfg_eq {s u : State} (h : OnlyRegs s u) : u.cfg = s.cfg := by rw [h.1]

/-! ## The invariant under each operation -/

/-- The address after a multiple of 4 is one again (10 R25), also where it wraps at 2^32. -/
theorem next_aligned (pc : Word) (h : pc.toNat % 4 = 0) : (pc + 4#32).toNat % 4 = 0 := by
  simp only [BitVec.toNat_add, BitVec.toNat_ofNat]
  omega

/-- The invariant asks of `CR` only its bit 30 (20 R57). -/
theorem Inv.withCr {s : State} (h : Inv s) (v : Word) (hv : v.getLsbD 30 = s.cfg.littleEndian) :
    Inv { s with cr := v } :=
  { h with order := hv }

theorem Inv.onlyRegs {s u : State} (h : Inv s) (hu : OnlyRegs s u) : Inv u where
  zero := hu.2.trans h.zero
  pc := by rw [hu.pc_eq]; exact h.pc
  delay := by rw [hu.delay_eq]; exact h.delay
  mem := by rw [hu.mem_eq]; exact h.mem
  memRange := by rw [hu.mem_eq]; exact h.memRange
  stored := by rw [hu.stored_eq]; exact h.stored
  storedRange := by rw [hu.stored_eq]; exact h.storedRange
  order := by rw [State.le, hu.cr_eq, hu.cfg_eq]; exact h.order

/-- Any bit of `CR` but that of the byte order may change. -/
theorem Inv.setCrBit {s : State} (h : Inv s) (k : Nat) (b : Bool) (hk : k < 32) (h30 : k ≠ 30) :
    Inv (s.setCrBit k b) := by
  refine h.withCr _ ?_
  rw [withBit_getLsbD _ _ _ _ hk, if_neg h30.symm]
  exact h.order

theorem Inv.recordFlag {s : State} (h : Inv s) (k : Nat) (hk : k = 12 ∨ k = 13) : Inv (s.recordFlag k) where
  zero := by simpa using h.zero
  pc := by simpa using h.pc
  delay := by simpa using h.delay
  mem := by simpa using h.mem
  memRange := by simpa using h.memRange
  stored := by simpa using h.stored
  storedRange := by simpa using h.storedRange
  order := by
    rw [State.le, State.recordFlag_other s k 30 hk (by decide) (by decide), State.recordFlag_cfg]
    exact h.order

/-- The next instruction's address is a multiple of 4, whether it follows or is a pending target. -/
theorem Inv.nextPc_aligned {s : State} (h : Inv s) : s.nextPc.toNat % 4 = 0 := by
  rw [State.nextPc_eq]
  cases hd : s.delay with
  | none => exact next_aligned _ h.pc
  | some t => exact h.delay t hd

theorem Inv.retire {s : State} (h : Inv s) : Inv s.retire :=
  { h with
    pc := h.nextPc_aligned
    delay := by simp }

theorem Inv.halt {s : State} (h : Inv s) : Inv s.halt :=
  { h with
    pc := next_aligned _ h.pc
    delay := by simp }

theorem Inv.withRun {s : State} (h : Inv s) (r : RunState) : Inv { s with run := r } := { h with }

theorem Inv.branch {s : State} (h : Inv s) (n : Bool) (a : Word) (ha : a.toNat % 4 = 0) : Inv (s.branch n a) := by
  cases n
  · exact { h with pc := ha }
  · refine { h with pc := next_aligned _ h.pc, delay := fun t ht => ?_ }
    obtain rfl : a = t := by simpa using ht
    exact ha

/-- A store whose bytes all exist keeps memory and the record of stored bytes canonical and in range (20 R50, R58). -/
theorem Inv.store {s : State} (h : Inv s) (a : Word) (n : Nat) (v : DWord) (hr : InRange a n) :
    Inv (s.store a n v) :=
  { h with
    mem := Memory.writeBytes_wf _ _ _ h.mem
    memRange := Memory.writeBytes_range _ _ _ _ h.memRange (by rw [bytesOf_length]; exact hr)
    stored := insertAddrs_sorted _ _ _ h.stored
    storedRange := fun x hx => by
      rcases (mem_insertAddrs _ _ _ _).1 hx with hx | ⟨-, hx⟩
      · exact h.storedRange x hx
      · exact lt_of_lt_of_le hx hr }

/-! ## The invariant under a step -/

/-- Whatever an instruction can do keeps the invariant. -/
theorem Effect.inv {i : Instr} {s t : State} (e : Effect i s t) (h : Inv s) : Inv t := by
  cases e with
  | registers u hu => exact (h.onlyRegs hu).retire
  | carry u c hu => exact ((h.onlyRegs hu).setCrBit 28 c (by decide) (by decide)).retire
  | records k c hk => exact (h.recordFlag k (hk.imp And.left And.left)).retire
  | raises c => exact h.withRun _
  | branches u n a hu _ ha => exact (h.onlyRegs hu).branch n a (ha h.pc)
  | stores a n v u _ hr hu => exact ((h.store a n v hr).onlyRegs hu).retire
  | control v hv => exact (h.withCr v hv).retire
  | stops => exact h.halt

/-- A step that answers a next state executes the instruction it has fetched, of a running machine. -/
theorem step_next {s t : State} (h : step s = .next t) :
    s.run = .running ∧ ∃ i, fetchInstr s = .ok i ∧ exec i s = .next t := by
  unfold step at h
  split at h
  · cases h
  · cases h
  · rename_i hrun
    split at h
    · cases h
    · rename_i i hi
      exact ⟨hrun, i, hi, h⟩

/-- Settles O55: the fetched instruction has one of the effects of `Effect`, and each of them keeps the invariant. -/
theorem invariantKept : Obligations.InvariantKept := by
  intro s t hs h
  obtain ⟨-, i, -, hi⟩ := step_next h
  exact (exec_effect i s t hi).inv hs

/-! ## Integer conditions -/

/-- A bit added as a number. -/
theorem bitNat_cast (b : Bool) : ((bitNat b : Nat) : Int) = if b then 1 else 0 := by cases b <;> rfl

theorem signedFits_eq_false {z : Int} (h : z < -2147483648 ∨ 2147483647 < z) : signedFits z = false := by
  simp only [signedFits, Bool.and_eq_false_iff, decide_eq_false_iff_not]
  omega

/-- The sign-extended immediate has the value of the immediate (30 R83). -/
theorem sext16_toInt (x : Half) : (sext16 x).toInt = x.toInt := BitVec.toInt_signExtend_of_le (by decide)

/-- Only 0 is sign extended to 0. -/
theorem sext16_ne_zero {x : Half} (h : x ≠ 0#16) : sext16 x ≠ 0#32 := by
  intro e
  have hx := sext16_toInt x
  rw [e] at hx
  exact h (BitVec.eq_of_toInt_eq hx.symm)

/-- A signed instruction whose result does not fit is an overflow. -/
theorem finishSigned_overflow (s : State) (o : Bool) (d : Reg) {r : IntResult} (h : r.fits = false) :
    ∃ w, finishSigned s o d r = overflow s w :=
  ⟨(s.setReg d r.word).setCarryIf o r.carryOut, by simp [finishSigned, h]⟩

/-- An instruction whose exact signed result is outside 32 bits is an overflow (41 R143). -/
theorem exec_overflow {i : Instr} {s : State} {z : Int} (hz : i.signedResult s = some z)
    (h : z < -2147483648 ∨ 2147483647 < z) : ∃ w, exec i s = overflow s w := by
  have hfit := signedFits_eq_false h
  cases i with
  | addImm d s1 x =>
    obtain rfl := Option.some.inj hz
    exact finishSigned_overflow s _ d (by simpa [addExact, sext16_toInt, bitNat] using hfit)
  | addReg c o d s1 s2 =>
    obtain rfl := Option.some.inj hz
    exact finishSigned_overflow s _ d (by simpa only [addExact, addCarryIn, bitNat_cast] using hfit)
  | subImm d s1 x =>
    obtain rfl := Option.some.inj hz
    exact finishSigned_overflow s _ d (by simpa [subExact, subCarry, subCarryIn, sext16_toInt, bitNat] using hfit)
  | subReg c o d s1 s2 =>
    obtain rfl := Option.some.inj hz
    refine finishSigned_overflow s _ d ?_
    cases c <;> simpa [subExact, subCarry, subCarryIn, bitNat_cast] using hfit
  | mulsReg d s1 s2 =>
    obtain rfl := Option.some.inj hz
    exact finishSigned_overflow s _ d hfit
  | divsImm d s1 x =>
    obtain ⟨hx, rfl⟩ : x ≠ 0#16 ∧ (s.reg s1).toInt.tdiv x.toInt = z := by
      simpa [Instr.signedResult] using hz
    simp only [exec, execDivsImm, if_neg (sext16_ne_zero hx)]
    exact finishSigned_overflow s _ d (by simpa only [divSigned, divsRounding, quotient, sext16_toInt] using hfit)
  | divsReg d s1 s2 =>
    obtain ⟨hx, rfl⟩ : s.reg s2 ≠ 0#32 ∧ (s.reg s1).toInt.tdiv (s.reg s2).toInt = z := by
      simpa [Instr.signedResult] using hz
    simp only [exec, execDivsReg, if_neg hx]
    exact finishSigned_overflow s _ d hfit
  | _ => cases hz

/-- An integer division by 0 that names no pair at `r31` is that condition (41 R144). -/
theorem exec_divideByZero {i : Instr} {s : State} (hd : i.divisor s = some 0#32) (hw : i.wellFormed = true) :
    exec i s = divideByZero s := by
  cases i with
  | divsImm d s1 x => exact if_pos (Option.some.inj hd)
  | divuImm d s1 x => exact if_pos (Option.some.inj hd)
  | divsReg d s1 s2 => exact if_pos (Option.some.inj hd)
  | divuReg dbl d s1 s2 => exact (guardPairs_ok _ s _ hw).trans (if_pos (Option.some.inj hd))
  | _ => cases hd

/-- With exceptions inhibited an overflow only records itself (D8). -/
theorem overflow_inhibited (s w : State) (h : s.ei = true) : overflow s w = .next (s.recordFlag 12).retire := by
  unfold overflow
  rw [if_pos h]
  rfl

/-- With exceptions inhibited a division by zero only records itself. -/
theorem divideByZero_inhibited (s : State) (h : s.ei = true) : divideByZero s = .next (s.recordFlag 13).retire :=
  if_pos h

/-- In both modes a recorded condition changes no more than `CR.OV`, `CR.DZ` and the count of free values. -/
theorem recordFlag_retire_allBut (s : State) (k : Nat) (hk : k = 12 ∨ k = 13) :
    AllButConditionFlags s (s.recordFlag k).retire := by
  refine ⟨fun r _ => by simp, fun j h12 h13 => State.recordFlag_other s k j hk h12 h13, ⟨fun a => ?_, by simp⟩, ?_⟩
  · simp [State.byteAt]
  · exact ⟨by simp [State.nextPc_eq], rfl, by simp, by simp, by simp, by simp⟩

/-- Settles O21: both conditions end in `recordFlag`, whose free values go to bits 12 and 13 alone. -/
theorem superscalarConditions : Obligations.SuperscalarConditions := by
  intro i s hw he _ hcond
  rcases hcond with ⟨z, hz, hout⟩ | hd
  · obtain ⟨w, hi⟩ := exec_overflow hz hout
    exact ⟨_, hi.trans (overflow_inhibited s w he), recordFlag_retire_allBut s 12 (.inl rfl)⟩
  · have hi := exec_divideByZero hd hw
    exact ⟨_, hi.trans (divideByZero_inhibited s he), recordFlag_retire_allBut s 13 (.inr rfl)⟩

/-! ## Pairs at `r31` -/

/-- The check for `r31` made twice is the check made once. -/
theorem guardPairs_idem (ps : List Reg) (s : State) (k : Result) :
    guardPairs ps s (guardPairs ps s k) = guardPairs ps s k := by
  unfold guardPairs
  split <;> rfl

/-- Every meaning begins with the check of exactly the pairs its instruction names (10 R23, 60 R293). -/
theorem exec_guarded (i : Instr) (s : State) : exec i s = guardPairs i.pairs s (exec i s) := by
  cases i with
  | fadd | fsub | fmul | fdiv | fcmp | fcvt | flt | fint => exact (guardPairs_idem _ s _).symm
  | lddImm | lddReg | stdImm | stdReg => exact (guardPairs_idem _ s _).symm
  | divuReg => exact (guardPairs_idem _ s _).symm
  | muluReg dbl =>
    cases dbl with
    | false => rfl
    | true => exact (guardPairs_idem _ s _).symm
  | _ => rfl

/-- Settles O49: an ill-formed instruction fails the check of pairs, which every meaning begins with. -/
theorem pairAtLastRegister : Obligations.PairAtLastRegister := by
  intro i s h
  rw [exec_guarded]
  exact guardPairs_fault _ s _ h

/-! ## Who writes `CR` -/

/-- What an instruction other than `stcr` can make of `CR`: nothing, the carry written by a `.co` form, or an integer
condition it can cause recorded with exceptions inhibited. -/
theorem Effect.cr_cases {i : Instr} {s t : State} (e : Effect i s t) (h : i.isStcr = false) :
    t.cr = s.cr ∨ (i.writesCarry = true ∧ ∃ c, t.cr = (s.setCrBit 28 c).cr) ∨
      ∃ k, (k = 12 ∧ Cause.integerOverflow ∈ i.causes ∨ k = 13 ∧ Cause.integerDivideByZero ∈ i.causes) ∧
        s.ei = true ∧ t.cr = (s.recordFlag k).cr := by
  cases e with
  | registers u hu => exact .inl hu.cr_eq
  | carry u c hu hc => exact .inr (.inl ⟨hc, c, congrArg (withBit · 28 c) hu.cr_eq⟩)
  | records k c hk he hc =>
    rcases hk with ⟨rfl, rfl⟩ | ⟨rfl, rfl⟩
    · exact .inr (.inr ⟨12, .inl ⟨rfl, hc⟩, he, rfl⟩)
    · exact .inr (.inr ⟨13, .inr ⟨rfl, hc⟩, he, rfl⟩)
  | raises => exact .inl rfl
  | branches u n a hu => exact .inl (by rw [State.branch_cr, hu.cr_eq])
  | stores a n v u _ _ hu => exact .inl hu.cr_eq
  | control v _ hi => rw [h] at hi; cases hi
  | stops => exact .inl rfl

/-- In serial mode a recorded condition makes its own bit 1 and keeps the others (10 R31, R32). -/
theorem State.recordFlag_serial_getLsbD (s : State) (k j : Nat) (hm : s.cfg.mode = .serial) (hk : k < 32) :
    (s.recordFlag k).cr.getLsbD j = if j = k then true else s.cr.getLsbD j := by
  rw [State.recordFlag_serial s k hm, State.setCrBit_getLsbD _ _ _ _ hk]

/-- Settles O52, by what an instruction can make of `CR` (`Effect.cr_cases`). -/
theorem controlRegisterWriters : Obligations.ControlRegisterWriters := by
  intro i s t hi hstcr
  unfold State.carry State.ov State.dz
  rcases (exec_effect i s t hi).cr_cases hstcr with hcr | ⟨hw, c, hcr⟩ | ⟨k, hk, he, hcr⟩ <;> rw [hcr]
  · simp
  · have hbit := fun j => State.setCrBit_getLsbD s 28 c j (by decide)
    refine ⟨fun j _ _ h28 => by rw [hbit, if_neg h28], fun h => ?_, fun _ => ?_⟩
    · rw [hw] at h; cases h
    · rw [hbit 12, hbit 13]; simp
  · have hk' : k = 12 ∨ k = 13 := hk.imp And.left And.left
    have hother := fun j => State.recordFlag_other s k j hk'
    refine ⟨fun j h12 h13 _ => hother j h12 h13, fun _ => hother 28 (by decide) (by decide), fun hm => ?_⟩
    have hbit := fun j => State.recordFlag_serial_getLsbD s k j hm (by omega)
    rw [hbit 12, hbit 13]
    rcases hk with ⟨rfl, hc⟩ | ⟨rfl, hc⟩ <;> simp [he, hc]

/-! ## Reset -/

/-- Every register reads 0 at reset (10 R44). -/
@[simp] theorem State.reset_reg (r : Reg) : State.reset.reg r = 0#32 := by
  simp [State.reg, State.reset, State.start]

/-- Settles O56: nothing is in memory, stored or pending at reset, and `CR` is the configuration's. -/
theorem invariantAtReset : Obligations.InvariantAtReset where
  zero := rfl
  pc := rfl
  delay := by simp
  mem := by simp [Memory.wf]
  memRange := by simp
  stored := by simp
  storedRange := by simp
  order := rfl

/-- Settles O57. -/
theorem resetValues : Obligations.ResetValues :=
  ⟨State.reset_reg, State.reset_pc, State.reset_cr, fun _ => rfl, State.reset_delay, State.reset_run,
    State.reset_breakpoints, State.reset_totInst, State.reset_stored, rfl⟩

end Sys2Proof.Machine

/-! # Memory (spec 20): writing and reading, accesses and their faults, what a store leaves, the fetch -/

namespace Sys2Proof.Machine

/-! ## Writing and then reading -/

/-- Reading where bytes were written gives those bytes, in a memory in canonical form. -/
theorem Memory.readBytes_writeBytes (m : Memory) (a : Nat) (bs : List Byte) (h : m.wf) :
    Memory.readBytes (Memory.writeBytes m a bs) a bs.length = bs := by
  apply List.ext_getElem?
  intro k
  by_cases hk : k < bs.length
  · rw [Memory.readBytes_getElem? _ _ _ _ hk, List.getElem?_eq_getElem hk,
      Memory.read_writeBytes_same m a bs k bs[k] h (List.getElem?_eq_getElem hk)]
  · rw [List.getElem?_eq_none (by simpa using hk), List.getElem?_eq_none (by simpa using hk)]

/-- A store leaves every byte outside its access (20 R53). -/
theorem State.byteAt_store_other (s : State) (ea : Word) (n : Nat) (v : DWord) (a : Nat)
    (h : a < ea.toNat ∨ ea.toNat + n ≤ a) : (s.store ea n v).byteAt a = s.byteAt a :=
  Memory.read_writeBytes_other _ _ _ _ (by rwa [bytesOf_length])

/-- A store records exactly the bytes of its access (20 R67). -/
theorem State.mem_stored_store (s : State) (ea : Word) (n : Nat) (v : DWord) (a : Nat) :
    a ∈ (s.store ea n v).stored ↔ a ∈ s.stored ∨ (ea.toNat ≤ a ∧ a < ea.toNat + n) :=
  mem_insertAddrs _ _ _ _

/-- Byte `k` of a stored value, in the byte order of `CR.LE` (20 R53). -/
theorem State.byteAt_store_same (s : State) (ea : Word) (n : Nat) (v : DWord) (k : Nat) (h : s.mem.wf) (hk : k < n) :
    (s.store ea n v).byteAt (ea.toNat + k) = v.extractLsb' (8 * (if s.le then k else n - 1 - k)) 8 :=
  Memory.read_writeBytes_same _ _ _ _ _ h (bytesOf_getElem? _ _ _ _ hk)

/-- `MemRead` of an access that passes its check, right after a store there (20 R52, R53). -/
theorem memRead_store (s : State) (ea : Word) (n : Nat) (v : DWord) (h : s.mem.wf)
    (hc : checkAccess s ea n = .ok ()) :
    memRead (s.store ea n v) ea n = .ok ((v.setWidth (8 * n)).setWidth 64) := by
  have hread : (s.store ea n v).mem.readBytes ea.toNat n = bytesOf s.le n v := by
    have hw := Memory.readBytes_writeBytes s.mem ea.toNat (bytesOf s.le n v) h
    rw [bytesOf_length] at hw
    exact hw
  have hle : (s.store ea n v).le = s.le := rfl
  rw [memRead_ok (show checkAccess (s.store ea n v) ea n = .ok () from hc), hread, hle, assemble_bytesOf]

/-- Settles O48: the check decides between the fault and the store, and a store is read back byte by byte. -/
theorem writeThenRead : Obligations.WriteThenRead := by
  intro n ea v s hn hm
  refine ⟨fun ha hr => ?_, fun _ hr => ?_, fun ha hr => ?_⟩
  · have hc := checkAccess_ok s ea n hn hr ha
    exact ⟨s.store ea n v, memWrite_ok v hc, memRead_store s ea n v hm hc,
      fun k hk => s.byteAt_store_same ea n v k hm hk, fun a h => s.byteAt_store_other ea n v a h⟩
  · exact memWrite_error v (checkAccess_range s ea n hr)
  · exact memWrite_error v (checkAccess_misaligned s ea n hn hr ha)

/-! ## The faults of an access -/

/-- Every access is of a byte, a half word, a word or a double word (20 R51). -/
theorem access_width {i : Instr} {s : State} {ea : Word} {n : Nat} (h : i.access s = some (ea, n)) :
    n ∈ [1, 2, 4, 8] := by
  unfold Instr.access at h
  split at h <;> cases h <;> decide

/-- A load of a pair not at `r31` whose check fails is that fault. -/
theorem loadDouble_fault {s : State} {d : Reg} {ea : Word} {f : Fault} (hd : [d].all (· != 31#5) = true)
    (h : checkAccess s ea 8 = .error f) : loadDouble s d ea = .fault f := by
  rw [loadDouble, guardPairs_ok _ _ _ hd, memRead_error h]

/-- A store of a pair not at `r31` whose check fails is that fault. -/
theorem storeDouble_fault {s : State} {d : Reg} {ea : Word} {f : Fault} (hd : [d].all (· != 31#5) = true)
    (h : checkAccess s ea 8 = .error f) : storeDouble s d ea = .fault f := by
  rw [storeDouble, guardPairs_ok _ _ _ hd, storeBytes_fault _ h]

/-- An exchange whose check fails is that fault. -/
theorem execXmem_fault {s : State} {d s1 s2 : Reg} {f : Fault} (h : checkAccess s (eaReg s s1 s2) 4 = .error f) :
    execXmem d s1 s2 s = .fault f := by
  rw [execXmem, memRead_error h]

/-- An instruction that names no pair at `r31` and whose access fails its check is that fault (45 R241). -/
theorem exec_access_fault {i : Instr} {s : State} {ea : Word} {n : Nat} {f : Fault} (hw : i.wellFormed = true)
    (ha : i.access s = some (ea, n)) (hc : checkAccess s ea n = .error f) : exec i s = .fault f := by
  cases i with
  | ldImm | ldhImm | ldbImm | ldhuImm | ldbuImm => cases ha; exact load_fault _ _ hc
  | ldReg | ldhReg | ldbReg | ldhuReg | ldbuReg => cases ha; exact load_fault _ _ hc
  | lddImm | lddReg => cases ha; exact loadDouble_fault hw hc
  | stImm | sthImm | stbImm | stReg | sthReg | stbReg => cases ha; exact storeBytes_fault _ hc
  | stdImm | stdReg => cases ha; exact storeDouble_fault hw hc
  | xmem => cases ha; exact execXmem_fault hc
  | _ => cases ha

/-- Settles O46: the check of an access names its fault, and every access passes it on (`exec_access_fault`). -/
theorem accessFaults : Obligations.AccessFaults := by
  intro i s ea n hw ha
  refine ⟨fun hr => ?_, fun hr hal => ?_⟩
  · exact exec_access_fault hw ha (checkAccess_range s ea n hr)
  · exact exec_access_fault hw ha (checkAccess_misaligned s ea n (access_width ha) hr hal)

/-! ## What an instruction leaves of memory -/

/-- Same memory and same record of stored bytes: nothing was stored. -/
theorem KeepsMemory.of_eq {s t : State} (hm : t.mem = s.mem) (hs : t.stored = s.stored) : KeepsMemory s t :=
  ⟨fun a => congrArg (Memory.read · a) hm, hs⟩

/-- An effect of an instruction that is no store leaves memory (20 R51). -/
theorem Effect.keepsMemory {i : Instr} {s t : State} (e : Effect i s t) (h : i.isStore = false) : KeepsMemory s t := by
  cases e with
  | registers u hu => exact .of_eq hu.mem_eq hu.stored_eq
  | carry u c hu => exact .of_eq hu.mem_eq hu.stored_eq
  | records k => exact .of_eq (s.recordFlag_mem k) (s.recordFlag_stored k)
  | raises | control | stops => exact .of_eq rfl rfl
  | branches u n a hu => exact .of_eq ((u.branch_mem n a).trans hu.mem_eq) ((u.branch_stored n a).trans hu.stored_eq)
  | stores a n v u _ _ _ hs => rw [hs] at h; cases h

/-- An effect of a store is one store at its access; memory and the record of stored bytes are as after it. -/
theorem Effect.store_of_isStore {i : Instr} {s t : State} (e : Effect i s t) (h : i.isStore = true) :
    ∃ ea n v, i.access s = some (ea, n) ∧ t.mem = (s.store ea n v).mem ∧ t.stored = (s.store ea n v).stored := by
  cases e with
  | stores ea n v u ha _ hu => exact ⟨ea, n, v, ha, hu.mem_eq, hu.stored_eq⟩
  | stops h1 => subst h1; cases h
  | registers | carry | records | raises | branches | control =>
    exact absurd (‹i.isStore = false›.symm.trans h) Bool.false_ne_true

/-- Settles O47, by what an instruction can do (`exec_effect`). -/
theorem memoryFrame : Obligations.MemoryFrame := by
  intro i s t hi
  have he := exec_effect i s t hi
  refine ⟨he.keepsMemory, fun hs ea n ha => ?_⟩
  obtain ⟨ea', n', v, ha', hmem, hstored⟩ := he.store_of_isStore hs
  obtain ⟨rfl, rfl⟩ : ea' = ea ∧ n' = n := by simpa [ha] using ha'.symm
  refine ⟨fun a h => ?_, fun a => ?_⟩
  · rw [State.byteAt, hmem]
    exact s.byteAt_store_other ea' n' v a h
  · rw [hstored]
    exact s.mem_stored_store ea' n' v a

/-! ## The fetch (20 R56, R57, R67) -/

/-- The bytes of a word that is an instruction decode to it, with no byte left. -/
theorem decodeBytes_some {s : State} {a : Nat} {i : Instr} (h : decode (wordAt s a) = some i) :
    decodeBytes s.le (s.mem.readBytes a 4) = .ok (i, []) := by
  rw [← assemble_four] at h
  simp only [Memory.readBytes] at h ⊢
  simp only [decodeBytes, h]

/-- The bytes of a word that is no instruction are refused with that word (30 R100). -/
theorem decodeBytes_none {s : State} {a : Nat} (h : decode (wordAt s a) = none) :
    decodeBytes s.le (s.mem.readBytes a 4) = .error (.notAnInstruction (wordAt s a)) := by
  rw [← assemble_four] at h ⊢
  simp only [Memory.readBytes] at h ⊢
  simp only [decodeBytes, h]

/-- Whether a fetch meets a byte the program has stored to (20 R67). -/
theorem fetchesStoredByte_iff (s : State) :
    fetchesStoredByte s = true ↔ ∃ a ∈ s.stored, s.pc.toNat ≤ a ∧ a < s.pc.toNat + 4 := by
  simp [fetchesStoredByte]

/-- No stored byte among the four at `pc`. -/
theorem fetchesStoredByte_eq_false {s : State} (h : ∀ a ∈ s.stored, a < s.pc.toNat ∨ s.pc.toNat + 4 ≤ a) :
    fetchesStoredByte s = false := by
  rw [Bool.eq_false_iff, Ne, fetchesStoredByte_iff]
  rintro ⟨a, ha, hlo, hhi⟩
  rcases h a ha with hlt | hge <;> omega

/-- A fetch whose access fails its check is that fault (20 R55, R58). -/
theorem fetchInstr_of_check_error {s : State} {f : Fault} (h : checkAccess s s.pc 4 = .error f) :
    fetchInstr s = .error f := by
  simp only [fetchInstr, fetchBytes, h]

/-- A fetch of a byte the program has stored to is the fault of SMC = fault (20 R67). -/
theorem fetchInstr_of_stored {s : State} (hc : checkAccess s s.pc 4 = .ok ()) (h : fetchesStoredByte s = true) :
    fetchInstr s = .error (.fetchAfterStore s.pc) := by
  simp [fetchInstr, fetchBytes, hc, smc, h]

/-- A fetch that passes its checks has the four bytes at `pc`. -/
theorem fetchBytes_ok {s : State} (hc : checkAccess s s.pc 4 = .ok ()) (h : fetchesStoredByte s = false) :
    fetchBytes s = .ok (s.mem.readBytes s.pc.toNat 4) := by
  simp [fetchBytes, hc, h]

/-- The byte order of a fetch is that of `CR.LE` (20 R57, D18). -/
theorem fetchLittleEndian_eq (s : State) : fetchLittleEndian s = s.le := rfl

/-- A fetch that passes its checks, of a word that is an instruction (30 R99). -/
theorem fetchInstr_of_decode {s : State} {i : Instr} (hc : checkAccess s s.pc 4 = .ok ())
    (h : fetchesStoredByte s = false) (hi : decode (wordAt s s.pc.toNat) = some i) : fetchInstr s = .ok i := by
  simp only [fetchInstr, fetchBytes_ok hc h, fetchLittleEndian_eq, decodeBytes_some hi]

/-- A fetch that passes its checks, of a word that is no instruction (30 R100). -/
theorem fetchInstr_of_decode_none {s : State} (hc : checkAccess s s.pc 4 = .ok ())
    (h : fetchesStoredByte s = false) (hi : decode (wordAt s s.pc.toNat) = none) :
    fetchInstr s = .error (.illegalInstruction s.pc (wordAt s s.pc.toNat)) := by
  simp only [fetchInstr, fetchBytes_ok hc h, fetchLittleEndian_eq, decodeBytes_none hi]

/-! ## One step (44 R221) -/

/-- A running machine executes the instruction it fetches. -/
theorem step_of_fetch {s : State} {i : Instr} (hr : s.run = .running) (h : fetchInstr s = .ok i) :
    step s = exec i s := by
  simp only [step, hr, h]

/-- A running machine whose fetch faults stops with that fault. -/
theorem step_of_fetch_error {s : State} {f : Fault} (hr : s.run = .running) (h : fetchInstr s = .error f) :
    step s = .fault f := by
  simp only [step, hr, h]

/-- The check of a fetch in range at a multiple of 4 passes. -/
theorem checkAccess_fetch_ok {s : State} (hr : InRange s.pc 4) (ha : IsAligned s.pc 4) :
    checkAccess s s.pc 4 = .ok () :=
  checkAccess_ok s s.pc 4 (by decide) hr ha

/-- Settles O6. -/
theorem stepRunsDecoded : Obligations.StepRunsDecoded := by
  intro s i hrun hr ha hst hi
  exact step_of_fetch hrun
    (fetchInstr_of_decode (checkAccess_fetch_ok hr ha) (fetchesStoredByte_eq_false hst) hi)

/-- Settles O7: the terminal states answer at once, and each fault of the fetch is the step's. -/
theorem stepStops : Obligations.StepStops := by
  intro s
  refine ⟨fun h => ?_, fun c p h => ?_, fun hrun hr => ?_, fun hrun hr ha => ?_, fun hrun hr ha hst => ?_,
    fun hrun hr ha hst hi => ?_⟩
  · simp only [step, h]
  · simp only [step, h]
  · exact step_of_fetch_error hrun (fetchInstr_of_check_error (checkAccess_range s s.pc 4 hr))
  · exact step_of_fetch_error hrun
      (fetchInstr_of_check_error (checkAccess_misaligned s s.pc 4 (by decide) hr ha))
  · exact step_of_fetch_error hrun
      (fetchInstr_of_stored (checkAccess_fetch_ok hr ha) ((fetchesStoredByte_iff s).2 hst))
  · exact step_of_fetch_error hrun
      (fetchInstr_of_decode_none (checkAccess_fetch_ok hr ha) (fetchesStoredByte_eq_false hst) hi)

end Sys2Proof.Machine

/-! # Encoding (spec 30): one row at most for a word, decoding and encoding undo each other, words of no row -/

namespace Sys2Proof

/-! ## Rows that no word can match both -/

/-- A word does not hit two rows that are apart: their values would agree on the bits that both fix. -/
theorem Row.not_hits_of_apart {r q : Row} {w : Word} (h : r.apart q = true) (hr : r.hits w = true) :
    q.hits w = false := by
  rw [Row.apart, bne_iff_ne] at h
  rw [Row.hits, beq_iff_eq] at hr
  rw [Row.hits, beq_eq_false_iff_ne]
  intro hq
  apply h
  rw [← hr, ← hq]
  ac_rfl

/-- Any two rows of the table fix some bit differently (30 R99). -/
theorem rows_pairwise_apart : (rows ldstRegMajor).Pairwise (fun r q => r.apart q = true) := by
  decide +kernel

/-- A word that hits a row of the table hits no earlier row, so the decoder builds that row's instruction. -/
theorem decode_of_hits {r : Row} {w : Word} (hr : r ∈ rows ldstRegMajor) (hw : r.hits w = true) :
    decode w = some (r.build w) := by
  obtain ⟨before, after, hsplit⟩ := List.append_of_mem hr
  have hp := rows_pairwise_apart
  rw [hsplit, List.pairwise_append] at hp
  obtain ⟨-, -, hcross⟩ := hp
  have hbefore : ∀ q ∈ before, ¬ q.hits w = true := by
    intro q hq hhit
    rw [Row.not_hits_of_apart (hcross q hq r List.mem_cons_self) hhit] at hw
    cases hw
  have hfind : (rows ldstRegMajor).find? (fun r => r.hits w) = some r := by
    rw [hsplit, List.find?_append, List.find?_eq_none.2 hbefore]
    simp [hw]
  rw [decode, decodeWith, hfind, Option.map_some]

/-- A word that decodes hits the row its instruction is built by. -/
theorem exists_row_of_decode {w : Word} {i : Instr} (h : decode w = some i) :
    ∃ r ∈ rows ldstRegMajor, r.hits w = true ∧ r.build w = i := by
  obtain ⟨r, hfind, hbuild⟩ := Option.map_eq_some_iff.1 h
  exact ⟨r, List.mem_of_find?_eq_some hfind, List.find?_some (p := (Row.hits · w)) hfind, hbuild⟩

/-- Settles O3: two rows hit by one word would not be apart. -/
theorem atMostOneRow : Obligations.AtMostOneRow := by
  refine ⟨rfl, fun w => ?_⟩
  have hp := rows_pairwise_apart.filter (fun r => r.hits w)
  have hhits : ∀ r ∈ (rows ldstRegMajor).filter (fun r => r.hits w), r.hits w = true :=
    fun r hr => (List.mem_filter.1 hr).2
  generalize (rows ldstRegMajor).filter (fun r => r.hits w) = hit at hp hhits ⊢
  match hit with
  | [] | [_] => simp
  | r :: q :: _ =>
    have hapart := List.rel_of_pairwise_cons hp (List.mem_cons_self : q ∈ q :: _)
    have hq := hhits q (by simp)
    rw [Row.not_hits_of_apart hapart (hhits r (by simp))] at hq
    cases hq

/-! ## A word put together again from its own fields -/

/-- A field put back where it was read is what the field's bits of the word hold. -/
theorem place_extractLsb' (w : Word) (k n : Nat) :
    place (w.extractLsb' k n) k = w &&& place (BitVec.allOnes n) k := by
  apply BitVec.eq_of_getLsbD_eq
  intro j hj
  rw [BitVec.getLsbD_and, place_getLsbD _ _ _ hj, place_getLsbD _ _ _ hj, BitVec.getLsbD_extractLsb',
    BitVec.getLsbD_allOnes]
  by_cases hk : k ≤ j
  · simp [hk, Bool.and_comm]
  · simp [hk]

/-- A field of one bit. -/
theorem extractLsb'_one (w : Word) (k : Nat) : w.extractLsb' k 1 = BitVec.ofBool (w.getLsbD k) := by
  apply BitVec.eq_of_getLsbD_eq
  intro j hj
  obtain rfl : j = 0 := by omega
  simp

/-- `x` has the bits of `w` under the mask `m`, and the constant `c` beside them. -/
def Rebuilt (w x c m : Word) : Prop := x = c ||| (w &&& m)

/-- An opcode is a constant. -/
theorem Rebuilt.const (w c : Word) : Rebuilt w c c 0#32 := by simp [Rebuilt]

/-- A field of the word, put back where it was read. -/
theorem Rebuilt.field (w : Word) (k n : Nat) :
    Rebuilt w (place (w.extractLsb' k n) k) 0#32 (place (BitVec.allOnes n) k) := by
  simp [Rebuilt, place_extractLsb']

/-- An option bit of the word, put back where it was read. -/
theorem Rebuilt.bit (w : Word) (k : Nat) :
    Rebuilt w (place (BitVec.ofBool (w.getLsbD k)) k) 0#32 (place (BitVec.allOnes 1) k) := by
  rw [← extractLsb'_one]
  exact .field w k 1

/-- The low bit of a precision field, put back where it was read: its high bit is 0 (30 R88). -/
theorem Rebuilt.prec (w : Word) (k : Nat) :
    Rebuilt w (place (fPrec w k).bits k) 0#32 (place (BitVec.allOnes 1) k) := by
  have hplace : place (fPrec w k).bits k = place (BitVec.ofBool (w.getLsbD k)) k := by
    unfold fPrec; cases w.getLsbD k <;> rfl
  rw [hplace]
  exact .bit w k

/-- A union of parts has the bits under either mask. -/
theorem Rebuilt.or {w x y c d m l : Word} (hx : Rebuilt w x c m) (hy : Rebuilt w y d l) :
    Rebuilt w (x ||| y) (c ||| d) (m ||| l) := by
  unfold Rebuilt at *
  rw [hx, hy, BitVec.and_or_distrib_left]
  ac_rfl

/-- The constant and the mask written another way. -/
theorem Rebuilt.of_eq {w x c m d l : Word} (h : Rebuilt w x c m) (hc : c = d := by rfl) (hm : m = l := by rfl) :
    Rebuilt w x d l := by
  subst hc hm; exact h

/-- What a row builds encodes to the row's value and, under the bits the row leaves free, those of the word. This says
more than `Laws.RowMatch.Statement`, which is about the row's fixed bits alone. -/
def Row.Reencodes (r : Row) : Prop := ∀ w, Rebuilt w (encode (r.build w)) r.value (~~~r.mask)

/-- Reencoding what a row builds of any word gives a word that hits the row. -/
theorem Row.Reencodes.hits {r : Row} (h : r.Reencodes) (hv : r.value &&& r.mask = r.value) (w : Word) :
    r.hits (encode (r.build w)) = true := by
  rw [Row.hits, beq_iff_eq, h w, or_and_mask, hv, BitVec.and_assoc]
  simp [BitVec.and_comm (~~~r.mask)]

/-- Reencoding what a row builds of a word that hits it gives the word back. -/
theorem Row.Reencodes.eq {r : Row} (h : r.Reencodes) {w : Word} (hw : r.hits w = true) :
    encode (r.build w) = w := by
  rw [Row.hits, beq_iff_eq] at hw
  rw [h w, ← hw, ← BitVec.and_or_distrib_left, BitVec.or_not_self, BitVec.and_allOnes]

/-! ### Each format (30 R84 to R91), with its fields read from `w` -/

section Formats
variable (w : Word)

theorem rebuilt_imm16L (op : BitVec 5) :
    Rebuilt w (encImm16L op (w.getLsbD 26) (fD w) (fS1 w) (fImm w)) (place op 27) 0x07FFFFFF#32 :=
  (((((Rebuilt.const w _).or (.bit w 26)).or (.field w 21 5)).or (.field w 16 5)).or (.field w 0 16)).of_eq
    (by simp) (by decide)

theorem rebuilt_imm16 (op : BitVec 6) :
    Rebuilt w (encImm16 op (fD w) (fS1 w) (fImm w)) (place op 26) 0x03FFFFFF#32 :=
  ((((Rebuilt.const w _).or (.field w 21 5)).or (.field w 16 5)).or (.field w 0 16)).of_eq (by simp) (by decide)

theorem rebuilt_tri (major : BitVec 6) (sub : BitVec 11) :
    Rebuilt w (encTri major (fD w) (fS1 w) sub (fS2 w)) (place major 26 ||| place sub 5) 0x03FF001F#32 :=
  (((((Rebuilt.const w _).or (.field w 21 5)).or (.field w 16 5)).or (.const w _)).or (.field w 0 5)).of_eq
    (by simp) (by decide)

/-- Format `TRI` with one option bit (30 R86). -/
theorem rebuilt_triOption (major : BitVec 6) (sub : BitVec 11) (k : Nat) :
    Rebuilt w (encTri major (fD w) (fS1 w) sub (fS2 w) ||| optionBit (w.getLsbD k) k)
      (place major 26 ||| place sub 5) (0x03FF001F#32 ||| place (BitVec.allOnes 1) k) :=
  ((rebuilt_tri w major sub).or (.bit w k)).of_eq (by simp) rfl

/-- Format `TRI` with the carry options `i` and `o` (30 R86, R94). -/
theorem rebuilt_triCarry (major : BitVec 6) (sub : BitVec 11) :
    Rebuilt w (encTri major (fD w) (fS1 w) sub (fS2 w) ||| optionBit (w.getLsbD 9) 9 ||| optionBit (w.getLsbD 8) 8)
      (place major 26 ||| place sub 5) 0x03FF031F#32 :=
  ((rebuilt_triOption w major sub 9).or (.bit w 8)).of_eq (by simp) (by decide)

theorem rebuilt_bit (sub : BitVec 6) :
    Rebuilt w (encBit (fD w) (fS1 w) sub (fW5 w) (fO5 w)) (place 0b111100#6 26 ||| place sub 10) 0x03FF03FF#32 :=
  ((((((Rebuilt.const w _).or (.field w 21 5)).or (.field w 16 5)).or (.const w _)).or (.field w 5 5)).or
    (.field w 0 5)).of_eq (by simp) (by decide)

/-- Format `FP`, where an instruction has `s1` and `t1` to `td` from the word or fixed (30 R88). -/
theorem rebuilt_fp {s1 sub : BitVec 5} {t1 t2 td : Prec} {cs c1 c2 cd ms m1 m2 md : Word}
    (hs : Rebuilt w (place s1 16) cs ms) (h1 : Rebuilt w (place t1.bits 9) c1 m1)
    (h2 : Rebuilt w (place t2.bits 7) c2 m2) (hd : Rebuilt w (place td.bits 5) cd md) :
    Rebuilt w (encFp (fD w) s1 sub t1 t2 td (fS2 w))
      (place 0b100001#6 26 ||| cs ||| place sub 11 ||| c1 ||| c2 ||| cd) (0x03E0001F#32 ||| ms ||| m1 ||| m2 ||| md) :=
  ((((((((Rebuilt.const w _).or (.field w 21 5)).or hs).or (.const w _)).or h1).or h2).or hd).or
    (.field w 0 5)).of_eq (by simp) (by
      rw [show 0x03E0001F#32 = place (BitVec.allOnes 5) 21 ||| place (BitVec.allOnes 5) 0 by decide]
      simp only [BitVec.or_zero, BitVec.zero_or]; ac_rfl)

/-- Format `BIT` of `rot`, with no width (42 R181). -/
theorem rebuilt_rot :
    Rebuilt w (encBit (fD w) (fS1 w) 0b101010#6 0#5 (fO5 w)) 0xF000A800#32 0x03FF001F#32 :=
  ((((((Rebuilt.const w _).or (.field w 21 5)).or (.field w 16 5)).or (.const w _)).or (.const w _)).or
    (.field w 0 5)).of_eq (by decide) (by decide)

theorem rebuilt_bb (op : BitVec 5) :
    Rebuilt w (encBb op (w.getLsbD 26) (fB5 w) (fS1 w) (fImm w)) (place op 27) 0x07FFFFFF#32 :=
  rebuilt_imm16L w op

theorem rebuilt_br26 (op : BitVec 5) :
    Rebuilt w (encBr26 op (w.getLsbD 26) (fD26 w)) (place op 27) 0x07FFFFFF#32 :=
  (((Rebuilt.const w _).or (.bit w 26)).or (.field w 0 26)).of_eq (by simp) (by decide)

theorem rebuilt_jmp (sub : BitVec 5) :
    Rebuilt w (encJmp sub (w.getLsbD 10) (fS2 w)) (place 0b111101#6 26 ||| place sub 11) 0x0000041F#32 :=
  ((((Rebuilt.const w _).or (.const w _)).or (.bit w 10)).or (.field w 0 5)).of_eq (by simp) (by decide)

end Formats

/-! ## The fields of an encoded word -/

/-- A field read where it was placed is the field. -/
theorem extractLsb'_place_same {n : Nat} (x : BitVec n) (k : Nat) (h : k + n ≤ 32) :
    (place x k).extractLsb' k n = x := by
  apply BitVec.eq_of_getLsbD_eq
  intro j hj
  rw [BitVec.getLsbD_extractLsb', place_getLsbD _ _ _ (by omega)]
  simp [hj]

/-- A field read beside a placed field is 0. -/
theorem extractLsb'_place_disjoint {n : Nat} (x : BitVec n) (k l m : Nat) (h : k + n ≤ l ∨ l + m ≤ k) :
    (place x k).extractLsb' l m = 0#m := by
  apply BitVec.eq_of_getLsbD_eq
  intro j hj
  rw [BitVec.getLsbD_extractLsb', BitVec.getLsbD_zero]
  by_cases hlt : l + j < 32
  · rw [place_getLsbD _ _ _ hlt]
    rcases h with hlo | hhi
    · simp [BitVec.getLsbD_of_ge x (l + j - k) (by omega)]
    · simp [show ¬ k ≤ l + j by omega]
  · simp [BitVec.getLsbD_of_ge (place x k) (l + j) (by omega)]

/-- The register fields of a union of parts. -/
theorem fields_or (x y : Word) :
    fD (x ||| y) = fD x ||| fD y ∧ fS1 (x ||| y) = fS1 x ||| fS1 y ∧ fS2 (x ||| y) = fS2 x ||| fS2 y :=
  ⟨BitVec.extractLsb'_or, BitVec.extractLsb'_or, BitVec.extractLsb'_or⟩

/-- An option bit stands where format `TRI` has no register (30 R86). -/
theorem optionBit_fields (b : Bool) (k : Nat) (hlo : 5 ≤ k) (hhi : k < 16) :
    fD (optionBit b k) = 0#5 ∧ fS1 (optionBit b k) = 0#5 ∧ fS2 (optionBit b k) = 0#5 :=
  ⟨extractLsb'_place_disjoint _ _ _ _ (.inl (by omega)), extractLsb'_place_disjoint _ _ _ _ (.inl (by omega)),
    extractLsb'_place_disjoint _ _ _ _ (.inr (by omega))⟩

/-- A bit of a placed field, in the spelling simp prefers. -/
theorem place_getElem {n : Nat} (x : BitVec n) (k j : Nat) (hj : j < 32) :
    (place x k)[j] = (decide (k ≤ j) && x.getLsbD (j - k)) := by
  rw [← BitVec.getLsbD_eq_getElem hj, place_getLsbD x k j hj]

/-- An option bit is read at its own position only. -/
theorem optionBit_getElem (b : Bool) (k j : Nat) (hj : j < 32) :
    (optionBit b k)[j] = (decide (k = j) && b) := by
  rw [optionBit, place_getElem _ _ _ hj, BitVec.getLsbD_ofBool]
  by_cases h : k = j
  · simp [h]
  · have hne : ¬ (k ≤ j ∧ j - k = 0) := by omega
    simpa [h] using fun hk hz => absurd ⟨hk, hz⟩ hne

theorem encImm16L_fields (op : BitVec 5) (u : Bool) (d s1 : Reg) (imm : Half) :
    (encImm16L op u d s1 imm)[26] = u ∧ fD (encImm16L op u d s1 imm) = d ∧
      fS1 (encImm16L op u d s1 imm) = s1 ∧ fImm (encImm16L op u d s1 imm) = imm := by
  simp [encImm16L, fD, fS1, fImm, BitVec.extractLsb'_or, place_getElem, extractLsb'_place_same,
    extractLsb'_place_disjoint]

theorem encImm16_fields (op : BitVec 6) (d s1 : Reg) (imm : Half) :
    fD (encImm16 op d s1 imm) = d ∧ fS1 (encImm16 op d s1 imm) = s1 ∧ fImm (encImm16 op d s1 imm) = imm := by
  simp [encImm16, fD, fS1, fImm, BitVec.extractLsb'_or, extractLsb'_place_same, extractLsb'_place_disjoint]

theorem encTri_fields (major : BitVec 6) (d s1 : Reg) (sub : BitVec 11) (s2 : Reg) :
    fD (encTri major d s1 sub s2) = d ∧ fS1 (encTri major d s1 sub s2) = s1 ∧
      fS2 (encTri major d s1 sub s2) = s2 := by
  simp [encTri, fD, fS1, fS2, BitVec.extractLsb'_or, extractLsb'_place_same, extractLsb'_place_disjoint]

/-- An option position of format `TRI` holds the bit of `sub` (30 R86). -/
theorem encTri_getElem (major : BitVec 6) (d s1 : Reg) (sub : BitVec 11) (s2 : Reg) (j : Nat) (hlo : 5 ≤ j)
    (hhi : j < 16) : (encTri major d s1 sub s2)[j] = sub.getLsbD (j - 5) := by
  simp [encTri, place_getElem, hlo, show ¬ 16 ≤ j by omega, show ¬ 21 ≤ j by omega, show ¬ 26 ≤ j by omega]

theorem encBit_fields (d s1 : Reg) (sub : BitVec 6) (w5 o5 : BitVec 5) :
    fD (encBit d s1 sub w5 o5) = d ∧ fS1 (encBit d s1 sub w5 o5) = s1 ∧ fW5 (encBit d s1 sub w5 o5) = w5 ∧
      fO5 (encBit d s1 sub w5 o5) = o5 := by
  simp [encBit, fD, fS1, fW5, fO5, BitVec.extractLsb'_or, extractLsb'_place_same, extractLsb'_place_disjoint]

/-- A precision is read from the low bit of its field (30 R88). -/
theorem Prec.of_bits (t : Prec) : (if t.bits.getLsbD 0 then Prec.double else .single) = t := by
  cases t <;> rfl

theorem encFp_fields (d s1 : Reg) (sub : BitVec 5) (t1 t2 td : Prec) (s2 : Reg) :
    fD (encFp d s1 sub t1 t2 td s2) = d ∧ fS1 (encFp d s1 sub t1 t2 td s2) = s1 ∧
      fS2 (encFp d s1 sub t1 t2 td s2) = s2 ∧ fPrec (encFp d s1 sub t1 t2 td s2) 9 = t1 ∧
      fPrec (encFp d s1 sub t1 t2 td s2) 7 = t2 ∧ fPrec (encFp d s1 sub t1 t2 td s2) 5 = td := by
  simp [encFp, fD, fS1, fS2, fPrec, BitVec.extractLsb'_or, place_getLsbD, extractLsb'_place_same,
    extractLsb'_place_disjoint, BitVec.getLsbD_of_ge, Prec.of_bits, -BitVec.getLsbD_eq_getElem]

theorem encBb_fields (op : BitVec 5) (n : Bool) (b5 : BitVec 5) (s1 : Reg) (d16 : Half) :
    (encBb op n b5 s1 d16)[26] = n ∧ fB5 (encBb op n b5 s1 d16) = b5 ∧ fS1 (encBb op n b5 s1 d16) = s1 ∧
      fImm (encBb op n b5 s1 d16) = d16 :=
  encImm16L_fields op n b5 s1 d16

theorem encBr26_fields (op : BitVec 5) (n : Bool) (d26 : BitVec 26) :
    (encBr26 op n d26)[26] = n ∧ fD26 (encBr26 op n d26) = d26 := by
  simp [encBr26, fD26, BitVec.extractLsb'_or, place_getElem, extractLsb'_place_same, extractLsb'_place_disjoint]

theorem encJmp_fields (sub : BitVec 5) (n : Bool) (s2 : Reg) :
    (encJmp sub n s2)[10] = n ∧ fS2 (encJmp sub n s2) = s2 := by
  simp [encJmp, fS2, BitVec.extractLsb'_or, place_getElem, extractLsb'_place_same, extractLsb'_place_disjoint]

/-! ## The row of an instruction -/

/-- The row of an instruction: the constructors of `Instr` and the rows of the table have one order. -/
def rowOf (i : Instr) : Option Row := (rows ldstRegMajor)[i.ctorIdx]?

/-- A row of the table is the row of what it builds. -/
theorem rowOf_build {r : Row} (hr : r ∈ rows ldstRegMajor) (w : Word) : rowOf (r.build w) = some r := by
  obtain ⟨k, hk⟩ := List.mem_iff_getElem?.1 hr
  have horder : (rows ldstRegMajor).map (fun r => (r.build w).ctorIdx) = List.range 74 := rfl
  have hlt : k < 74 := (List.getElem?_eq_some_iff.1 hk).1
  have hidx : (r.build w).ctorIdx = k := by
    have hmap := congrArg (·[k]?) horder
    simpa [hk, hlt] using hmap
  rw [rowOf, hidx, hk]

/-- An instruction's row reencodes, and reads from the instruction's word the fields it was encoded with. -/
theorem rowOf_spec (i : Instr) : ∃ r, rowOf i = some r ∧ r.Reencodes ∧ r.build (encode i) = i := by
  cases i with
  | andImm | xorImm | maskImm | orImm =>
    exact ⟨_, rfl, fun w => (rebuilt_imm16L w _).of_eq, by simp [encode, encodeWith, encImm16L_fields]⟩
  | addImm | adduImm | subImm | subuImm | cmpImm | muluImm | divsImm | divuImm | lddImm | ldImm | ldhImm | ldbImm
  | ldhuImm | ldbuImm | stdImm | stImm | sthImm | stbImm =>
    exact ⟨_, rfl, fun w => (rebuilt_imm16 w _).of_eq, by simp [encode, encodeWith, encImm16_fields]⟩
  | cmpReg | mulsReg | divsReg | clrReg | setReg | extReg | extuReg | makReg | rotReg | lddReg | ldReg | ldhReg
  | ldbReg | ldhuReg | ldbuReg | xmem =>
    exact ⟨_, rfl, fun w => (rebuilt_tri w _ _).of_eq, by simp [encode, encodeWith, encTri_fields]⟩
  | andReg | xorReg | orReg | muluReg | divuReg | stdReg | stReg | sthReg | stbReg =>
    exact ⟨_, rfl, fun w => (rebuilt_triOption w _ _ _).of_eq, by
      simp [encode, encodeWith, fields_or, encTri_fields, optionBit_fields, optionBit_getElem, encTri_getElem]⟩
  | addReg | adduReg | subReg | subuReg =>
    exact ⟨_, rfl, fun w => (rebuilt_triCarry w _ _).of_eq, by
      simp [encode, encodeWith, fields_or, encTri_fields, optionBit_fields, optionBit_getElem, encTri_getElem]⟩
  | clrBit | setBit | extBit | extuBit | makBit =>
    exact ⟨_, rfl, fun w => (rebuilt_bit w _).of_eq, by simp [encode, encodeWith, encBit_fields]⟩
  | rotBit => exact ⟨_, rfl, fun w => (rebuilt_rot w).of_eq, by simp [encode, encodeWith, encBit_fields]⟩
  | fadd | fdiv | fmul | fsub =>
    exact ⟨_, rfl, fun w => (rebuilt_fp w (.field w 16 5) (.prec w 9) (.prec w 7) (.prec w 5)).of_eq, by
      simp [encode, encodeWith, encFp_fields]⟩
  | fcmp =>
    exact ⟨_, rfl, fun w => (rebuilt_fp w (.field w 16 5) (.prec w 9) (.prec w 7) (.const w _)).of_eq, by
      simp [encode, encodeWith, encFp_fields]⟩
  | fcvt =>
    exact ⟨_, rfl, fun w => (rebuilt_fp w (.const w _) (.const w _) (.prec w 7) (.prec w 5)).of_eq, by
      simp [encode, encodeWith, encFp_fields]⟩
  | flt =>
    exact ⟨_, rfl, fun w => (rebuilt_fp w (.const w _) (.const w _) (.const w _) (.prec w 5)).of_eq, by
      simp [encode, encodeWith, encFp_fields]⟩
  | fint =>
    exact ⟨_, rfl, fun w => (rebuilt_fp w (.const w _) (.const w _) (.prec w 7) (.const w _)).of_eq, by
      simp [encode, encodeWith, encFp_fields]⟩
  | bb0 | bb1 => exact ⟨_, rfl, fun w => (rebuilt_bb w _).of_eq, by simp [encode, encodeWith, encBb_fields]⟩
  | br | bsr => exact ⟨_, rfl, fun w => (rebuilt_br26 w _).of_eq, by simp [encode, encodeWith, encBr26_fields]⟩
  | jmp | jsr => exact ⟨_, rfl, fun w => (rebuilt_jmp w _).of_eq, by simp [encode, encodeWith, encJmp_fields]⟩
  | ldcr =>
    exact ⟨_, rfl, fun w => ((Rebuilt.const w _).or (.field w 21 5)).of_eq, by
      simp [encode, encodeWith, fD, BitVec.extractLsb'_or, extractLsb'_place_same, extractLsb'_place_disjoint]⟩
  | stcr =>
    exact ⟨_, rfl, fun w => (((Rebuilt.const w _).or (.field w 16 5)).or (.const w _)).of_eq, by
      simp [encode, encodeWith, fS1, BitVec.extractLsb'_or, extractLsb'_place_same, extractLsb'_place_disjoint]⟩
  | stop => exact ⟨_, rfl, fun w => (Rebuilt.const w _).of_eq, rfl⟩

/-! ## Decoding and encoding -/

/-- Reencoding what a row builds keeps the row's value on its fixed bits and the word's own bits beside them. -/
theorem rows_reencode {r : Row} (hr : r ∈ rows ldstRegMajor) : r.Reencodes := by
  obtain ⟨q, hq, hreencodes, -⟩ := rowOf_spec (r.build 0#32)
  rw [rowOf_build hr, Option.some_inj] at hq
  rwa [hq]

/-- A row's value has no bit beyond those it fixes. -/
theorem rows_value : ∀ r ∈ rows ldstRegMajor, r.value &&& r.mask = r.value := by
  decide +kernel

/-- Settles O2: the word hits the row its instruction is built by, and that row reencodes. -/
theorem encodeOfDecode : Obligations.EncodeOfDecode := by
  intro w i h
  obtain ⟨r, hr, hw, rfl⟩ := exists_row_of_decode h
  exact (rows_reencode hr).eq hw

/-- Settles O1: an instruction's word hits its row, since the row builds it and reencodes, and no earlier row. -/
theorem decodeOfEncode : Obligations.DecodeOfEncode := by
  intro i
  obtain ⟨r, hr, hreencodes, hbuild⟩ := rowOf_spec i
  have hmem := List.mem_of_getElem? hr
  have hhits := hreencodes.hits (rows_value r hmem) (encode i)
  rw [hbuild] at hhits
  rw [decode_of_hits hmem hhits, hbuild]

/-! ## Words that are no instruction -/

/-- A field of a word, as the bits of the word under the field's mask. -/
theorem and_place_of_extractLsb' {w : Word} {k n : Nat} {x : BitVec n} (h : w.extractLsb' k n = x) :
    w &&& place (BitVec.allOnes n) k = place x k := by
  rw [← place_extractLsb', h]

/-- A word with the bits `c` under the mask `k` is no instruction when every row fixes one of those bits otherwise,
or has a fixed bit that the word has not. The bits are compared as a row of the table, whatever it builds. -/
theorem decode_eq_none {w k c : Word} (hw : w &&& k = c)
    (h : ∀ r ∈ rows ldstRegMajor, r.apart ⟨k, c, r.build⟩ = true ∨ w &&& r.mask ≠ r.value) : decode w = none := by
  rw [decode, decodeWith, Option.map_eq_none_iff, List.find?_eq_none]
  intro r hr hhit
  rcases h r hr with hapart | hne
  · have hq := Row.not_hits_of_apart hapart hhit
    simp [Row.hits, hw] at hq
  · exact hne (by simpa [Row.hits] using hhit)

/-- No row has an unused major opcode (30 R95). -/
theorem rows_apart_of_unusedMajor :
    ∀ m ∈ [0b000000#6, 0b000001#6, 0b001100#6, 0b001101#6, 0b001110#6, 0b001111#6, 0b100010#6,
        0b100011#6, 0b100100#6, 0b100101#6, 0b100110#6, 0b100111#6, 0b101000#6, 0b101001#6, 0b101010#6, 0b101011#6,
        0b101100#6, 0b101101#6, 0b101110#6, 0b101111#6, 0b111000#6, 0b111001#6, 0b111010#6, 0b111011#6, 0b111110#6],
      ∀ r ∈ rows ldstRegMajor, r.apart ⟨place (BitVec.allOnes 6) 26, place m 26, r.build⟩ = true := by
  decide +kernel

/-- Every row but that of `stop` has another major opcode than `111111`. -/
theorem rows_apart_of_major_ones :
    ∀ r ∈ rows ldstRegMajor, r.apart ⟨place (BitVec.allOnes 6) 26, place 0b111111#6 26, r.build⟩ = true ∨
      (r.mask = 0xFFFFFFFF#32 ∧ r.value = 0xFFFFFFFF#32) := by
  decide +kernel

/-- The floating-point rows fix the high bit of each precision field to 0 (30 R88). -/
theorem rows_apart_of_precision :
    ∀ k ∈ [10, 8, 6], ∀ r ∈ rows ldstRegMajor,
      r.apart ⟨place (BitVec.allOnes 6) 26 ||| place 1#1 k, place 0b100001#6 26 ||| place 1#1 k, r.build⟩ = true := by
  decide +kernel

/-- Every row but that of `rot` with an immediate has other bits there, and that row fixes bits 9:5 to 0 (42 R181). -/
theorem rows_apart_of_rot :
    ∀ r ∈ rows ldstRegMajor,
      r.apart ⟨place (BitVec.allOnes 6) 26 ||| place (BitVec.allOnes 6) 10,
        place 0b111100#6 26 ||| place 0b101010#6 10, r.build⟩ = true ∨
      (r.mask = 0xFC00FFE0#32 ∧ r.value = 0xF000A800#32) := by
  decide +kernel

/-- A floating-point word with the high bit of a precision field is no instruction (30 R88, 43 R194). -/
theorem decode_unusedPrecision {w : Word} {k : Nat} (hk : k ∈ [10, 8, 6]) (hm : w.extractLsb' 26 6 = 0b100001#6)
    (hb : w.getLsbD k = true) : decode w = none := by
  have hbit : w.extractLsb' k 1 = 1#1 := by rw [extractLsb'_one, hb]; rfl
  refine decode_eq_none (k := place (BitVec.allOnes 6) 26 ||| place (BitVec.allOnes 1) k) ?_
    fun r hr => .inl (rows_apart_of_precision k hk r hr)
  rw [BitVec.and_or_distrib_left, and_place_of_extractLsb' hm, and_place_of_extractLsb' hbit]

/-- Settles O4: such a word has bits that every row, or every row but one, fixes otherwise. -/
theorem notInstructions : Obligations.NotInstructions := by
  intro w
  refine ⟨fun hm => ?_, fun hm hw => ?_, fun hm hb => ?_, fun hm hs hw5 => ?_⟩
  · exact decode_eq_none (and_place_of_extractLsb' rfl) fun r hr => .inl (rows_apart_of_unusedMajor _ hm r hr)
  · refine decode_eq_none (and_place_of_extractLsb' hm) fun r hr => (rows_apart_of_major_ones r hr).imp_right ?_
    rintro ⟨hmask, hvalue⟩
    rw [hmask, hvalue]
    exact fun hhit => hw (BitVec.and_allOnes.symm.trans hhit)
  · rw [Bool.or_eq_true, Bool.or_eq_true] at hb
    rcases hb with (h10 | h8) | h6
    · exact decode_unusedPrecision (by decide) hm h10
    · exact decode_unusedPrecision (by decide) hm h8
    · exact decode_unusedPrecision (by decide) hm h6
  · refine decode_eq_none (k := place (BitVec.allOnes 6) 26 ||| place (BitVec.allOnes 6) 10) ?_
      fun r hr => (rows_apart_of_rot r hr).imp_right ?_
    · rw [BitVec.and_or_distrib_left, and_place_of_extractLsb' hm, and_place_of_extractLsb' hs]
    · rintro ⟨hmask, hvalue⟩ hhit
      rw [hmask, hvalue] at hhit
      have hfield := congrArg (BitVec.extractLsb' 5 5) hhit
      rw [BitVec.extractLsb'_and] at hfield
      exact hw5 (BitVec.and_allOnes.symm.trans hfield)

end Sys2Proof

/-! # Logical instructions (spec 40): the words of their formats, what they write -/

namespace Sys2Proof

/-! ## A word written field after field, as the diagrams of 30 show it -/

/-- Fields written side by side and placed: the left one stands above the right one. -/
theorem place_append {n m : Nat} (x : BitVec n) (y : BitVec m) (k : Nat) :
    place (x ++ y) k = place x (k + m) ||| place y k := by
  apply BitVec.eq_of_getLsbD_eq
  intro j hj
  rw [BitVec.getLsbD_or, place_getLsbD _ _ _ hj, place_getLsbD _ _ _ hj, place_getLsbD _ _ _ hj,
    BitVec.getLsbD_append]
  by_cases hk : k ≤ j
  · by_cases hm : j - k < m
    · simp [hk, hm, show ¬ k + m ≤ j by omega]
    · simp [hk, hm, show k + m ≤ j by omega, Nat.sub_sub, BitVec.getLsbD_of_ge y (j - k) (by omega)]
  · simp [hk, show ¬ k + m ≤ j by omega]

/-- A field of zeros, placed. -/
theorem place_zero (n k : Nat) : place 0#n k = 0#32 := by simp [place]

/-- A whole word, placed. -/
theorem place_word (w : Word) : place w 0 = w := by simp [place]

/-- Format `IMM16L` is its fields side by side (30 R84). -/
theorem encImm16L_eq_append (op : BitVec 5) (u : Bool) (d s1 : Reg) (imm : Half) :
    encImm16L op u d s1 imm = op ++ BitVec.ofBool u ++ d ++ s1 ++ imm := by
  refine .trans ?_ (place_word _)
  simp only [place_append]
  rfl

/-- Format `TRI` with its option bit 10 is its fields side by side, its sub-opcode in bits 15:11 (30 R86). -/
theorem encTri_optionBit_eq_append (major : BitVec 6) (d s1 : Reg) {sub : BitVec 5} {sub11 : BitVec 11} (c : Bool)
    (s2 : Reg) (h : sub ++ 0#6 = sub11) :
    encTri major d s1 sub11 s2 ||| optionBit c 10 =
      major ++ d ++ s1 ++ sub ++ BitVec.ofBool c ++ 0#5 ++ s2 := by
  subst h
  refine .trans ?_ (place_word _)
  simp only [encTri, optionBit, place_append, place_zero, BitVec.or_zero]
  rw [BitVec.or_assoc, BitVec.or_comm (place s2 0), ← BitVec.or_assoc]

/-- The word an instruction is encoded to decodes to that instruction, in whatever form the word is given. -/
theorem decode_of_encode_eq {w : Word} {i : Instr} (h : encode i = w) : decode w = some i := by
  rw [← h, decodeOfEncode]

end Sys2Proof

namespace Sys2Proof.Machine

/-! ## The logical operands (40 R130) -/

/-- An operation on one half of a word, the other half beside it. -/
theorem onHalf_eq (u : Bool) (f : Half → Half) (a : Word) :
    onHalf u f a =
      if u then f (a.extractLsb' 16 16) ++ a.extractLsb' 0 16 else a.extractLsb' 16 16 ++ f (a.extractLsb' 0 16) := by
  simp only [onHalf, joinHalves_eq, highHalf, lowHalf]

/-- `mask` of one half of a word, zeros beside it (40 R135). -/
theorem maskHalf_eq (u : Bool) (imm : Half) (a : Word) :
    maskHalf u imm a =
      if u then (a.extractLsb' 16 16 &&& imm) ++ 0#16 else 0#16 ++ (a.extractLsb' 0 16 &&& imm) := by
  simp only [maskHalf, joinHalves_eq, highHalf, lowHalf]

/-! ## What they write -/

/-- An instruction whose meaning is to write back `v` writes `v` and nothing else, in whatever form `v` is given. -/
theorem exec_writesReg {i : Instr} {s : State} {d : Reg} {v w : Word} (h : exec i s = writeBack s d v)
    (hv : v = w) : ∃ t, exec i s = .next t ∧ WritesReg s t d w := by
  rw [h, hv]
  exact writeBack_writesReg s d w

/-- Settles O9: each word is format `IMM16L` side by side, and each instruction writes back one half with the
immediate. -/
theorem logicalImmediate : Obligations.LogicalImmediate := by
  intro u d s1 imm s
  have hword := fun op => encImm16L_eq_append op u d s1 imm
  refine ⟨⟨?_, ?_⟩, ⟨?_, ?_⟩, ⟨?_, ?_⟩, ?_, ?_⟩
  · exact decode_of_encode_eq (hword _)
  · exact exec_writesReg rfl (onHalf_eq u (· &&& imm) _)
  · exact decode_of_encode_eq (hword _)
  · exact exec_writesReg rfl (onHalf_eq u (· ^^^ imm) _)
  · exact decode_of_encode_eq (hword _)
  · exact exec_writesReg rfl (maskHalf_eq u imm _)
  · exact decode_of_encode_eq (hword _)
  · exact exec_writesReg rfl (onHalf_eq u (· ||| imm) _)

/-- Settles O10: each word is format `TRI` side by side, and each instruction writes back its operation on `rS1` and
the second operand, which `complementIf` complements with `.c`. -/
theorem logicalRegister : Obligations.LogicalRegister := by
  intro c d s1 s2 s
  refine ⟨⟨?_, ?_⟩, ⟨?_, ?_⟩, ?_, ?_⟩
  · exact decode_of_encode_eq (encTri_optionBit_eq_append _ d s1 c s2 rfl)
  · exact exec_writesReg rfl rfl
  · exact decode_of_encode_eq (encTri_optionBit_eq_append _ d s1 c s2 rfl)
  · exact exec_writesReg rfl rfl
  · exact decode_of_encode_eq (encTri_optionBit_eq_append _ d s1 c s2 rfl)
  · exact exec_writesReg rfl rfl

end Sys2Proof.Machine

/-! # Integer arithmetic (spec 41): exact results and their words, carry and borrow, conditions, quotients -/

namespace Sys2Proof

/-! ## The words of the formats, field after field -/

/-- Format `IMM16` is its fields side by side (30 R85). -/
theorem encImm16_eq_append (op : BitVec 6) (d s1 : Reg) (imm : Half) :
    encImm16 op d s1 imm = op ++ d ++ s1 ++ imm := by
  refine .trans ?_ (place_word _)
  simp only [place_append]
  rfl

/-- A part of a union of parts written as the last one. -/
theorem or_move_last (x y z w : Word) : x ||| y ||| z ||| w = x ||| z ||| w ||| y := by ac_rfl

/-- Format `TRI` with the carry options `i` and `o` is its fields side by side, its sub-opcode in bits 15:10 (30 R86,
R94). -/
theorem encTri_carry_eq_append (major : BitVec 6) (d s1 : Reg) {sub : BitVec 6} {sub11 : BitVec 11} (i o : Bool)
    (s2 : Reg) (h : sub ++ 0#5 = sub11) :
    encTri major d s1 sub11 s2 ||| optionBit i 9 ||| optionBit o 8 =
      major ++ d ++ s1 ++ sub ++ BitVec.ofBool i ++ BitVec.ofBool o ++ 0#3 ++ s2 := by
  subst h
  refine .trans ?_ (place_word _)
  simp only [encTri, optionBit, place_append, place_zero, BitVec.or_zero]
  exact or_move_last _ _ _ _

end Sys2Proof

namespace Sys2Proof.Machine

/-! ## The ends of an integer instruction -/

/-- Writing one register and, with `.co`, the carry, and completing. -/
theorem setCarryIf_retire (s : State) (d : Reg) (v : Word) (o c : Bool) :
    WritesRegCarry s ((s.setReg d v).setCarryIf o c).retire d v o c := by
  obtain ⟨hd, hregs, hcr, hmem, hadv⟩ := setReg_retire s d v
  cases o with
  | false =>
    refine ⟨hd, hregs, ⟨hcr.2, fun j => ?_⟩, hmem, hadv⟩
    rw [State.setCarryIf_false, hcr.1]
    split
    · next h => rw [h]; rfl
    · rfl
  | true =>
    refine ⟨hd, hregs, ⟨hcr.2, fun j => ?_⟩, hmem, hadv⟩
    rw [State.setCarryIf_true, State.retire_cr, State.setCrBit_getLsbD _ _ _ _ (by decide), State.setReg_cr]
    rfl

/-- The end of an unsigned instruction, whatever its result. -/
theorem finishUnsigned_eq (s : State) (o : Bool) (d : Reg) (r : IntResult) :
    finishUnsigned s o d r = .next ((s.setReg d r.word).setCarryIf o r.carryOut).retire := by
  rw [finishUnsigned, State.settleFlags_eq]

/-- A signed instruction whose result fits ends as an unsigned one does (41 R143). -/
theorem finishSigned_of_fits (s : State) (o : Bool) (d : Reg) {r : IntResult} (h : r.fits = true) :
    finishSigned s o d r = finishUnsigned s o d r := by
  rw [finishSigned, if_pos h]
  rfl

/-- An instruction that ends with result `r` writes its word and, with `.co`, its carry, in whatever form they are
given. -/
theorem exec_writesRegCarry {i : Instr} {s : State} {o c : Bool} {d : Reg} {r : IntResult} {v : Word}
    (h : exec i s = finishUnsigned s o d r) (hv : r.word = v) (hc : r.carryOut = c) :
    ∃ t, exec i s = .next t ∧ WritesRegCarry s t d v o c := by
  rw [h, ← hv, ← hc, finishUnsigned_eq]
  exact ⟨_, rfl, setCarryIf_retire s d _ o _⟩

/-- An integer instruction that ends without a flag writes its word and nothing else, in whatever form it is given.
An instruction with no `.co` and a result `r` ends so with `r.word`. -/
theorem exec_writesReg_of_finishInteger {i : Instr} {s : State} {d : Reg} {v w : Word}
    (h : exec i s = finishInteger s d v) (hv : v = w) : ∃ t, exec i s = .next t ∧ WritesReg s t d w := by
  rw [h, hv]
  exact finishInteger_writesReg s d w

/-- An integer instruction that ends in a pair writes it and nothing else. -/
theorem exec_writesPair {i : Instr} {s : State} {d : Reg} {v : DWord}
    (h : exec i s = .next (s.setPair d v).settleFlags.retire) (hd : d ≠ 31#5) :
    ∃ t, exec i s = .next t ∧ WritesPair s t d v := by
  rw [h, State.settleFlags_eq]
  exact ⟨_, rfl, setPair_retire s d v hd⟩

/-! ## Sums, differences and products (41 R141, R142, R156 to R158) -/

theorem signedFits_iff (z : Int) : signedFits z = true ↔ -2147483648 ≤ z ∧ z ≤ 2147483647 := by
  simp [signedFits]

/-- A signed difference modulo 2^32. -/
theorem ofInt_sub (x y : Int) : BitVec.ofInt 32 (x - y) = BitVec.ofInt 32 x - BitVec.ofInt 32 y := by
  rw [Int.sub_eq_add_neg, BitVec.ofInt_add, BitVec.ofInt_neg, BitVec.sub_eq_add_neg]

/-- The word of a sum, as words are added. -/
theorem addExact_word (a b : Word) (c : Bool) : (addExact a b c).word = a + b + BitVec.ofNat 32 (bitNat c) := by
  simp [addExact, BitVec.ofNat_add]

/-- The word of a sum is the exact signed sum modulo 2^32. -/
theorem addExact_word_signed (a b : Word) (c : Bool) :
    (addExact a b c).word = BitVec.ofInt 32 (a.toInt + b.toInt + bitNat c) := by
  rw [addExact_word, BitVec.ofInt_add, BitVec.ofInt_add, BitVec.ofInt_toInt, BitVec.ofInt_toInt, BitVec.ofInt_natCast]

/-- The carry out of an addition is bit 32 of the unsigned sum (D10). -/
theorem addExact_carryOut (a b : Word) (c : Bool) :
    (addExact a b c).carryOut = (a.toNat + b.toNat + bitNat c).testBit 32 := by
  have ha := a.isLt
  have hb := b.isLt
  have hc : bitNat c ≤ 1 := by cases c <;> decide
  rw [Nat.testBit_eq_decide_div_mod_eq, addExact, decide_eq_decide]
  omega

/-- The borrow in is `CR.C` with `.ci`, else 0 (D9). -/
theorem subCarryIn_eq (s : State) (i : Bool) : subCarryIn subCarry s i = (i && s.carry) := by cases i <;> rfl

/-- The word of a difference, as words are subtracted. -/
theorem subExact_word (a b : Word) (c : Bool) :
    (subExact subCarry a b c).word = a - b - BitVec.ofNat 32 (bitNat c) := by
  simp [subExact, subCarry, ofInt_sub]

/-- The word of a difference is the exact signed difference modulo 2^32. -/
theorem subExact_word_signed (a b : Word) (c : Bool) :
    (subExact subCarry a b c).word = BitVec.ofInt 32 (a.toInt - b.toInt - bitNat c) := by
  rw [subExact_word, ofInt_sub, ofInt_sub, BitVec.ofInt_toInt, BitVec.ofInt_toInt, BitVec.ofInt_natCast]

/-- The low word of the unsigned product is the product of the words. -/
theorem lowWord_mulUnsigned (a b : Word) : lowWord (mulUnsigned a b) = a * b := by
  simp [lowWord, mulUnsigned, BitVec.ofNat_mul, BitVec.setWidth_mul]

/-- The unsigned product of two words fits 64 bits. -/
theorem mulUnsigned_toNat (a b : Word) : (mulUnsigned a b).toNat = a.toNat * b.toNat := by
  have hlt : a.toNat * b.toNat < 2 ^ 32 * 2 ^ 32 := Nat.mul_lt_mul'' a.isLt b.isLt
  rw [mulUnsigned, BitVec.toNat_ofNat, Nat.mod_eq_of_lt (by omega)]

/-- `mulu.d` ends with the product in its pair, where that is not at `r31`. -/
theorem exec_muluPair {d : Reg} (s1 s2 : Reg) (s : State) (hd : d ≠ 31#5) :
    exec (.muluReg true d s1 s2) s = .next (s.setPair d (mulUnsigned (s.reg s1) (s.reg s2))).settleFlags.retire :=
  guardPairs_ok [d] s _ (by simpa using hd)

/-- Settles O11: each word is format `IMM16` side by side, and each instruction ends with its operation on the
zero-extended immediate, without carry in or out. -/
theorem unsignedImmediate : Obligations.UnsignedImmediate := by
  intro d s1 imm s
  have hword := fun op => encImm16_eq_append op d s1 imm
  refine ⟨⟨?_, ?_⟩, ⟨?_, ?_⟩, ?_, ?_⟩
  · exact decode_of_encode_eq (hword _)
  · exact exec_writesReg_of_finishInteger rfl ((addExact_word _ _ false).trans (BitVec.add_zero _))
  · exact decode_of_encode_eq (hword _)
  · exact exec_writesReg_of_finishInteger rfl ((subExact_word _ _ false).trans (BitVec.sub_zero _))
  · exact decode_of_encode_eq (hword _)
  · exact exec_writesReg_of_finishInteger rfl (lowWord_mulUnsigned _ _)

/-- Settles O12: the carry out of the addition is bit 32 of the sum (`addExact_carryOut`). -/
theorem adduRegister : Obligations.AdduRegister := by
  intro i o d s1 s2 s
  refine ⟨?_, ?_⟩
  · exact decode_of_encode_eq (encTri_carry_eq_append _ d s1 i o s2 rfl)
  · exact exec_writesRegCarry rfl rfl (addExact_carryOut _ _ (i && s.carry))

/-- Settles O13: the difference over the integers is written modulo 2^32, and its sign is the borrow. -/
theorem subuRegister : Obligations.SubuRegister := by
  intro i o d s1 s2 s
  dsimp only
  rw [← bitNat_cast, ← subCarryIn_eq]
  exact exec_writesRegCarry rfl rfl rfl

/-- Settles O14: where the exact result fits, the signed forms end as the unsigned ones, with the same word. -/
theorem signedSumFits : Obligations.SignedSumFits := by
  intro i o d s1 s2 imm s
  dsimp only
  rw [← sext16_toInt imm]
  refine ⟨fun h => ?_, fun h => ?_, fun h => ?_, fun h => ?_⟩
  · have hz : (addExact (s.reg s1) (sext16 imm) false).fits = true :=
      (signedFits_iff _).2 (by simpa [bitNat] using h)
    refine exec_writesReg_of_finishInteger (finishSigned_of_fits s false d hz) ?_
    exact (addExact_word_signed _ _ false).trans (by simp [bitNat])
  · have hz : (subExact subCarry (s.reg s1) (sext16 imm) false).fits = true :=
      (signedFits_iff _).2 (by simpa [bitNat] using h)
    refine exec_writesReg_of_finishInteger (finishSigned_of_fits s false d hz) ?_
    exact (subExact_word_signed _ _ false).trans (by simp [bitNat])
  · exact exec_writesRegCarry (finishSigned_of_fits s o d ((signedFits_iff _).2 h)) (addExact_word_signed _ _ _)
      (addExact_carryOut _ _ (i && s.carry))
  · have hexec : exec (.subReg i o d s1 s2) s =
        finishSigned s o d (subExact subCarry (s.reg s1) (s.reg s2) (i && s.carry)) := by
      rw [← subCarryIn_eq]; rfl
    exact exec_writesRegCarry (hexec.trans (finishSigned_of_fits s o d ((signedFits_iff _).2 h)))
      (subExact_word_signed _ _ _) rfl

/-- Settles O16: the products are exact, and with `.d` all 64 bits fit the pair. -/
theorem products : Obligations.Products := by
  intro d s1 s2 s
  refine ⟨fun h => ?_, ?_, fun hd => ?_⟩
  · exact exec_writesReg_of_finishInteger (finishSigned_of_fits s false d ((signedFits_iff _).2 h)) rfl
  · exact exec_writesReg_of_finishInteger rfl (lowWord_mulUnsigned _ _)
  · obtain ⟨t, ht, hw⟩ := exec_writesPair (exec_muluPair s1 s2 s hd) hd
    exact ⟨t, _, ht, hw, mulUnsigned_toNat _ _⟩
/-! ## Quotients (41 R159 to R162) -/

/-- The remainder of a division toward zero is smaller than the divisor. -/
theorem abs_tmod_lt (a : Int) {b : Int} (hb : b ≠ 0) : |a.tmod b| < |b| := by
  rw [Int.abs_eq_natAbs, Int.abs_eq_natAbs, Int.natAbs_tmod]
  exact Int.ofNat_lt.2 (Nat.mod_lt _ (Int.natAbs_pos.2 hb))

/-- The remainder of a division toward zero has the sign of the dividend. -/
theorem tmod_mul_self_nonneg (a b : Int) : 0 ≤ a.tmod b * a := by
  rcases le_total 0 a with ha | ha
  · exact mul_nonneg (Int.tmod_nonneg b ha) ha
  · have hneg : 0 ≤ (-a).tmod b := Int.tmod_nonneg b (by omega)
    rw [Int.neg_tmod] at hneg
    exact mul_nonneg_of_nonpos_of_nonpos (by omega) ha

/-- But for -2^31 / -1 the signed quotient is that of two words, and fits (41 R159, D11). -/
theorem divSigned_eq_sdiv {a b : Word} (h : ¬ (a = 0x80000000#32 ∧ b = 0xFFFFFFFF#32)) :
    divSigned divsRounding a b = { fits := true, word := a.sdiv b, carryOut := false } := by
  have hq : a.toInt.tdiv b.toInt = (a.sdiv b).toInt := (BitVec.toInt_sdiv_of_ne_or_ne a b (not_and_or.1 h)).symm
  have hfits : signedFits (a.sdiv b).toInt = true := by
    have hlo := (a.sdiv b).le_toInt
    have hhi := (a.sdiv b).toInt_lt
    rw [signedFits_iff]
    omega
  simp only [divSigned, divsRounding, quotient, hq, hfits, BitVec.ofInt_toInt]

/-- `divs` by a divisor that is not 0 ends with the signed quotient, in both forms. -/
theorem exec_divs {i : Instr} {d s1 s2 : Reg} {imm : Half} {b : Word} {s : State}
    (hi : i = .divsImm d s1 imm ∧ b = imm.signExtend 32 ∨ i = .divsReg d s1 s2 ∧ b = s.reg s2) (hb : b ≠ 0#32) :
    exec i s = finishSigned s false d (divSigned divsRounding (s.reg s1) b) := by
  rcases hi with ⟨rfl, rfl⟩ | ⟨rfl, rfl⟩
  · exact if_neg hb
  · exact if_neg hb

/-- `divu` by a divisor that is not 0 ends with the unsigned quotient, in the two forms that write one register. -/
theorem exec_divu {i : Instr} {d s1 s2 : Reg} {imm : Half} {b : Word} {s : State}
    (hi : i = .divuImm d s1 imm ∧ b = imm.setWidth 32 ∨ i = .divuReg false d s1 s2 ∧ b = s.reg s2)
    (hb : b ≠ 0#32) :
    exec i s = finishInteger s d (BitVec.ofNat 32 ((s.reg s1).toNat / b.toNat)) := by
  rcases hi with ⟨rfl, rfl⟩ | ⟨rfl, rfl⟩
  · exact if_neg hb
  · exact (guardPairs_ok [] s _ rfl).trans (if_neg hb)

/-- `divu.d` by a divisor that is not 0 ends with the quotient of the pair, where no pair is at `r31`. -/
theorem exec_divuPair {d s1 s2 : Reg} {s : State} (hb : s.reg s2 ≠ 0#32) (hd : d ≠ 31#5) (h1 : s1 ≠ 31#5) :
    exec (.divuReg true d s1 s2) s =
      .next (s.setPair d (BitVec.ofNat 64 ((s.pair s1).toNat / (s.reg s2).toNat))).settleFlags.retire :=
  (guardPairs_ok [s1, d] s _ (by simp [hd, h1])).trans (if_neg hb)

/-- A value divided by a number still fits its width. -/
theorem toNat_ofNat_div {n : Nat} (x : BitVec n) (m : Nat) : (BitVec.ofNat n (x.toNat / m)).toNat = x.toNat / m := by
  rw [BitVec.toNat_ofNat]
  exact Nat.mod_eq_of_lt ((Nat.div_le_self _ m).trans_lt x.isLt)

/-- The law of Euclid for the unsigned quotient of a value of any width by a word that is not 0. -/
theorem euclid_ofNat_div {n : Nat} (x : BitVec n) {b : Word} (hb : b ≠ 0#32) :
    x.toNat = (BitVec.ofNat n (x.toNat / b.toNat)).toNat * b.toNat + x.toNat % b.toNat ∧
      x.toNat % b.toNat < b.toNat := by
  have hpos : 0 < b.toNat := Nat.pos_of_ne_zero fun h0 => hb (BitVec.eq_of_toNat_eq h0)
  rw [toNat_ofNat_div]
  exact ⟨(Nat.div_add_mod' _ _).symm, Nat.mod_lt _ hpos⟩

/-- Settles O17: the quotient fits, and its remainder is that of the division toward zero. -/
theorem signedQuotient : Obligations.SignedQuotient := by
  intro i d s1 s2 imm b s hi hb hover
  have hexec : exec i s = finishInteger s d ((s.reg s1).sdiv b) := by
    rw [exec_divs hi hb, divSigned_eq_sdiv hover, finishSigned_of_fits s false d rfl]
    rfl
  obtain ⟨t, ht, hw⟩ := exec_writesReg_of_finishInteger hexec rfl
  refine ⟨t, _, (s.reg s1).toInt.tmod b.toInt, ht, hw, ?_, ?_, tmod_mul_self_nonneg _ _⟩
  · rw [BitVec.toInt_sdiv_of_ne_or_ne _ _ (not_and_or.1 hover), Int.tdiv_mul_add_tmod]
  · exact abs_tmod_lt _ fun h0 => hb (BitVec.eq_of_toInt_eq h0)

/-- Settles O18: the quotients are those over the naturals, for a word and for a pair. -/
theorem unsignedQuotient : Obligations.UnsignedQuotient := by
  intro i d s1 s2 imm b s hb
  refine ⟨fun hi => ?_, ?_⟩
  · obtain ⟨t, ht, hw⟩ := exec_writesReg_of_finishInteger (exec_divu hi hb) rfl
    exact ⟨t, _, _, ht, hw, euclid_ofNat_div _ hb⟩
  · rintro rfl rfl hd h1
    obtain ⟨t, ht, hw⟩ := exec_writesPair (exec_divuPair hb hd h1) hd
    rw [← State.pair_eq]
    exact ⟨t, _, _, ht, hw, euclid_ofNat_div _ hb⟩

/-! ## The string of `cmp` (41 R163) -/

/-- A condition is read at its own bit only. -/
theorem condition_getLsbD (k : Nat) (c : Bool) (j : Nat) (hk : k < 32) :
    (condition k c).getLsbD j = (decide (k = j) && c) := by
  by_cases hj : j < 32
  · rw [BitVec.getLsbD_eq_getElem hj]
    exact optionBit_getElem c k j hj
  · rw [BitVec.getLsbD_of_ge _ _ (by omega), decide_eq_false (by omega), Bool.false_and]

/-- The conditions of `cmp` from bit 0 on, bits 0 and 1 being 0 (41 R163). -/
def cmpConditions (a b : Word) : List Bool :=
  [false, false, a == b, a != b, b.toInt < a.toInt, a.toInt ≤ b.toInt, a.toInt < b.toInt, b.toInt ≤ a.toInt,
    b.toNat < a.toNat, a.toNat ≤ b.toNat, a.toNat < b.toNat, b.toNat ≤ a.toNat,
    someByteEqual a b, !someByteEqual a b, someHalfEqual a b, !someHalfEqual a b]

/-- Each bit of the string of `cmp`: its condition, and 0 past bit 15. -/
theorem cmpString_getLsbD (a b : Word) (j : Nat) :
    (cmpString a b).getLsbD j = (cmpConditions a b).getD j false := by
  simp only [cmpString, BitVec.getLsbD_or, condition_getLsbD, Nat.reduceLT]
  by_cases hj : j < 16
  · interval_cases j <;> simp [cmpConditions]
  · obtain ⟨n, rfl⟩ := Nat.exists_eq_add_of_le' (Nat.le_of_not_lt hj)
    simp [cmpConditions]

/-- Bytes are compared in the same position (D31). -/
theorem someByteEqual_iff (a b : Word) : someByteEqual a b = true ↔ ∃ k, k < 4 ∧ byteOf a k = byteOf b k := by
  rw [someByteEqual]
  constructor
  · intro h
    simp only [Bool.or_eq_true, beq_iff_eq] at h
    rcases h with ((h | h) | h) | h
    · exact ⟨0, by decide, h⟩
    · exact ⟨1, by decide, h⟩
    · exact ⟨2, by decide, h⟩
    · exact ⟨3, by decide, h⟩
  · rintro ⟨k, hk, h⟩
    interval_cases k <;> simp [h]

/-- Half words are compared in the same position (D31). -/
theorem someHalfEqual_iff (a b : Word) :
    someHalfEqual a b = true ↔
      a.extractLsb' 0 16 = b.extractLsb' 0 16 ∨ a.extractLsb' 16 16 = b.extractLsb' 16 16 := by
  simp [someHalfEqual, highHalf, lowHalf, or_comm]

/-- `cmp` ends with its string, in both forms. -/
theorem exec_cmp {i : Instr} {d s1 s2 : Reg} {imm : Half} {b : Word} {s : State}
    (hi : i = .cmpImm d s1 imm ∧ b = imm.signExtend 32 ∨ i = .cmpReg d s1 s2 ∧ b = s.reg s2) :
    exec i s = finishInteger s d (cmpString (s.reg s1) b) := by
  rcases hi with ⟨rfl, rfl⟩ | ⟨rfl, rfl⟩ <;> rfl

/-- Settles O15: bit `k` of the string is entry `k` of `cmpConditions`, whose entries are the relations. -/
theorem compareString : Obligations.CompareString := by
  intro i d s1 s2 imm b s hi
  obtain ⟨t, ht, hw⟩ := exec_writesReg_of_finishInteger (exec_cmp hi) rfl
  have hbyte := someByteEqual_iff (s.reg s1) b
  have hhalf := someHalfEqual_iff (s.reg s1) b
  refine ⟨t, _, ht, hw, ?_⟩
  simp only [cmpString_getLsbD]
  refine ⟨beq_iff_eq, bne_iff_ne, decide_eq_true_iff, decide_eq_true_iff, decide_eq_true_iff, decide_eq_true_iff,
    decide_eq_true_iff, decide_eq_true_iff, decide_eq_true_iff, decide_eq_true_iff, hbyte, ?_, hhalf, ?_, ?_⟩
  · change (!someByteEqual (s.reg s1) b) = true ↔ _
    rw [Bool.not_eq_true', ← Bool.not_eq_true, hbyte]
    exact ⟨fun h k hk e => h ⟨k, hk, e⟩, fun h ⟨k, hk, e⟩ => h k hk e⟩
  · change (!someHalfEqual (s.reg s1) b) = true ↔ _
    rw [Bool.not_eq_true', ← Bool.not_eq_true, hhalf, not_or]
  · rintro k (hk | hk)
    · interval_cases k <;> rfl
    · exact List.getD_eq_default _ _ hk

/-! ## Overflow and division by zero (41 R143, R144) -/

/-- With exceptions enabled an overflow is raised (D15). -/
theorem overflow_raised (s w : State) (h : s.ei = false) :
    overflow s w = .next { s with run := .exception .integerOverflow s.pc } := by
  rw [overflow, h]
  rfl

/-- With exceptions enabled a division by zero is raised (D15). -/
theorem divideByZero_raised (s : State) (h : s.ei = false) :
    divideByZero s = .next { s with run := .exception .integerDivideByZero s.pc } := by
  rw [divideByZero, h]
  rfl

/-- In serial mode a recorded condition sets its own bit and nothing else (60 R297). -/
theorem recordFlag_retire_only (s : State) {k : Nat} (hm : s.cfg.mode = .serial) (hk : k = 12 ∨ k = 13) :
    OnlyRecords s (s.recordFlag k).retire k := by
  obtain ⟨hregs, -, hmem, hadv⟩ := recordFlag_retire_allBut s k hk
  have hfree : (s.recordFlag k).freeCount = s.freeCount := by rw [State.recordFlag_serial s k hm]; rfl
  exact ⟨hregs, ⟨hfree, fun j => State.recordFlag_serial_getLsbD s k j hm (by omega)⟩, hmem, hadv⟩

/-- Settles O19: every form that detects overflow ends in `overflow`, which records or raises it. -/
theorem overflowDetected : Obligations.OverflowDetected := by
  intro i s z hz hout
  obtain ⟨w, hi⟩ := exec_overflow hz hout
  refine ⟨fun he hm => ?_, fun he => ?_⟩
  · exact ⟨_, hi.trans (overflow_inhibited s w he), recordFlag_retire_only s hm (.inl rfl)⟩
  · exact ⟨_, hi.trans (overflow_raised s w he), rfl⟩

/-- Settles O20: every division by 0 ends in `divideByZero`, which records or raises it. -/
theorem divideByZeroDetected : Obligations.DivideByZeroDetected := by
  intro i s hd hw
  have hi := exec_divideByZero hd hw
  refine ⟨fun he hm => ?_, fun he => ?_⟩
  · exact ⟨_, hi.trans (divideByZero_inhibited s he), recordFlag_retire_only s hm (.inr rfl)⟩
  · exact ⟨_, hi.trans (divideByZero_raised s he), rfl⟩

end Sys2Proof.Machine

/-! # Bit fields (spec 42): the words of `rot`, each operation bit by bit, the shifts and rotations -/

namespace Sys2Proof

/-! ## The words of `rot`, field after field -/

/-- Format `BIT` is its fields side by side (30 R87). -/
theorem encBit_eq_append (d s1 : Reg) (sub : BitVec 6) (w5 o5 : BitVec 5) :
    encBit d s1 sub w5 o5 = 0b111100#6 ++ d ++ s1 ++ sub ++ w5 ++ o5 := by
  refine .trans ?_ (place_word _)
  simp only [place_append]
  rfl

/-- Format `TRI` without options is its fields side by side (30 R86). -/
theorem encTri_eq_append (major : BitVec 6) (d s1 : Reg) (sub : BitVec 11) (s2 : Reg) :
    encTri major d s1 sub s2 = major ++ d ++ s1 ++ sub ++ s2 := by
  refine .trans ?_ (place_word _)
  simp only [place_append]
  rfl

/-- The major opcode and the sub-opcode of format `BIT` (30 R87). -/
theorem encBit_opcodes (d s1 : Reg) (sub : BitVec 6) (w5 o5 : BitVec 5) :
    (encBit d s1 sub w5 o5).extractLsb' 26 6 = 0b111100#6 ∧ (encBit d s1 sub w5 o5).extractLsb' 10 6 = sub := by
  simp [encBit, BitVec.extractLsb'_or, extractLsb'_place_same, extractLsb'_place_disjoint]

/-- A word of `rot` with a width that is not 0 is no instruction (42 R181). -/
theorem decode_rotBit_width (d s1 : Reg) {x : BitVec 5} (o : BitVec 5) (hx : x ≠ 0#5) :
    decode (encBit d s1 0b101010#6 x o) = none := by
  obtain ⟨hmajor, hsub⟩ := encBit_opcodes d s1 0b101010#6 x o
  obtain ⟨-, -, hw5, -⟩ := encBit_fields d s1 0b101010#6 x o
  obtain ⟨-, -, -, hrot⟩ := notInstructions (encBit d s1 0b101010#6 x o)
  exact hrot hmajor hsub fun h0 => hx (hw5.symm.trans h0)

end Sys2Proof

namespace Sys2Proof.Machine

/-! ## The field (42 R170) -/

theorem fieldWidth_pos (w : BitVec 5) : 0 < fieldWidth w := by
  unfold fieldWidth
  split <;> bv_omega

/-- The bits of a field up to bit 31 are those from its offset to its top (D21). -/
theorem le_fieldTop_iff (w o : BitVec 5) (k : Nat) :
    k ≤ fieldTop w o ↔ k < o.toNat + fieldWidth w ∧ k < 32 := by
  have hpos := fieldWidth_pos w
  unfold fieldTop
  omega

/-- Cut at bit 31, a field still has the bit of its offset (D21). -/
theorem offset_le_fieldTop (w o : BitVec 5) : o.toNat ≤ fieldTop w o :=
  (le_fieldTop_iff w o _).2 ⟨Nat.lt_add_of_pos_right (fieldWidth_pos w), o.isLt⟩

/-- Bit `k` of `2^W - 1`. -/
theorem fieldOnes_getLsbD (w : BitVec 5) {k : Nat} (hk : k < 32) :
    (fieldOnes w).getLsbD k = decide (k < fieldWidth w) := by
  simp [fieldOnes, BitVec.getLsbD_ofNat, Nat.testBit_two_pow_sub_one, hk, -BitVec.getLsbD_eq_getElem]

/-- The mask has the bits of the field. -/
theorem fieldMask_getLsbD (w o : BitVec 5) {k : Nat} (hk : k < 32) :
    (fieldMask w o).getLsbD k = true ↔ InField w o k := by
  have hfield : InField w o k ↔ o.toNat ≤ k ∧ k < o.toNat + fieldWidth w := Iff.rfl
  rw [fieldMask, BitVec.getLsbD_shiftLeft, fieldOnes_getLsbD w (by omega), hfield]
  simp only [hk, decide_true, Bool.true_and, Bool.and_eq_true, Bool.not_eq_true', decide_eq_false_iff_not,
    decide_eq_true_eq]
  omega

/-! ## The operations bit by bit -/

/-- `clr`: 0 in the field and the source elsewhere (42 R171). -/
theorem clrField_getLsbD (a : Word) (w o : BitVec 5) {k : Nat} (hk : k < 32) :
    (InField w o k → (clrField a w o).getLsbD k = false) ∧
      (¬ InField w o k → (clrField a w o).getLsbD k = a.getLsbD k) := by
  rw [← fieldMask_getLsbD w o hk, clrField, BitVec.getLsbD_and, BitVec.getLsbD_not, decide_eq_true hk]
  cases (fieldMask w o).getLsbD k <;> simp

/-- `set`: 1 in the field and the source elsewhere (42 R173). -/
theorem setField_getLsbD (a : Word) (w o : BitVec 5) {k : Nat} (hk : k < 32) :
    (InField w o k → (setField a w o).getLsbD k = true) ∧
      (¬ InField w o k → (setField a w o).getLsbD k = a.getLsbD k) := by
  rw [← fieldMask_getLsbD w o hk, setField, BitVec.getLsbD_or]
  cases (fieldMask w o).getLsbD k <;> simp

/-- `ext`: the field moved down to bit 0, its top bit above it (42 R175). -/
theorem extField_getLsbD (a : Word) (w o : BitVec 5) {k : Nat} (hk : k < 32) :
    (extField a w o).getLsbD k = a.getLsbD (if o.toNat + k ≤ fieldTop w o then o.toNat + k else fieldTop w o) := by
  have htop := offset_le_fieldTop w o
  rw [extField, BitVec.getLsbD_signExtend, decide_eq_true hk, Bool.true_and]
  by_cases h : o.toNat + k ≤ fieldTop w o
  · rw [if_pos (by omega), if_pos h, BitVec.getLsbD_extractLsb', decide_eq_true (by omega), Bool.true_and]
  · rw [if_neg (by omega), if_neg h, BitVec.msb_eq_getLsbD_last, BitVec.getLsbD_extractLsb',
      decide_eq_true (by omega), Bool.true_and, Nat.add_sub_cancel, Nat.add_sub_cancel' htop]

/-- `extu`: the field moved down to bit 0, zeros above it (42 R177). -/
theorem extuField_getLsbD (a : Word) (w o : BitVec 5) {k : Nat} (hk : k < 32) :
    (extuField a w o).getLsbD k = (decide (o.toNat + k ≤ fieldTop w o) && a.getLsbD (o.toNat + k)) := by
  rw [extuField, BitVec.getLsbD_and, BitVec.getLsbD_ushiftRight, fieldOnes_getLsbD w hk]
  simp only [le_fieldTop_iff, Nat.add_lt_add_iff_left]
  by_cases h : o.toNat + k < 32
  · simp only [h, and_true, Bool.and_comm]
  · rw [BitVec.getLsbD_of_ge a _ (by omega), Bool.false_and, Bool.and_false]

/-- `mak`: the low bits of the source moved up to the field, zeros elsewhere (42 R179). -/
theorem makField_getLsbD (a : Word) (w o : BitVec 5) {k : Nat} (hk : k < 32) :
    (InField w o k → (makField a w o).getLsbD k = a.getLsbD (k - o.toNat)) ∧
      (¬ InField w o k → (makField a w o).getLsbD k = false) := by
  have hbit : (makField a w o).getLsbD k = (a.getLsbD (k - o.toNat) && (fieldMask w o).getLsbD k) := by
    rw [makField, fieldMask, BitVec.shiftLeft_and_distrib, BitVec.getLsbD_and, BitVec.getLsbD_shiftLeft]
    by_cases h : k < o.toNat <;> simp [h, hk, -BitVec.getLsbD_eq_getElem]
  rw [← fieldMask_getLsbD w o hk, hbit]
  cases (fieldMask w o).getLsbD k <;> simp

/-! ## What they write -/

/-- An instruction in its bit form or its register form, whose width and offset are bits 9:5 and 4:0 of `rS2` (42
R170), writes back its operation on `rS1` and the field, and nothing else. -/
theorem exec_bitField {f : Word → BitVec 5 → BitVec 5 → Word} {i bit reg : Instr} {d s1 s2 : Reg} {w o : BitVec 5}
    {s : State} (hbit : exec bit s = writeBack s d (f (s.reg s1) w o))
    (hreg : exec reg s = writeBack s d (f (s.reg s1) (widthOf (s.reg s2)) (offsetOf (s.reg s2))))
    (hi : i = bit ∨ i = reg ∧ w = (s.reg s2).extractLsb' 5 5 ∧ o = (s.reg s2).extractLsb' 0 5) :
    ∃ t, exec i s = .next t ∧ WritesReg s t d (f (s.reg s1) w o) := by
  rcases hi with rfl | ⟨rfl, rfl, rfl⟩
  · exact exec_writesReg hbit rfl
  · exact exec_writesReg hreg rfl

/-- Settles O22: `clr` and `set` take the bits of the mask, which are those of the field, and keep the others. -/
theorem clearAndSetField : Obligations.ClearAndSetField := by
  intro i one d s1 s2 w o s hi
  cases one with
  | false =>
    obtain ⟨t, ht, hw⟩ := exec_bitField (f := clrField) rfl rfl hi
    exact ⟨t, _, ht, hw, fun k => clrField_getLsbD _ w o⟩
  | true =>
    obtain ⟨t, ht, hw⟩ := exec_bitField (f := setField) rfl rfl hi
    exact ⟨t, _, ht, hw, fun k => setField_getLsbD _ w o⟩

/-- Settles O23: below the top both read the source from the offset on; above it `ext` repeats the top bit and `extu`
has 0. -/
theorem extractField : Obligations.ExtractField := by
  intro i signed d s1 s2 w o s hi top
  have htop : top = fieldTop w o := rfl
  rw [htop]
  cases signed with
  | false =>
    obtain ⟨t, ht, hw⟩ := exec_bitField (f := extuField) rfl rfl hi
    refine ⟨t, _, ht, hw, fun k hk => ?_⟩
    rw [extuField_getLsbD _ w o hk]
    exact ⟨fun h => by simp [h], fun h => by simp [Nat.not_le.2 h]⟩
  | true =>
    obtain ⟨t, ht, hw⟩ := exec_bitField (f := extField) rfl rfl hi
    refine ⟨t, _, ht, hw, fun k hk => ?_⟩
    rw [extField_getLsbD _ w o hk, Bool.true_and]
    exact ⟨fun h => by rw [if_pos h], fun h => by rw [if_neg (Nat.not_le.2 h)]⟩

/-- Settles O24: `mak` moves the source up and keeps of it the bits of the field. -/
theorem makeField : Obligations.MakeField := by
  intro i d s1 s2 w o s hi
  obtain ⟨t, ht, hw⟩ := exec_bitField (f := makField) rfl rfl hi
  exact ⟨t, _, ht, hw, fun k => makField_getLsbD _ w o⟩

/-! ## Rotations (42 R181, R182) -/

/-- The rotation by two shifts, as the rule writes it, where a rotation by 0 leaves the source. -/
theorem rotField_eq_shifts (a : Word) (n : BitVec 5) :
    rotField a n = if n = 0#5 then a else (a >>> n.toNat) ||| (a <<< (32 - n.toNat)) := by
  rw [rotField, BitVec.rotateRight_def, Nat.mod_eq_of_lt n.isLt]
  split
  · next h => simp [h]
  · rfl

/-- Bit `k` of the source goes to bit `(k - O5) mod 32`. -/
theorem rotField_getLsbD (a : Word) (n : BitVec 5) {k : Nat} (hk : k < 32) :
    (rotField a n).getLsbD ((k + 32 - n.toNat) % 32) = a.getLsbD k := by
  have hn := n.isLt
  rw [rotField, BitVec.getLsbD_rotateRight, Nat.mod_eq_of_lt hn]
  by_cases h : n.toNat ≤ k
  · have hgoes : (k + 32 - n.toNat) % 32 = k - n.toNat := by omega
    rw [hgoes, decide_eq_true (by omega), cond_true, Nat.add_sub_cancel' h]
  · have hgoes : (k + 32 - n.toNat) % 32 = 32 - n.toNat + k := by omega
    rw [hgoes, decide_eq_false (by omega), cond_false, decide_eq_true (by omega), Bool.true_and,
      Nat.add_sub_cancel_left]

/-- Settles O25: the words are formats `BIT` and `TRI` side by side, and both forms write back `rotField`. -/
theorem rotation : Obligations.Rotation := by
  intro d s1 s2 o x s rotated
  have hrotated : ∀ a n, rotated a n (rotField a n) :=
    fun a n => ⟨rotField_eq_shifts a n, fun k => rotField_getLsbD a n⟩
  refine ⟨?_, fun hx => ?_, ?_, ?_, ?_⟩
  · exact decode_of_encode_eq (encBit_eq_append d s1 _ _ o)
  · rw [← encBit_eq_append]
    exact decode_rotBit_width d s1 o hx
  · exact decode_of_encode_eq (encTri_eq_append _ d s1 _ s2)
  · obtain ⟨t, ht, hw⟩ := exec_writesReg (i := .rotBit d s1 o) (s := s) rfl rfl
    exact ⟨t, _, ht, hw, hrotated _ o⟩
  · obtain ⟨t, ht, hw⟩ := exec_writesReg (i := .rotReg d s1 s2) (s := s) rfl rfl
    exact ⟨t, _, ht, hw, hrotated _ _⟩

/-! ## The shifts (42 R184) -/

/-- The mask of width 0, which stands for 32, keeps every bit. -/
theorem and_fieldOnes_zero (a : Word) : a &&& fieldOnes 0#5 = a := by
  have hones : fieldOnes 0#5 = BitVec.allOnes 32 := by decide
  rw [hones, BitVec.and_allOnes]

/-- `extu` of width 0 is the logical right shift. -/
theorem extuField_zero (a : Word) (n : BitVec 5) : extuField a 0#5 n = a >>> n.toNat :=
  and_fieldOnes_zero _

/-- `mak` of width 0 is the left shift. -/
theorem makField_zero (a : Word) (n : BitVec 5) : makField a 0#5 n = a <<< n.toNat := by
  rw [makField, and_fieldOnes_zero]

/-- A field of width 0 reaches up to bit 31. -/
theorem fieldTop_zero (n : BitVec 5) : fieldTop 0#5 n = 31 :=
  Nat.min_eq_right (Nat.le_sub_of_add_le (Nat.le_add_left 32 n.toNat))

/-- `ext` of width 0 is the arithmetic right shift. -/
theorem extField_zero (a : Word) (n : BitVec 5) : extField a 0#5 n = a.sshiftRight n.toNat := by
  apply BitVec.eq_of_getLsbD_eq
  intro k hk
  rw [extField_getLsbD a _ n hk, fieldTop_zero, BitVec.getLsbD_sshiftRight, decide_eq_false (by omega), Bool.not_false,
    Bool.true_and]
  by_cases h : n.toNat + k < 32
  · rw [if_pos (by omega), if_pos h]
  · rw [if_neg (by omega), if_neg h, BitVec.msb_eq_getLsbD_last]

/-- The rotation to the right by `32 - n` is the rotation to the left by `n`. -/
theorem rotField_complement (a : Word) (n : BitVec 5) (hn : n ≠ 0#5) :
    rotField a (BitVec.ofNat 5 (32 - n.toNat)) = a.rotateLeft n.toNat := by
  have hlt := n.isLt
  have hpos : n.toNat ≠ 0 := fun h => hn (BitVec.eq_of_toNat_eq h)
  have hcompl : (BitVec.ofNat 5 (32 - n.toNat)).toNat = 32 - n.toNat := by
    rw [BitVec.toNat_ofNat]
    omega
  rw [rotField, hcompl, BitVec.rotateRight_def, BitVec.rotateLeft_def, Nat.mod_eq_of_lt hlt,
    Nat.mod_eq_of_lt (by omega), Nat.sub_sub_self (by omega), BitVec.or_comm]

/-- Settles O26: each operation, at width 0 or as a rotation, is the shift. -/
theorem shifts : Obligations.Shifts := by
  intro d s1 n s
  refine ⟨?_, ?_, ?_, ?_, fun hn => ?_⟩
  · exact exec_writesReg rfl (extuField_zero _ n)
  · exact exec_writesReg rfl (extField_zero _ n)
  · exact exec_writesReg rfl (makField_zero _ n)
  · exact exec_writesReg rfl rfl
  · exact exec_writesReg rfl (rotField_complement _ n hn)

end Sys2Proof.Machine

/-! # Floating point (spec 43): the numbers of a format, rounding onto the grid of a result's exponent, the
conditions, `fcmp` -/

namespace Sys2Proof.Machine

/-! ## Powers of two and the exponent of a rational -/

theorem dyadic_eq (m : Nat) (k : Int) : dyadic m k = m * (2 : ℚ) ^ k := by
  cases k with
  | ofNat n => simp [dyadic]
  | negSucc n => simp [dyadic, Rat.mkRat_eq_div, zpow_negSucc, div_eq_mul_inv]

/-- The comparison `ilog2` makes, with a power of two on either side so that both are whole. -/
theorem two_zpow_le_div_iff (e : Int) (n : Nat) {d : Nat} (hd : d ≠ 0) :
    (2 : ℚ) ^ e ≤ n / d ↔ d * 2 ^ e.toNat ≤ n * 2 ^ (-e).toNat := by
  have hd' : (0 : ℚ) < d := by positivity
  rw [le_div_iff₀ hd']
  obtain ⟨k, rfl | rfl⟩ := e.eq_nat_or_neg
  · simp only [zpow_natCast, Int.toNat_natCast, Int.toNat_neg_natCast, pow_zero, mul_one]
    rw [mul_comm]
    exact_mod_cast Iff.rfl
  · simp only [zpow_neg, zpow_natCast, Int.toNat_natCast, Int.toNat_neg_natCast, pow_zero, mul_one, neg_neg]
    rw [inv_mul_le_iff₀ (by positivity), mul_comm]
    exact_mod_cast Iff.rfl

/-- A natural number is below twice the power of two of its length. -/
theorem natCast_lt_two_zpow_log2 (n : Nat) : (n : ℚ) < 2 ^ ((Nat.log2 n : Int) + 1) := by
  exact_mod_cast Nat.lt_log2_self (n := n)

/-- A natural number that is not 0 is at least the power of two of its length. -/
theorem two_zpow_log2_le_natCast {n : Nat} (hn : n ≠ 0) : (2 : ℚ) ^ (Nat.log2 n : Int) ≤ n := by
  exact_mod_cast Nat.log2_self_le hn

theorem two_zpow_le_iff_le_log {y : ℚ} (hy : 0 < y) (e : Int) : (2 : ℚ) ^ e ≤ y ↔ e ≤ Int.log 2 y := by
  simpa using Int.zpow_le_iff_le_log (x := e) one_lt_two hy

theorem lt_two_zpow_iff_log_lt {y : ℚ} (hy : 0 < y) (e : Int) : y < (2 : ℚ) ^ e ↔ Int.log 2 y < e := by
  simpa using Int.lt_zpow_iff_log_lt (x := e) one_lt_two hy

/-- `ilog2` is the binary logarithm, rounded down: the lengths give it up to 1, and the comparison decides. -/
theorem ilog2_eq_log {n d : Nat} (hn : n ≠ 0) (hd : d ≠ 0) : ilog2 n d = Int.log 2 (n / d : ℚ) := by
  have hn' : (0 : ℚ) < n := by positivity
  have hd' : (0 : ℚ) < d := by positivity
  have hpos : (0 : ℚ) < n / d := by positivity
  have hlow : (2 : ℚ) ^ ((Nat.log2 n : Int) - Nat.log2 d - 1) ≤ n / d := by
    rw [sub_sub, zpow_sub₀ two_ne_zero]
    exact div_le_div₀ hn'.le (two_zpow_log2_le_natCast hn) hd' (natCast_lt_two_zpow_log2 d).le
  have hhigh : (n / d : ℚ) < 2 ^ ((Nat.log2 n : Int) - Nat.log2 d + 1) := by
    rw [sub_add_eq_add_sub, zpow_sub₀ two_ne_zero]
    exact div_lt_div₀ (natCast_lt_two_zpow_log2 n) (two_zpow_log2_le_natCast hd) (by positivity) (by positivity)
  rw [two_zpow_le_iff_le_log hpos] at hlow
  rw [lt_two_zpow_iff_log_lt hpos] at hhigh
  unfold ilog2
  dsimp only
  split
  · next h =>
    rw [← two_zpow_le_div_iff _ n hd, two_zpow_le_iff_le_log hpos] at h
    omega
  · next h =>
    rw [← two_zpow_le_div_iff _ n hd, two_zpow_le_iff_le_log hpos] at h
    omega

/-- The magnitude of a rational from its numerator and denominator. -/
theorem natAbs_num_div_den (x : ℚ) : (x.num.natAbs / x.den : ℚ) = |x| := by
  rw [Nat.cast_natAbs, Int.cast_abs]
  conv_rhs => rw [← Rat.num_div_den x, abs_div, Nat.abs_cast]

theorem exponentOf_eq_log {x : ℚ} (hx : x ≠ 0) : exponentOf x = Int.log 2 |x| := by
  rw [exponentOf, ilog2_eq_log (by simpa using hx) x.den_nz, natAbs_num_div_den]

theorem two_zpow_le_abs_iff {x : ℚ} (hx : x ≠ 0) (e : Int) : (2 : ℚ) ^ e ≤ |x| ↔ e ≤ exponentOf x := by
  rw [exponentOf_eq_log hx, two_zpow_le_iff_le_log (abs_pos.2 hx)]

theorem abs_lt_two_zpow_iff {x : ℚ} (hx : x ≠ 0) (e : Int) : |x| < (2 : ℚ) ^ e ↔ exponentOf x < e := by
  rw [← not_le, two_zpow_le_abs_iff hx, not_le]

/-! ## Rounding to an integer (43 R192, R202) -/

/-- The magnitude is the quotient and the part the rounding sees. -/
theorem abs_eq_quotient_add (x : ℚ) :
    |x| = (x.num.natAbs / x.den : Nat) + (x.num.natAbs % x.den : Nat) / (x.den : ℚ) := by
  have hden : (x.den : ℚ) ≠ 0 := by exact_mod_cast x.den_nz
  have hdiv : (x.num.natAbs : ℚ) = (x.den : ℚ) * (x.num.natAbs / x.den : Nat) + (x.num.natAbs % x.den : Nat) := by
    exact_mod_cast (Nat.div_add_mod x.num.natAbs x.den).symm
  rw [← natAbs_num_div_den]
  field_simp
  linarith

/-- `m` is the magnitude `y` of a number of sign `neg`, rounded to an integer in mode `rm`. -/
def RoundsMagnitude (rm : BitVec 2) (neg : Bool) (y : ℚ) (m : Nat) : Prop :=
  (rm = 0b00#2 → |y - m| ≤ 1 / 2 ∧ (|y - m| = 1 / 2 → m % 2 = 0)) ∧
    (rm = 0b01#2 → m ≤ y ∧ y < m + 1) ∧
    (rm = 0b10#2 → if neg then (m : ℚ) - 1 < y ∧ y ≤ m else m ≤ y ∧ y < m + 1) ∧
    (rm = 0b11#2 → if neg then m ≤ y ∧ y < m + 1 else (m : ℚ) - 1 < y ∧ y ≤ m)

/-- Rounding toward zero leaves the quotient. -/
theorem rounds_down {q r d : Nat} (hr : r < d) : (q : ℚ) ≤ q + (r : ℚ) / d ∧ (q : ℚ) + (r : ℚ) / d < q + 1 := by
  have hd : (0 : ℚ) < d := by exact_mod_cast Nat.zero_lt_of_lt hr
  have hlt : (r : ℚ) / d < 1 := (div_lt_one hd).2 (by exact_mod_cast hr)
  exact ⟨le_add_of_nonneg_right (by positivity), add_lt_add_right hlt _⟩

/-- Rounding away from the quotient exactly where there is a rest, which two of the modes do for one of the signs. -/
theorem rounds_away {q r d : Nat} (hr : r < d) :
    (((if (r != 0) = true then q + 1 else q : Nat) : ℚ) - 1 < q + (r : ℚ) / d) ∧
      (q : ℚ) + (r : ℚ) / d ≤ (if (r != 0) = true then q + 1 else q : Nat) := by
  have hd : (0 : ℚ) < d := by exact_mod_cast Nat.zero_lt_of_lt hr
  by_cases h : r = 0
  · simp [h]
  · have hr0 : (0 : ℚ) < r := by positivity
    have hlt : (r : ℚ) / d < 1 := (div_lt_one hd).2 (by exact_mod_cast hr)
    have hpos : 0 < (r : ℚ) / d := by positivity
    simp only [bne_iff_ne, ne_eq, h, not_false_eq_true, if_true]
    push_cast
    constructor <;> linarith

/-- Rounding to the nearest integer, a tie to the even one. -/
theorem rounds_nearest {q r d : Nat} (hr : r < d) {m : Nat}
    (hm : m = if (decide (d < 2 * r) || (decide (2 * r = d) && q % 2 == 1)) = true then q + 1 else q) :
    |(q : ℚ) + (r : ℚ) / d - m| ≤ 1 / 2 ∧ (|(q : ℚ) + (r : ℚ) / d - m| = 1 / 2 → m % 2 = 0) := by
  have hd : (0 : ℚ) < d := by exact_mod_cast Nat.zero_lt_of_lt hr
  have hlt : (r : ℚ) / d < 1 := (div_lt_one hd).2 (by exact_mod_cast hr)
  have hpos : 0 ≤ (r : ℚ) / d := by positivity
  have hhalf : (r : ℚ) / d ≤ 1 / 2 ↔ 2 * r ≤ d := by
    rw [div_le_div_iff₀ hd two_pos, one_mul, mul_comm]
    exact_mod_cast Iff.rfl
  have htie : (r : ℚ) / d = 1 / 2 ↔ 2 * r = d := by
    rw [div_eq_div_iff hd.ne' two_ne_zero, one_mul, mul_comm]
    exact_mod_cast Iff.rfl
  simp only [Bool.or_eq_true, Bool.and_eq_true, decide_eq_true_eq, beq_iff_eq] at hm
  split at hm
  · next h =>
    subst hm
    have hge : 1 / 2 ≤ (r : ℚ) / d := by
      rcases h with h | ⟨h, -⟩
      · exact (lt_of_not_ge (mt hhalf.1 (not_le.2 h))).le
      · exact (htie.2 h).ge
    have habs : |(q : ℚ) + (r : ℚ) / d - (q + 1 : Nat)| = 1 - (r : ℚ) / d := by
      push_cast
      rw [abs_of_nonpos (by linarith)]
      ring
    rw [habs]
    refine ⟨by linarith, fun ht => ?_⟩
    have := htie.1 (by linarith)
    omega
  · next h =>
    subst hm
    rw [add_sub_cancel_left, abs_of_nonneg hpos]
    refine ⟨hhalf.2 (by omega), fun ht => ?_⟩
    have := htie.1 ht
    omega

theorem roundMagnitude_rounds (rm : BitVec 2) (neg : Bool) (x : ℚ) :
    RoundsMagnitude rm neg |x| (roundMagnitude rm neg x) := by
  have hr : x.num.natAbs % x.den < x.den := Nat.mod_lt _ x.den_pos
  rw [abs_eq_quotient_add]
  refine ⟨?_, ?_, ?_, ?_⟩
  · rintro rfl
    exact rounds_nearest hr rfl
  · rintro rfl
    exact rounds_down hr
  · rintro rfl
    cases neg with
    | true => exact rounds_away hr
    | false => exact rounds_down hr
  · rintro rfl
    cases neg with
    | true => exact rounds_down hr
    | false => exact rounds_away hr

/-- A magnitude rounded in one of the four modes is less than 1 away. -/
theorem RoundsMagnitude.abs_sub_lt {rm : BitVec 2} {neg : Bool} {y : ℚ} {m : Nat} (h : RoundsMagnitude rm neg y m) :
    |y - m| < 1 := by
  obtain ⟨hnearest, hzero, hminus, hplus⟩ := h
  rw [abs_lt]
  match rm with
  | 0b00#2 => have h := abs_le.1 (hnearest rfl).1; constructor <;> linarith
  | 0b01#2 => have h := hzero rfl; constructor <;> linarith
  | 0b10#2 => have h := hminus rfl; split at h <;> constructor <;> linarith
  | 0b11#2 => have h := hplus rfl; split at h <;> constructor <;> linarith

/-- A rounded magnitude with the sign put on is the rounded number. -/
theorem RoundsMagnitude.roundsToInt {rm : BitVec 2} {x : ℚ} {m : Nat} (h : RoundsMagnitude rm (x < 0) |x| m) :
    RoundsToInt rm x (if x < 0 then -(m : Int) else m) := by
  obtain ⟨hnearest, hzero, hminus, hplus⟩ := h
  by_cases hx : x < 0
  · simp only [hx, decide_true, if_true, abs_of_neg hx] at hnearest hzero hminus hplus
    simp only [RoundsToInt, hx, if_true, Int.cast_neg, Int.cast_natCast, abs_neg, Nat.abs_cast, abs_of_neg hx]
    have hflip : |x - -(m : ℚ)| = |-x - m| := by rw [← abs_neg]; ring_nf
    rw [hflip]
    refine ⟨fun hrm => ?_, fun hrm => ?_, fun hrm => ?_, fun hrm => ?_⟩
    · obtain ⟨hle, heven⟩ := hnearest hrm
      exact ⟨hle, fun ht => by have := heven ht; omega⟩
    · obtain ⟨hle, hlt⟩ := hzero hrm
      exact ⟨hle, hlt, mul_nonneg_of_nonpos_of_nonpos (neg_nonpos.2 m.cast_nonneg) hx.le⟩
    · obtain ⟨hlt, hle⟩ := hminus hrm
      constructor <;> linarith
    · obtain ⟨hle, hlt⟩ := hplus hrm
      constructor <;> linarith
  · have hx0 := not_lt.1 hx
    simp only [hx, decide_false, if_false, abs_of_nonneg hx0, Bool.false_eq_true] at hnearest hzero hminus hplus
    simp only [RoundsToInt, hx, if_false, Int.cast_natCast, Nat.abs_cast, abs_of_nonneg hx0]
    refine ⟨fun hrm => ?_, fun hrm => ?_, hminus, hplus⟩
    · obtain ⟨hle, heven⟩ := hnearest hrm
      exact ⟨hle, fun ht => by have := heven ht; omega⟩
    · obtain ⟨hle, hlt⟩ := hzero hrm
      exact ⟨hle, hlt, mul_nonneg m.cast_nonneg hx0⟩

theorem roundToInt_eq (rm : BitVec 2) (x : ℚ) :
    roundToInt rm x = if x < 0 then -(roundMagnitude rm (x < 0) x : Int) else roundMagnitude rm (x < 0) x := by
  unfold roundToInt
  split <;> simp [*]

theorem roundToInt_rounds (rm : BitVec 2) (x : ℚ) : RoundsToInt rm x (roundToInt rm x) := by
  rw [roundToInt_eq]
  exact (roundMagnitude_rounds rm _ x).roundsToInt

/-- Different integers are at least 1 apart. -/
theorem one_le_abs_cast_sub {n k : Int} (h : n ≠ k) : (1 : ℚ) ≤ |(n : ℚ) - k| := by
  exact_mod_cast Int.one_le_abs (sub_ne_zero.2 h)

/-- Each mode rounds to one integer. -/
theorem RoundsToInt.unique {rm : BitVec 2} {x : ℚ} {n k : Int} (hn : RoundsToInt rm x n) (hk : RoundsToInt rm x k) :
    n = k := by
  obtain ⟨hnearest, hzero, hminus, hplus⟩ := hn
  obtain ⟨hnearest', hzero', hminus', hplus'⟩ := hk
  match rm with
  | 0b00#2 =>
    obtain ⟨hle, heven⟩ := hnearest rfl
    obtain ⟨hle', heven'⟩ := hnearest' rfl
    by_contra hne
    have hapart := one_le_abs_cast_sub hne
    have htri : |(n : ℚ) - k| ≤ |x - k| + |x - n| := by
      simpa using abs_sub (x - k) (x - n)
    have hn2 := heven (by linarith)
    have hk2 := heven' (by linarith)
    have hclose : |(n : ℚ) - k| ≤ 1 := by linarith
    have hclose' : |n - k| ≤ 1 := by exact_mod_cast hclose
    have := abs_le.1 hclose'
    omega
  | 0b01#2 =>
    obtain ⟨hle, hlt, hsign⟩ := hzero rfl
    obtain ⟨hle', hlt', hsign'⟩ := hzero' rfl
    have h1 : |n| < |k| + 1 := by exact_mod_cast hle.trans_lt hlt'
    have h2 : |k| < |n| + 1 := by exact_mod_cast hle'.trans_lt hlt
    rcases abs_eq_abs.1 (le_antisymm (Int.lt_add_one_iff.1 h1) (Int.lt_add_one_iff.1 h2)) with h | rfl
    · exact h
    · rw [Int.cast_neg, neg_mul] at hsign
      rcases mul_eq_zero.1 (le_antisymm (neg_nonneg.1 hsign) hsign') with h0 | rfl
      · rw [Int.cast_eq_zero.1 h0, neg_zero]
      · rw [abs_zero] at hle'
        rw [Int.cast_eq_zero.1 (abs_nonpos_iff.1 hle'), neg_zero]
  | 0b10#2 => exact (Int.floor_eq_iff.2 (hminus rfl)).symm.trans (Int.floor_eq_iff.2 (hminus' rfl))
  | 0b11#2 => exact (Int.ceil_eq_iff.2 (hplus rfl)).symm.trans (Int.ceil_eq_iff.2 (hplus' rfl))

/-! ## Rounding among numbers that have an integer between them and what is rounded -/

/-- An integer lies between `z` and `y`, or is one of them. -/
def IntBetween (z y : ℚ) : Prop := ∃ k : Int, z ≤ k ∧ k ≤ y ∨ y ≤ k ∧ k ≤ z

/-- Between a number and one of at least magnitude `b` there is an integer, if the first is one or is below `b`. -/
theorem intBetween_of {z y : ℚ} {b : Nat} (hz : (∃ k : Int, z = k) ∨ |z| < b) (hy : b ≤ |y|) : IntBetween z y := by
  rcases hz with ⟨k, rfl⟩ | hz
  · rcases le_total (k : ℚ) y with h | h
    · exact ⟨k, .inl ⟨le_rfl, h⟩⟩
    · exact ⟨k, .inr ⟨h, le_rfl⟩⟩
  · obtain ⟨hlow, hhigh⟩ := abs_lt.1 hz
    rcases le_abs.1 hy with h | h
    · exact ⟨b, .inl ⟨by exact_mod_cast hhigh.le, by exact_mod_cast h⟩⟩
    · exact ⟨-b, .inr ⟨by push_cast; linarith, by push_cast; linarith⟩⟩

theorem RoundsToInt.nearest {y z : ℚ} {n : Int} (h : RoundsToInt 0b00#2 y n) (hz : IntBetween z y) :
    |y - n| ≤ |y - z| ∧ (|y - n| = |y - z| → z ≠ n → n % 2 = 0) := by
  obtain ⟨hnearest, -⟩ := h
  obtain ⟨hle, heven⟩ := hnearest rfl
  obtain ⟨k, hk⟩ := hz
  have hsplit : |y - z| = |y - k| + |k - z| := by
    rcases hk with ⟨hzk, hky⟩ | ⟨hyk, hkz⟩
    · rw [abs_of_nonneg (sub_nonneg.2 (hzk.trans hky)), abs_of_nonneg (sub_nonneg.2 hky),
        abs_of_nonneg (sub_nonneg.2 hzk)]
      ring
    · rw [abs_of_nonpos (sub_nonpos.2 (hyk.trans hkz)), abs_of_nonpos (sub_nonpos.2 hyk),
        abs_of_nonpos (sub_nonpos.2 hkz)]
      ring
  have hrest := abs_nonneg ((k : ℚ) - z)
  by_cases hnk : n = k
  · subst hnk
    refine ⟨by linarith, fun heq hne => absurd ?_ hne⟩
    have h0 : |(n : ℚ) - z| = 0 := by linarith
    exact (sub_eq_zero.1 (abs_eq_zero.1 h0)).symm
  · have hapart := one_le_abs_cast_sub hnk
    have htri : |(n : ℚ) - k| ≤ |y - k| + |y - n| := by
      simpa using abs_sub (y - k) (y - n)
    exact ⟨by linarith, fun heq _ => heven (by linarith)⟩

theorem IntBetween.of_le {z y : ℚ} (h : IntBetween z y) (hle : z ≤ y) : ∃ k : Int, z ≤ k ∧ k ≤ y := by
  obtain ⟨k, hk | ⟨hyk, hkz⟩⟩ := h
  · exact ⟨k, hk⟩
  · exact ⟨k, hle.trans hyk, hkz.trans hle⟩

theorem IntBetween.of_ge {z y : ℚ} (h : IntBetween z y) (hle : y ≤ z) : ∃ k : Int, y ≤ k ∧ k ≤ z := by
  obtain ⟨k, ⟨hzk, hky⟩ | hk⟩ := h
  · exact ⟨k, hle.trans hzk, hky.trans hle⟩
  · exact ⟨k, hk⟩

theorem RoundsToInt.towardZero {y z : ℚ} {n : Int} (h : RoundsToInt 0b01#2 y n) (hz : IntBetween |z| |y|)
    (hle : |z| ≤ |y|) : |z| ≤ |(n : ℚ)| := by
  obtain ⟨-, hzero, -⟩ := h
  obtain ⟨-, hlt, -⟩ := hzero rfl
  obtain ⟨k, hzk, hky⟩ := hz.of_le hle
  have hk : k < |n| + 1 := by exact_mod_cast hky.trans_lt hlt
  exact hzk.trans (by exact_mod_cast Int.lt_add_one_iff.1 hk)

theorem RoundsToInt.towardMinus {y z : ℚ} {n : Int} (h : RoundsToInt 0b10#2 y n) (hz : IntBetween z y) (hle : z ≤ y) :
    z ≤ n := by
  obtain ⟨-, -, hminus, -⟩ := h
  obtain ⟨-, hlt⟩ := hminus rfl
  obtain ⟨k, hzk, hky⟩ := hz.of_le hle
  have hk : k < n + 1 := by exact_mod_cast hky.trans_lt hlt
  exact hzk.trans (by exact_mod_cast Int.lt_add_one_iff.1 hk)

theorem RoundsToInt.towardPlus {y z : ℚ} {n : Int} (h : RoundsToInt 0b11#2 y n) (hz : IntBetween z y) (hle : y ≤ z) :
    n ≤ z := by
  obtain ⟨-, -, -, hplus⟩ := h
  obtain ⟨hlt, -⟩ := hplus rfl
  obtain ⟨k, hyk, hkz⟩ := hz.of_ge hle
  have hk : n - 1 < k := by exact_mod_cast hlt.trans_le hyk
  exact le_trans (by exact_mod_cast Int.sub_one_lt_iff.1 hk) hkz

/-! ## The bits of a format (43 R190) -/

/-- The exponent field counts up to twice the bias and one. -/
theorem two_pow_expBits (p : Prec) : 2 ^ (format p).expBits = 2 * (format p).bias + 2 := by
  cases p <;> rfl

theorem fracBits_pos (p : Prec) : 0 < (format p).fracBits := by cases p <;> decide

/-- A pattern is below two to the number of its bits. -/
theorem FpBits.toNat_lt (b : FpBits) : b.toNat < 2 ^ ((format b.prec).fracBits + (format b.prec).expBits + 1) := by
  cases b with
  | single w => exact w.isLt
  | double w => exact w.isLt

theorem FpBits.expField_lt (b : FpBits) : b.expField < 2 ^ (format b.prec).expBits := Nat.mod_lt _ (by positivity)

theorem FpBits.fracField_lt (b : FpBits) : b.fracField < 2 ^ (format b.prec).fracBits := Nat.mod_lt _ (by positivity)

/-- A number that is a sign above an exponent above a fraction, by the sizes of the last two. -/
theorem fields_of_eq {n s e f E F : Nat} (hn : n = s * 2 ^ (F + E) + e * 2 ^ F + f) (he : e < 2 ^ E) (hf : f < 2 ^ F) :
    n / 2 ^ (F + E) = s ∧ n / 2 ^ F % 2 ^ E = e ∧ n % 2 ^ F = f := by
  have hn' : n = (s * 2 ^ E + e) * 2 ^ F + f := by rw [hn, pow_add]; ring
  have hdiv : n / 2 ^ F = s * 2 ^ E + e := by
    rw [hn', mul_comm, Nat.mul_add_div (by positivity), Nat.div_eq_of_lt hf, add_zero]
  refine ⟨?_, ?_, ?_⟩
  · rw [pow_add, ← Nat.div_div_eq_div_mul, hdiv, mul_comm, Nat.mul_add_div (by positivity), Nat.div_eq_of_lt he,
      add_zero]
  · rw [hdiv, Nat.mul_add_mod_of_lt he]
  · rw [hn', Nat.mul_add_mod_of_lt hf]

/-- Three fields one above the other, the topmost a bit, are below two to the number of their bits. -/
theorem fields_lt {s e f E F : Nat} (hs : s ≤ 1) (he : e < 2 ^ E) (hf : f < 2 ^ F) :
    s * 2 ^ (F + E) + e * 2 ^ F + f < 2 ^ (F + E + 1) := by
  calc s * 2 ^ (F + E) + e * 2 ^ F + f < s * 2 ^ (F + E) + (e + 1) * 2 ^ F := by linarith
    _ ≤ 1 * 2 ^ (F + E) + 2 ^ E * 2 ^ F := by gcongr; omega
    _ = 2 ^ (F + E + 1) := by ring

/-- The pattern is its three fields side by side. -/
theorem FpBits.toNat_eq (b : FpBits) :
    b.toNat = bitNat b.sign * 2 ^ ((format b.prec).fracBits + (format b.prec).expBits) +
      b.expField * 2 ^ (format b.prec).fracBits + b.fracField := by
  have hsign : bitNat b.sign = b.toNat / 2 ^ ((format b.prec).fracBits + (format b.prec).expBits) := by
    have hlt := Nat.div_lt_of_lt_mul (pow_succ 2 ((format b.prec).fracBits + (format b.prec).expBits) ▸ b.toNat_lt)
    rw [FpBits.sign, Nat.mod_eq_of_lt hlt]
    interval_cases b.toNat / 2 ^ ((format b.prec).fracBits + (format b.prec).expBits) <;> rfl
  rw [hsign, FpBits.expField, FpBits.fracField, pow_add, ← Nat.div_div_eq_div_mul]
  generalize b.toNat = n
  calc n = n / 2 ^ (format b.prec).fracBits * 2 ^ (format b.prec).fracBits + n % 2 ^ (format b.prec).fracBits :=
        (Nat.div_add_mod' _ _).symm
    _ = _ := by
        conv_lhs => rw [← Nat.div_add_mod' (n / 2 ^ (format b.prec).fracBits) (2 ^ (format b.prec).expBits)]
        ring

/-- The fields and the precision determine the bits. -/
theorem FpBits.ext_fields {b c : FpBits} (hp : b.prec = c.prec) (hs : b.sign = c.sign) (he : b.expField = c.expField)
    (hf : b.fracField = c.fracField) : b = c := by
  have hn : b.toNat = c.toNat := by rw [b.toNat_eq, c.toNat_eq, hp, hs, he, hf]
  cases b <;> cases c
  · exact congrArg FpBits.single (BitVec.eq_of_toNat_eq hn)
  · cases hp
  · cases hp
  · exact congrArg FpBits.double (BitVec.eq_of_toNat_eq hn)

@[simp] theorem packFp_prec (p : Prec) (neg : Bool) (e f : Nat) : (packFp p neg e f).prec = p := by
  cases p <;> rfl

/-- The fields of the packed bits are those packed, where they have room. -/
theorem packFp_fields {p : Prec} (neg : Bool) {e f : Nat} (he : e < 2 ^ (format p).expBits)
    (hf : f < 2 ^ (format p).fracBits) :
    (packFp p neg e f).sign = neg ∧ (packFp p neg e f).expField = e ∧ (packFp p neg e f).fracField = f := by
  have hs : bitNat neg ≤ 1 := by cases neg <;> decide
  have hn : (packFp p neg e f).toNat =
      bitNat neg * 2 ^ ((format p).fracBits + (format p).expBits) + e * 2 ^ (format p).fracBits + f := by
    have hlt := fields_lt hs he hf
    cases p with
    | single => exact (BitVec.toNat_ofNat _ 32).trans (Nat.mod_eq_of_lt hlt)
    | double => exact (BitVec.toNat_ofNat _ 64).trans (Nat.mod_eq_of_lt hlt)
  obtain ⟨hsign, hexp, hfrac⟩ := fields_of_eq hn he hf
  refine ⟨?_, ?_, ?_⟩
  · rw [FpBits.sign, packFp_prec, hsign]
    cases neg <;> rfl
  · rw [FpBits.expField, packFp_prec, hexp]
  · rw [FpBits.fracField, packFp_prec, hfrac]

/-! ## The classes of the bits (43 R190, R193) -/

@[simp] theorem abs_signed (neg : Bool) (x : ℚ) : |signed neg x| = |x| := by
  cases neg
  · rfl
  · exact abs_neg x

theorem FpBits.classify_zero {b : FpBits} (he : b.expField = 0) (hf : b.fracField = 0) : b.classify = .zero b.sign := by
  have h0 : 0 ≠ 2 ^ (format b.prec).expBits - 1 := by rw [two_pow_expBits]; omega
  simp [FpBits.classify, he, hf, h0]

theorem FpBits.classify_normal {b : FpBits} (he : b.expField ≠ 0) (he' : b.expField ≤ 2 * (format b.prec).bias) :
    b.classify = .normal b.sign
      (dyadic (2 ^ (format b.prec).fracBits + b.fracField)
        (b.expField - (format b.prec).bias - (format b.prec).fracBits)) := by
  have h1 : b.expField ≠ 2 ^ (format b.prec).expBits - 1 := by rw [two_pow_expBits]; omega
  simp [FpBits.classify, he, h1]

/-- A number is a zero or a normal number, by its exponent field (43 R193). -/
theorem FpBits.isNumber_iff (b : FpBits) :
    b.isNumber ↔ b.expField = 0 ∧ b.fracField = 0 ∨ b.expField ≠ 0 ∧ b.expField ≤ 2 * (format b.prec).bias := by
  have htop : 2 ^ (format b.prec).expBits - 1 = 2 * (format b.prec).bias + 1 := by rw [two_pow_expBits]; rfl
  have hlt := b.expField_lt
  rw [two_pow_expBits] at hlt
  unfold FpBits.isNumber FpBits.classify
  dsimp only
  rw [htop]
  split
  · split <;> simp only [FpClass.reserved, Bool.true_eq_false, false_iff] <;> omega
  · split
    · split <;> simp only [FpClass.reserved, Bool.true_eq_false, true_iff, false_iff] <;> omega
    · simp only [FpClass.reserved, true_iff]; omega

/-- The value of a zero, and of a normal number from its fields (43 R190). -/
theorem FpBits.value_zero {b : FpBits} (he : b.expField = 0) (hf : b.fracField = 0) : b.value = 0 := by
  rw [FpBits.value, FpBits.classify_zero he hf]; rfl

theorem FpBits.value_normal {b : FpBits} (he : b.expField ≠ 0) (he' : b.expField ≤ 2 * (format b.prec).bias) :
    b.value = signed b.sign (((2 ^ (format b.prec).fracBits + b.fracField : Nat) : ℚ) *
      2 ^ ((b.expField : Int) - (format b.prec).bias - (format b.prec).fracBits)) := by
  rw [FpBits.value, FpBits.classify_normal he he', ← dyadic_eq]; rfl

/-- A number's sign is its sign bit. -/
theorem FpBits.neg_eq_sign {b : FpBits} (h : b.isNumber) : b.classify.neg = b.sign := by
  rcases b.isNumber_iff.1 h with ⟨he, hf⟩ | ⟨he, he'⟩
  · rw [FpBits.classify_zero he hf]; rfl
  · rw [FpBits.classify_normal he he']; rfl

/-! ## The layout in the words (43 R190) -/

theorem FpBits.sign_single (w : Word) : (FpBits.single w).sign = w.getLsbD 31 := by
  rw [BitVec.getLsbD, Nat.testBit_eq_decide_div_mod_eq]; rfl

theorem FpBits.expField_single (w : Word) : (FpBits.single w).expField = (w.extractLsb' 23 8).toNat := by
  rw [BitVec.extractLsb'_toNat, Nat.shiftRight_eq_div_pow]; rfl

theorem FpBits.fracField_single (w : Word) : (FpBits.single w).fracField = (w.extractLsb' 0 23).toNat := by
  rw [BitVec.extractLsb'_toNat]; rfl

theorem FpBits.sign_double (w : DWord) : (FpBits.double w).sign = w.getLsbD 63 := by
  rw [BitVec.getLsbD, Nat.testBit_eq_decide_div_mod_eq]; rfl

theorem FpBits.expField_double (w : DWord) : (FpBits.double w).expField = (w.extractLsb' 52 11).toNat := by
  rw [BitVec.extractLsb'_toNat, Nat.shiftRight_eq_div_pow]; rfl

theorem FpBits.fracField_double (w : DWord) : (FpBits.double w).fracField = (w.extractLsb' 0 52).toNat := by
  rw [BitVec.extractLsb'_toNat]; rfl

theorem signed_eq_mul (neg : Bool) (x : ℚ) : signed neg x = (if neg then -1 else 1) * x := by
  cases neg <;> simp [signed]

/-- The value of a normal number as the rule writes it: sign, significand `1.f`, power of two. -/
theorem FpBits.value_eq_sign_mul {b : FpBits} (he : b.expField ≠ 0) (he' : b.expField ≤ 2 * (format b.prec).bias) :
    b.value = (if b.sign then -1 else 1) * (1 + b.fracField / 2 ^ (format b.prec).fracBits) *
      (2 : ℚ) ^ ((b.expField : Int) - (format b.prec).bias) := by
  rw [FpBits.value_normal he he', signed_eq_mul, mul_assoc, zpow_sub₀ two_ne_zero, zpow_natCast]
  push_cast
  field_simp

/-- The clauses of `FormatValues` for either format. -/
theorem FpBits.format_values (b : FpBits) :
    (0 < b.expField ∧ b.expField < 2 * (format b.prec).bias + 1 → b.isNumber ∧
      b.value = (if b.sign then -1 else 1) * (1 + b.fracField / 2 ^ (format b.prec).fracBits) *
        (2 : ℚ) ^ ((b.expField : Int) - (format b.prec).bias)) ∧
    (b.expField = 0 ∧ b.fracField = 0 → b.isNumber ∧ b.value = 0) ∧
    (b.expField = 2 * (format b.prec).bias + 1 ∨ b.expField = 0 ∧ b.fracField ≠ 0 → ¬ b.isNumber) := by
  refine ⟨fun ⟨h0, h1⟩ => ?_, fun ⟨he, hf⟩ => ?_, fun h => ?_⟩
  · have he : b.expField ≠ 0 := by omega
    have he' : b.expField ≤ 2 * (format b.prec).bias := by omega
    exact ⟨b.isNumber_iff.2 (.inr ⟨he, he'⟩), value_eq_sign_mul he he'⟩
  · exact ⟨b.isNumber_iff.2 (.inl ⟨he, hf⟩), value_zero he hf⟩
  · rw [b.isNumber_iff]
    omega

/-- Settles O27: the fields of the bits are those of the words. -/
theorem formatValues : Obligations.FormatValues := by
  refine ⟨fun w => ?_, fun w => ?_⟩
  · have h := (FpBits.single w).format_values
    rw [FpBits.sign_single, FpBits.expField_single, FpBits.fracField_single] at h
    exact h
  · have h := (FpBits.double w).format_values
    rw [FpBits.sign_double, FpBits.expField_double, FpBits.fracField_double] at h
    exact h

/-! ## Normal numbers from a significand and an exponent -/

theorem one_div_two_pow (n : Nat) : 1 / (2 : ℚ) ^ n = 2 ^ (-(n : Int)) := by
  rw [zpow_neg, zpow_natCast, one_div]

theorem minNormal_eq (p : Prec) : minNormal p = 2 ^ (format p).minExp := by
  cases p with
  | single => exact one_div_two_pow 126
  | double => exact one_div_two_pow 1022

theorem aboveFinite_eq (p : Prec) : aboveFinite p = 2 ^ ((format p).maxExp + 1) := by
  cases p with
  | single => exact (zpow_natCast (2 : ℚ) 128).symm
  | double => exact (zpow_natCast (2 : ℚ) 1024).symm

theorem maxFinite_eq (p : Prec) :
    maxFinite p = (2 ^ ((format p).fracBits + 1) - 1) * 2 ^ ((format p).maxExp - (format p).fracBits) := by
  cases p with
  | single => exact congrArg _ (zpow_natCast (2 : ℚ) 104).symm
  | double => exact congrArg _ (zpow_natCast (2 : ℚ) 971).symm

/-- `m` has the width of a significand of a format and `e` is the exponent of a normal number. -/
structure IsSignificand (p : Prec) (m : Nat) (e : Int) : Prop where
  low : 2 ^ (format p).fracBits ≤ m
  high : m < 2 ^ ((format p).fracBits + 1)
  minExp : (format p).minExp ≤ e
  maxExp : e ≤ (format p).maxExp

/-- The bits `roundResult` makes of a significand and an exponent. -/
def normalBits (p : Prec) (neg : Bool) (m : Nat) (e : Int) : FpBits :=
  packFp p neg (e + (format p).bias).toNat (m - 2 ^ (format p).fracBits)

@[simp] theorem normalBits_prec (p : Prec) (neg : Bool) (m : Nat) (e : Int) : (normalBits p neg m e).prec = p :=
  packFp_prec ..

section
variable {p : Prec} {m : Nat} {e : Int}

theorem normalBits_fields (h : IsSignificand p m e) (neg : Bool) :
    (normalBits p neg m e).sign = neg ∧ ((normalBits p neg m e).expField : Int) = e + (format p).bias ∧
      (normalBits p neg m e).fracField = m - 2 ^ (format p).fracBits := by
  obtain ⟨hm, hm', he, he'⟩ := h
  unfold Format.minExp at he
  unfold Format.maxExp at he'
  have hexp : (e + (format p).bias).toNat < 2 ^ (format p).expBits := by rw [two_pow_expBits]; omega
  have hfrac : m - 2 ^ (format p).fracBits < 2 ^ (format p).fracBits := by rw [pow_succ] at hm'; omega
  obtain ⟨hs, he, hf⟩ := packFp_fields neg hexp hfrac
  refine ⟨hs, ?_, hf⟩
  rw [normalBits, he]
  omega

/-- They are a number of the value they are made for. -/
theorem normalBits_value (h : IsSignificand p m e) (neg : Bool) :
    (normalBits p neg m e).isNumber ∧
      (normalBits p neg m e).value = signed neg (m * (2 : ℚ) ^ (e - (format p).fracBits)) := by
  obtain ⟨hs, he, hf⟩ := normalBits_fields h neg
  have hmin := h.minExp
  have hmax := h.maxExp
  unfold Format.minExp at hmin
  unfold Format.maxExp at hmax
  have h0 : (normalBits p neg m e).expField ≠ 0 := by omega
  have h1 : (normalBits p neg m e).expField ≤ 2 * (format (normalBits p neg m e).prec).bias := by
    rw [normalBits_prec]; omega
  refine ⟨(FpBits.isNumber_iff _).2 (.inr ⟨h0, h1⟩), ?_⟩
  rw [FpBits.value_normal h0 h1, hs, he, hf, normalBits_prec, Nat.add_sub_cancel' h.low, add_sub_cancel_right]

/-- The exponent of a significand times a power of two. -/
theorem abs_bounds_of_significand {f : Nat} (hm : 2 ^ f ≤ m) (hm' : m < 2 ^ (f + 1)) :
    (2 : ℚ) ^ e ≤ m * (2 : ℚ) ^ (e - f) ∧ m * (2 : ℚ) ^ (e - f) < 2 ^ (e + 1) := by
  have hlow : (2 : ℚ) ^ (f : Int) ≤ m := by exact_mod_cast hm
  have hhigh : (m : ℚ) < 2 ^ ((f : Int) + 1) := by exact_mod_cast hm'
  have hpow : (0 : ℚ) < 2 ^ (e - f) := by positivity
  constructor
  · calc (2 : ℚ) ^ e = 2 ^ (f : Int) * 2 ^ (e - f) := by rw [← zpow_add₀ two_ne_zero]; congr 1; ring
      _ ≤ _ := by gcongr
  · calc m * (2 : ℚ) ^ (e - f) < 2 ^ ((f : Int) + 1) * 2 ^ (e - f) := by gcongr
      _ = _ := by rw [← zpow_add₀ two_ne_zero]; congr 1; ring

end

/-- A number is a zero or of this form. -/
theorem FpBits.number_cases {b : FpBits} (h : b.isNumber) :
    b.expField = 0 ∧ b.fracField = 0 ∨
      ∃ m e, IsSignificand b.prec m e ∧ b = normalBits b.prec b.sign m e ∧
        b.value = signed b.sign (m * (2 : ℚ) ^ (e - (format b.prec).fracBits)) := by
  rcases b.isNumber_iff.1 h with h0 | ⟨he, he'⟩
  · exact .inl h0
  · have hf := b.fracField_lt
    have hsig : IsSignificand b.prec (2 ^ (format b.prec).fracBits + b.fracField) (b.expField - (format b.prec).bias) :=
      { low := by omega
        high := by rw [pow_succ]; omega
        minExp := by unfold Format.minExp; omega
        maxExp := by unfold Format.maxExp; omega }
    obtain ⟨hs, hexp, hfrac⟩ := normalBits_fields hsig b.sign
    refine .inr ⟨_, _, hsig, FpBits.ext_fields (by simp) hs.symm ?_ ?_, FpBits.value_normal he he'⟩
    · omega
    · rw [hfrac, Nat.add_sub_cancel_left]

/-! ## Rounding to the significand of a format (43 R192, R193) -/

/-- The unit of the last place of a significand at the exponent of `x`. -/
def ulp (f : Format) (x : ℚ) : ℚ := 2 ^ (exponentOf x - f.fracBits)

/-- `x` in units of the last place. -/
def scaled (f : Format) (x : ℚ) : ℚ := x * 2 ^ (f.fracBits - exponentOf x)

theorem ulp_pos (f : Format) (x : ℚ) : 0 < ulp f x := by unfold ulp; positivity

theorem ulp_mul_scaled (f : Format) (x : ℚ) : ulp f x * scaled f x = x := by
  rw [ulp, scaled, mul_left_comm, ← zpow_add₀ two_ne_zero, sub_add_sub_cancel, sub_self, zpow_zero, mul_one]

theorem ulp_mul_abs_scaled (f : Format) (x : ℚ) : ulp f x * |scaled f x| = |x| := by
  rw [← abs_of_pos (ulp_pos f x), ← abs_mul, ulp_mul_scaled]

theorem ulp_mul_two_zpow (f : Format) (x : ℚ) (k : Int) : ulp f x * 2 ^ (f.fracBits + k) = 2 ^ (exponentOf x + k) := by
  rw [ulp, ← zpow_add₀ two_ne_zero]
  congr 1
  ring

theorem scaled_neg_iff (f : Format) (x : ℚ) : scaled f x < 0 ↔ x < 0 := by
  have hpos : (0 : ℚ) < 2 ^ (f.fracBits - exponentOf x) := by positivity
  rw [scaled, mul_neg_iff]
  simp [hpos, hpos.not_gt]

/-- It has the width of the significand. -/
theorem scaled_bounds (f : Format) {x : ℚ} (hx : x ≠ 0) :
    ((2 ^ f.fracBits : Nat) : ℚ) ≤ |scaled f x| ∧ |scaled f x| < (2 ^ (f.fracBits + 1) : Nat) := by
  have hlow := (two_zpow_le_abs_iff hx (exponentOf x)).2 le_rfl
  have hhigh := (abs_lt_two_zpow_iff hx (exponentOf x + 1)).2 (lt_add_one _)
  have hu := ulp_mul_two_zpow f x
  rw [← ulp_mul_abs_scaled f] at hlow hhigh
  rw [← hu 1] at hhigh
  rw [← add_zero (exponentOf x), ← hu 0, add_zero] at hlow
  push_cast
  exact ⟨by exact_mod_cast le_of_mul_le_mul_left hlow (ulp_pos f x),
    by exact_mod_cast lt_of_mul_lt_mul_left hhigh (ulp_pos f x).le⟩

/-- The magnitude `roundSignificand` rounds to. -/
def roundedMagnitude (f : Format) (rm : BitVec 2) (x : ℚ) : Nat := roundMagnitude rm (x < 0) (scaled f x)

theorem roundSignificand_eq (f : Format) (rm : BitVec 2) (x : ℚ) :
    roundSignificand f rm x =
      if roundedMagnitude f rm x = 2 ^ (f.fracBits + 1) then (2 ^ f.fracBits, exponentOf x + 1)
      else (roundedMagnitude f rm x, exponentOf x) := by
  rw [roundedMagnitude, scaled, roundSignificand, dyadic_eq, Nat.cast_one, one_mul]

theorem roundedMagnitude_rounds (f : Format) (rm : BitVec 2) (x : ℚ) :
    RoundsMagnitude rm (x < 0) |scaled f x| (roundedMagnitude f rm x) := roundMagnitude_rounds ..

theorem roundToInt_scaled (f : Format) (rm : BitVec 2) (x : ℚ) :
    roundToInt rm (scaled f x) = if x < 0 then -(roundedMagnitude f rm x : Int) else roundedMagnitude f rm x := by
  simp only [roundToInt_eq, scaled_neg_iff, roundedMagnitude]

theorem roundedMagnitude_bounds (f : Format) (rm : BitVec 2) {x : ℚ} (hx : x ≠ 0) :
    2 ^ f.fracBits ≤ roundedMagnitude f rm x ∧ roundedMagnitude f rm x ≤ 2 ^ (f.fracBits + 1) := by
  obtain ⟨hlow, hhigh⟩ := scaled_bounds f hx
  have hclose := abs_lt.1 (roundedMagnitude_rounds f rm x).abs_sub_lt
  have h1 : ((2 ^ f.fracBits : Nat) : ℚ) < (roundedMagnitude f rm x + 1 : Nat) := by push_cast at *; linarith
  have h2 : (roundedMagnitude f rm x : ℚ) < (2 ^ (f.fracBits + 1) + 1 : Nat) := by push_cast at *; linarith
  exact ⟨Nat.lt_add_one_iff.1 (by exact_mod_cast h1), Nat.lt_add_one_iff.1 (by exact_mod_cast h2)⟩

/-- The rounded significand has its width, the value of the rounded magnitude and an exponent not below the exact one;
where the rounded magnitude is even it is even. -/
theorem roundSignificand_spec {f : Format} (hf : 0 < f.fracBits) (rm : BitVec 2) {x : ℚ} (hx : x ≠ 0) {m : Nat}
    {e : Int} (h : roundSignificand f rm x = (m, e)) :
    2 ^ f.fracBits ≤ m ∧ m < 2 ^ (f.fracBits + 1) ∧ exponentOf x ≤ e ∧
      m * (2 : ℚ) ^ (e - f.fracBits) = ulp f x * roundedMagnitude f rm x ∧
      (roundedMagnitude f rm x % 2 = 0 → m % 2 = 0) := by
  obtain ⟨hlow, hhigh⟩ := roundedMagnitude_bounds f rm hx
  rw [roundSignificand_eq] at h
  split at h
  · next htop =>
    obtain ⟨rfl, rfl⟩ := Prod.mk.inj h
    refine ⟨le_rfl, Nat.pow_lt_pow_succ one_lt_two, by omega, ?_, fun _ => ?_⟩
    · rw [htop, ulp, add_sub_right_comm, zpow_add_one₀ two_ne_zero]
      push_cast
      ring
    · exact Nat.mod_eq_zero_of_dvd (dvd_pow_self 2 hf.ne')
  · next htop =>
    obtain ⟨rfl, rfl⟩ := Prod.mk.inj h
    exact ⟨hlow, by omega, le_rfl, mul_comm _ _, id⟩

/-! ## Overflow (43 R193) -/

/-- When a magnitude below an even `t` is rounded up to `t`: it is above `t - 1`, and the mode takes it there. -/
theorem RoundsMagnitude.eq_top_iff {rm : BitVec 2} {neg : Bool} {y : ℚ} {m t : Nat} (h : RoundsMagnitude rm neg y m)
    (ht : t % 2 = 0) (hy : y < t) (hm : m ≤ t) :
    m = t ↔ (t : ℚ) - 1 < y ∧ (rm = 0b00#2 → (t : ℚ) - 1 / 2 ≤ y) ∧ rm ≠ 0b01#2 ∧ (rm = 0b10#2 → neg = true) ∧
      (rm = 0b11#2 → neg = false) := by
  have hclose := abs_lt.1 h.abs_sub_lt
  obtain ⟨hnearest, hzero, hminus, hplus⟩ := h
  constructor
  · rintro rfl
    refine ⟨by linarith, fun hrm => ?_, fun hrm => ?_, fun hrm => ?_, fun hrm => ?_⟩
    · have := abs_le.1 (hnearest hrm).1
      linarith
    · exact absurd (hzero hrm).1 (not_le.2 hy)
    · by_contra hneg
      have h := hminus hrm
      rw [if_neg hneg] at h
      exact absurd h.1 (not_le.2 hy)
    · by_contra hneg
      have h := hplus hrm
      rw [if_pos (by simpa using hneg)] at h
      exact absurd h.1 (not_le.2 hy)
  · rintro ⟨hlow, hnear, hne, hneg, hpos⟩
    by_contra hmt
    have hbelow : (t : ℚ) < (m + 2 : Nat) := by push_cast; linarith
    have hmt' : t = m + 1 := by
      have : t < m + 2 := by exact_mod_cast hbelow
      omega
    subst hmt'
    push_cast at *
    match rm with
    | 0b00#2 =>
      obtain ⟨hle, heven⟩ := hnearest rfl
      have h1 := hnear rfl
      have htie : |y - m| = 1 / 2 := le_antisymm hle (le_abs.2 (.inl (by linarith)))
      have := heven htie
      omega
    | 0b01#2 => exact hne rfl
    | 0b10#2 => have h := hminus rfl; rw [if_pos (hneg rfl)] at h; linarith
    | 0b11#2 => have h := hplus rfl; rw [hpos rfl] at h; simp only [Bool.false_eq_true, if_false] at h; linarith

/-- The two bounds in units of the last place of the largest finite numbers. -/
theorem maxFinite_eq_mul (p : Prec) :
    maxFinite p =
      2 ^ ((format p).maxExp - (format p).fracBits) * (((2 ^ ((format p).fracBits + 1) : Nat) : ℚ) - 1) := by
  rw [maxFinite_eq, mul_comm]
  push_cast
  rfl

theorem aboveFinite_eq_mul (p : Prec) :
    aboveFinite p = 2 ^ ((format p).maxExp - (format p).fracBits) * ((2 ^ ((format p).fracBits + 1) : Nat) : ℚ) := by
  rw [aboveFinite_eq, Nat.cast_pow, Nat.cast_ofNat, ← zpow_natCast, ← zpow_add₀ two_ne_zero]
  congr 1
  push_cast
  ring

theorem maxFinite_lt_aboveFinite (p : Prec) : maxFinite p < aboveFinite p := by
  rw [maxFinite_eq_mul, aboveFinite_eq_mul]
  exact mul_lt_mul_of_pos_left (sub_one_lt _) (by positivity)

theorem aboveFinite_le_two_mul_maxFinite (p : Prec) : aboveFinite p ≤ 2 * maxFinite p := by
  have h2 : (2 : ℚ) ≤ (2 ^ ((format p).fracBits + 1) : Nat) := by
    exact_mod_cast Nat.le_self_pow (Nat.succ_ne_zero _) 2
  rw [maxFinite_eq_mul, aboveFinite_eq_mul, mul_left_comm]
  exact mul_le_mul_of_nonneg_left (by linarith) (by positivity)

/-- What is at least the power of two above the finite numbers rounds above them in every mode. -/
theorem roundsAbove_of_ge {p : Prec} (rm : BitVec 2) {x : ℚ} (h : aboveFinite p ≤ |x|) : RoundsAbove p rm x := by
  have hlt := maxFinite_lt_aboveFinite p
  exact ⟨hlt.trans_le h, fun _ => by linarith, fun _ => h, fun _ => .inr h, fun _ => .inr h⟩

/-- Below the exponent of the largest finite numbers no mode rounds above them. -/
theorem not_roundsAbove_of_exponentOf_lt {p : Prec} (rm : BitVec 2) {x : ℚ} (hx : x ≠ 0)
    (he : exponentOf x < (format p).maxExp) : ¬ RoundsAbove p rm x := by
  have habove := aboveFinite_eq p
  rw [zpow_add_one₀ two_ne_zero] at habove
  have hlt := (abs_lt_two_zpow_iff hx (format p).maxExp).2 he
  have hmax := aboveFinite_le_two_mul_maxFinite p
  exact fun h => absurd h.1 (not_lt.2 (by linarith))

/-- At the exponent of the largest finite numbers rounding above them is a carry out of the significand. -/
theorem roundsAbove_iff_carry {p : Prec} (rm : BitVec 2) {x : ℚ} (hx : x ≠ 0) (he : exponentOf x = (format p).maxExp) :
    RoundsAbove p rm x ↔ roundedMagnitude (format p) rm x = 2 ^ ((format p).fracBits + 1) := by
  have hulp : ulp (format p) x = 2 ^ ((format p).maxExp - (format p).fracBits) := by rw [ulp, he]
  have hpos := ulp_pos (format p) x
  have hlt := (scaled_bounds (format p) hx).2
  have hmax := maxFinite_eq_mul p
  have habove := aboveFinite_eq_mul p
  have hx0 : 0 < x ↔ ¬ x < 0 := by rw [not_lt, lt_iff_le_and_ne, and_iff_left hx.symm]
  rw [(roundedMagnitude_rounds (format p) rm x).eq_top_iff (by rw [pow_succ]; omega) hlt
    (roundedMagnitude_bounds (format p) rm hx).2]
  generalize 2 ^ ((format p).fracBits + 1) = t at *
  have hmid : (ulp (format p) x * ((t : ℚ) - 1) + ulp (format p) x * t) / 2 = ulp (format p) x * (t - 1 / 2) := by ring
  rw [RoundsAbove, hmax, habove, ← hulp, ← ulp_mul_abs_scaled (format p) x]
  simp only [hmid, mul_lt_mul_iff_right₀ hpos, mul_le_mul_iff_right₀ hpos, not_le.2 hlt, hx0, or_false, imp_false,
    decide_eq_true_eq, decide_eq_false_iff_not, ne_eq]

/-- Rounding above the finite numbers is rounding to an exponent above theirs. -/
theorem roundsAbove_iff {p : Prec} (rm : BitVec 2) {x : ℚ} (hx : x ≠ 0) :
    RoundsAbove p rm x ↔ (format p).maxExp < (roundSignificand (format p) rm x).2 := by
  rw [roundSignificand_eq]
  rcases lt_trichotomy (exponentOf x) (format p).maxExp with he | he | he
  · refine iff_of_false (not_roundsAbove_of_exponentOf_lt rm hx he) ?_
    split <;> dsimp only <;> omega
  · rw [roundsAbove_iff_carry rm hx he, he]
    split
    · next h => exact iff_of_true h (lt_add_one _)
    · next h => exact iff_of_false h (lt_irrefl _)
  · have hge : aboveFinite p ≤ |x| := by
      rw [aboveFinite_eq, two_zpow_le_abs_iff hx]
      omega
    refine iff_of_true (roundsAbove_of_ge rm hge) ?_
    split <;> dsimp only <;> omega

/-! ## The result of a rounding (43 R192, R193) -/

theorem packFp_zero (p : Prec) (neg : Bool) : packFp p neg 0 0 = zeroBits p neg := by
  cases p <;> cases neg <;> rfl

theorem roundResult_zero (p : Prec) (rm : BitVec 2) (neg : Bool) : roundResult p rm neg 0 = .ok (zeroBits p neg) := by
  rw [roundResult, if_pos rfl, packFp_zero]

theorem roundResult_of_ne_zero {p : Prec} (rm : BitVec 2) (neg : Bool) {x : ℚ} (hx : x ≠ 0) :
    roundResult p rm neg x =
      if (format p).maxExp < (roundSignificand (format p) rm x).2 then .error .fpOverflow
      else if exponentOf x < (format p).minExp then .error .fpUnderflow
      else .ok (normalBits p (x < 0) (roundSignificand (format p) rm x).1 (roundSignificand (format p) rm x).2) := by
  rw [roundResult, if_neg hx]
  rfl

theorem minExp_le_maxExp (p : Prec) : (format p).minExp ≤ (format p).maxExp := by cases p <;> decide

theorem RoundsAbove.ne_zero {p : Prec} {rm : BitVec 2} {x : ℚ} (h : RoundsAbove p rm x) : x ≠ 0 := by
  have hmax : 0 < maxFinite p := by
    linarith [maxFinite_lt_aboveFinite p, aboveFinite_le_two_mul_maxFinite p]
  exact abs_pos.1 (hmax.trans h.1)

theorem roundResult_overflow {p : Prec} {rm : BitVec 2} (neg : Bool) {x : ℚ} (h : RoundsAbove p rm x) :
    roundResult p rm neg x = .error .fpOverflow := by
  rw [roundResult_of_ne_zero rm neg h.ne_zero, if_pos ((roundsAbove_iff rm h.ne_zero).1 h)]

theorem roundResult_underflow {p : Prec} (rm : BitVec 2) (neg : Bool) {x : ℚ} (hx : x ≠ 0) (h : |x| < minNormal p) :
    roundResult p rm neg x = .error .fpUnderflow := by
  rw [minNormal_eq, abs_lt_two_zpow_iff hx] at h
  have habove := not_roundsAbove_of_exponentOf_lt rm hx (h.trans_le (minExp_le_maxExp p))
  rw [roundResult_of_ne_zero rm neg hx, if_neg (mt (roundsAbove_iff rm hx).2 habove), if_pos h]

theorem ne_zero_of_minNormal_le {p : Prec} {x : ℚ} (h : minNormal p ≤ |x|) : x ≠ 0 := by
  have hmin : 0 < minNormal p := by rw [minNormal_eq]; positivity
  exact abs_pos.1 (hmin.trans_le h)

/-- In range the result is the number of the rounded significand. -/
theorem roundResult_inRange {p : Prec} {rm : BitVec 2} (neg : Bool) {x : ℚ} (hlow : minNormal p ≤ |x|)
    (hhigh : ¬ RoundsAbove p rm x) {m : Nat} {e : Int} (h : roundSignificand (format p) rm x = (m, e)) :
    IsSignificand p m e ∧ roundResult p rm neg x = .ok (normalBits p (x < 0) m e) := by
  have hx := ne_zero_of_minNormal_le hlow
  rw [minNormal_eq, two_zpow_le_abs_iff hx] at hlow
  rw [roundsAbove_iff rm hx, h, not_lt] at hhigh
  obtain ⟨hm, hm', he, -⟩ := roundSignificand_spec (fracBits_pos p) rm hx h
  refine ⟨⟨hm, hm', hlow.trans he, hhigh⟩, ?_⟩
  rw [roundResult_of_ne_zero rm neg hx, h, if_neg (not_lt.2 hhigh), if_neg (not_lt.2 hlow)]

/-! ## Correct rounding (43 R192) -/

/-- A number of a format is a whole number of units of the last place at exponent `e`, or below `2^e`. -/
theorem FpBits.value_on_grid {c : FpBits} (hc : c.isNumber) (e : Int) :
    (∃ k : Int, c.value = 2 ^ (e - (format c.prec).fracBits) * (k : ℚ)) ∨ |c.value| < 2 ^ e := by
  rcases FpBits.number_cases hc with ⟨he, hf⟩ | ⟨m, k, hsig, -, hval⟩
  · exact .inl ⟨0, by rw [FpBits.value_zero he hf, Int.cast_zero, mul_zero]⟩
  · rcases le_or_gt e k with hek | hke
    · left
      obtain ⟨j, rfl⟩ := Int.le.dest hek
      refine ⟨(if c.sign then -1 else 1) * (m * 2 ^ j), ?_⟩
      rw [hval, signed_eq_mul, add_sub_right_comm, zpow_add₀ two_ne_zero, zpow_natCast]
      split <;> push_cast <;> ring
    · right
      rw [hval, abs_signed, abs_of_nonneg (by positivity)]
      exact (abs_bounds_of_significand hsig.low hsig.high).2.trans_le (zpow_le_zpow_right₀ one_le_two hke)

/-- In units of the last place of `x` an integer lies between each number of the format and `x`, and between their
magnitudes. -/
theorem FpBits.intBetween_scaled {p : Prec} {c : FpBits} (hp : c.prec = p) (hc : c.isNumber) {x : ℚ} (hx : x ≠ 0) :
    ∃ z, c.value = ulp (format p) x * z ∧ IntBetween z (scaled (format p) x) ∧
      IntBetween |z| |scaled (format p) x| := by
  subst hp
  have hpos := ulp_pos (format c.prec) x
  obtain ⟨hlow, -⟩ := scaled_bounds (format c.prec) hx
  have hz : (∃ k : Int, c.value / ulp (format c.prec) x = k) ∨
      |c.value / ulp (format c.prec) x| < (2 ^ (format c.prec).fracBits : Nat) := by
    rcases FpBits.value_on_grid hc (exponentOf x) with ⟨k, hk⟩ | h
    · refine .inl ⟨k, ?_⟩
      rw [hk]
      exact mul_div_cancel_left₀ _ hpos.ne'
    · have hunits := ulp_mul_two_zpow (format c.prec) x 0
      rw [add_zero, add_zero, zpow_natCast] at hunits
      right
      rwa [abs_div, abs_of_pos hpos, div_lt_iff₀' hpos, Nat.cast_pow, Nat.cast_ofNat, hunits]
  refine ⟨_, (mul_div_cancel₀ _ hpos.ne').symm, intBetween_of hz hlow, intBetween_of ?_ (by rwa [abs_abs])⟩
  rw [abs_abs]
  exact hz.imp_left fun ⟨k, hk⟩ => ⟨|k|, by rw [hk, Int.cast_abs]⟩

/-- A number that is `x` rounded to whole units of its last place is `x` correctly rounded. -/
theorem correctlyRounded_of_scaled {p : Prec} {rm : BitVec 2} {x : ℚ} (hx : x ≠ 0) {r : FpBits} {n : Int}
    (hp : r.prec = p) (hr : r.isNumber) (hval : r.value = ulp (format p) x * n)
    (hn : RoundsToInt rm (scaled (format p) x) n) (heven : n % 2 = 0 → r.fracField % 2 = 0) :
    CorrectlyRounded p rm x r := by
  have hpos := ulp_pos (format p) x
  have hxs := (ulp_mul_scaled (format p) x).symm
  refine ⟨hp, hr, ?_⟩
  rw [hval]
  generalize hu : ulp (format p) x = u at *
  generalize hy : scaled (format p) x = y at *
  have hgrid : ∀ c : FpBits, c.prec = p → c.isNumber → ∃ z, c.value = u * z ∧ IntBetween z y ∧ IntBetween |z| |y| := by
    intro c hcp hc
    have h := FpBits.intBetween_scaled hcp hc hx
    rwa [hu, hy] at h
  obtain ⟨-, hzero, hminus, hplus⟩ := id hn
  rw [hxs]
  refine ⟨?_, ?_, ?_, ?_⟩
  · rintro rfl c hcp hc
    obtain ⟨z, hz, hbetween, -⟩ := hgrid c hcp hc
    obtain ⟨hle, htie⟩ := hn.nearest hbetween
    rw [hz, ← mul_sub, ← mul_sub, abs_mul, abs_mul, abs_of_pos hpos, mul_le_mul_iff_right₀ hpos,
      mul_right_inj' hpos.ne']
    exact ⟨hle, fun heq hne => heven (htie heq fun h => hne (by rw [h]))⟩
  · rintro rfl
    obtain ⟨hle, -, hsign⟩ := hzero rfl
    rw [abs_mul, abs_mul, abs_of_pos hpos, mul_mul_mul_comm]
    refine ⟨(mul_le_mul_iff_right₀ hpos).2 hle, mul_nonneg (mul_self_nonneg u) hsign, fun c hcp hc hcx => ?_⟩
    obtain ⟨z, hz, -, hbetween⟩ := hgrid c hcp hc
    rw [hz, abs_mul, abs_of_pos hpos, mul_le_mul_iff_right₀ hpos] at hcx ⊢
    exact hn.towardZero hbetween hcx
  · rintro rfl
    refine ⟨(mul_le_mul_iff_right₀ hpos).2 (hminus rfl).1, fun c hcp hc hcx => ?_⟩
    obtain ⟨z, hz, hbetween, -⟩ := hgrid c hcp hc
    rw [hz, mul_le_mul_iff_right₀ hpos] at hcx ⊢
    exact hn.towardMinus hbetween hcx
  · rintro rfl
    refine ⟨(mul_le_mul_iff_right₀ hpos).2 (hplus rfl).2, fun c hcp hc hcx => ?_⟩
    obtain ⟨z, hz, hbetween, -⟩ := hgrid c hcp hc
    rw [hz, mul_le_mul_iff_right₀ hpos] at hcx ⊢
    exact hn.towardPlus hbetween hcx

/-- The result of a rounding in range is correctly rounded. -/
theorem roundResult_correct {p : Prec} {rm : BitVec 2} (neg : Bool) {x : ℚ} (hlow : minNormal p ≤ |x|)
    (hhigh : ¬ RoundsAbove p rm x) : ∃ r, roundResult p rm neg x = .ok r ∧ CorrectlyRounded p rm x r := by
  have hx := ne_zero_of_minNormal_le hlow
  rcases h : roundSignificand (format p) rm x with ⟨m, e⟩
  obtain ⟨hsig, hres⟩ := roundResult_inRange neg hlow hhigh h
  obtain ⟨-, -, -, hval, heven⟩ := roundSignificand_spec (fracBits_pos p) rm hx h
  obtain ⟨hnum, hrval⟩ := normalBits_value hsig (x < 0)
  obtain ⟨-, -, hfrac⟩ := normalBits_fields hsig (x < 0)
  refine ⟨_, hres, correctlyRounded_of_scaled hx (normalBits_prec ..) hnum ?_ (roundToInt_rounds rm _) fun h2 => ?_⟩
  · rw [hrval, hval, roundToInt_scaled, signed_eq_mul]
    by_cases hneg : x < 0 <;> simp [hneg]
  · have hpow : 2 ^ (format p).fracBits % 2 = 0 := Nat.mod_eq_zero_of_dvd (dvd_pow_self 2 (fracBits_pos p).ne')
    have hm := heven (by rw [roundToInt_scaled] at h2; split at h2 <;> omega)
    omega

/-! ## Rounding a number of the format -/

theorem signed_lt_zero_iff {y : ℚ} (hy : 0 < y) (neg : Bool) : signed neg y < 0 ↔ neg = true := by
  cases neg
  · simp [signed, hy.le]
  · simp [signed, hy]

/-- The exponent and the significand of a value given by them. -/
theorem roundSignificand_of_abs_eq {f : Format} {m : Nat} {e : Int} (hm : 2 ^ f.fracBits ≤ m)
    (hm' : m < 2 ^ (f.fracBits + 1)) (rm : BitVec 2) {x : ℚ} (hx : |x| = m * 2 ^ (e - f.fracBits)) :
    exponentOf x = e ∧ roundSignificand f rm x = (m, e) := by
  obtain ⟨hlow, hhigh⟩ := abs_bounds_of_significand (e := e) hm hm'
  rw [← hx] at hlow hhigh
  have hx0 : x ≠ 0 := abs_pos.1 (lt_of_lt_of_le (by positivity) hlow)
  rw [two_zpow_le_abs_iff hx0] at hlow
  rw [abs_lt_two_zpow_iff hx0] at hhigh
  have he : exponentOf x = e := by omega
  have hscaled : |scaled f x| = m := by
    have hunits := ulp_mul_abs_scaled f x
    rw [hx, ulp, he, mul_comm] at hunits
    exact mul_right_cancel₀ (by positivity) hunits
  have hclose := (roundedMagnitude_rounds f rm x).abs_sub_lt
  rw [hscaled] at hclose
  have hround : roundedMagnitude f rm x = m := by
    by_contra hne
    have hapart := one_le_abs_cast_sub (n := m) (k := roundedMagnitude f rm x) (by exact_mod_cast Ne.symm hne)
    exact absurd hclose (not_lt.2 (by exact_mod_cast hapart))
  refine ⟨he, ?_⟩
  rw [roundSignificand_eq, hround, if_neg hm'.ne, he]

/-- A significand and an exponent of the format are rounded to themselves. -/
theorem roundResult_normalBits {p : Prec} {m : Nat} {e : Int} (h : IsSignificand p m e) (rm : BitVec 2)
    (zeroNeg neg : Bool) :
    roundResult p rm zeroNeg (normalBits p neg m e).value = .ok (normalBits p neg m e) := by
  have hm0 : 0 < m := lt_of_lt_of_le (by positivity) h.low
  have hpos : (0 : ℚ) < m * 2 ^ (e - (format p).fracBits) := by positivity
  have hval := (normalBits_value h neg).2
  have habs : |(normalBits p neg m e).value| = m * (2 : ℚ) ^ (e - (format p).fracBits) := by
    rw [hval, abs_signed, abs_of_pos hpos]
  have hneg : decide ((normalBits p neg m e).value < 0) = neg := by
    rw [hval, Bool.eq_iff_iff, decide_eq_true_iff, signed_lt_zero_iff hpos]
  obtain ⟨hexp, hround⟩ := roundSignificand_of_abs_eq h.low h.high rm habs
  rw [roundResult_of_ne_zero rm zeroNeg (abs_pos.1 (by rwa [habs])), hround, hexp, if_neg (not_lt.2 h.maxExp),
    if_neg (not_lt.2 h.minExp), hneg]

/-- A zero is its bits. -/
theorem FpBits.eq_zeroBits {b : FpBits} (he : b.expField = 0) (hf : b.fracField = 0) : b = zeroBits b.prec b.sign := by
  rw [← packFp_zero]
  obtain ⟨hs, he', hf'⟩ := packFp_fields (p := b.prec) b.sign (e := 0) (f := 0) (by positivity) (by positivity)
  exact FpBits.ext_fields (by simp) hs.symm (he.trans he'.symm) (hf.trans hf'.symm)

theorem zeroBits_fields (p : Prec) (neg : Bool) :
    (zeroBits p neg).prec = p ∧ (zeroBits p neg).sign = neg ∧ (zeroBits p neg).isNumber ∧
      (zeroBits p neg).value = 0 := by
  rw [← packFp_zero]
  obtain ⟨hs, he, hf⟩ := packFp_fields (p := p) neg (e := 0) (f := 0) (by positivity) (by positivity)
  exact ⟨packFp_prec .., hs, (FpBits.isNumber_iff _).2 (.inl ⟨he, hf⟩), FpBits.value_zero he hf⟩

/-- A number is rounded to its own format as it stands. -/
theorem roundResult_number {b : FpBits} (hb : b.isNumber) (rm : BitVec 2) :
    roundResult b.prec rm b.sign b.value = .ok b := by
  rcases FpBits.number_cases hb with ⟨he, hf⟩ | ⟨m, e, hsig, hbits, -⟩
  · rw [FpBits.value_zero he hf, roundResult_zero, ← FpBits.eq_zeroBits he hf]
  · have h := roundResult_normalBits hsig rm b.sign b.sign
    rwa [← hbits] at h

/-- An integer no wider than the significand, times a power of two well inside the range, is a number of the format,
and rounding leaves it. -/
theorem roundResult_exact {p : Prec} {m : Nat} {k : Int} (hm0 : m ≠ 0) (hm : m < 2 ^ ((format p).fracBits + 1))
    (hk : (format p).minExp ≤ k) (hk' : k + (format p).fracBits ≤ (format p).maxExp) (rm : BitVec 2)
    (zeroNeg neg : Bool) :
    ∃ r, roundResult p rm zeroNeg (signed neg (m * (2 : ℚ) ^ k)) = .ok r ∧ r.prec = p ∧ r.isNumber ∧
      r.value = signed neg (m * (2 : ℚ) ^ k) ∧ r.sign = neg := by
  have hlog := (Nat.log2_lt hm0).2 hm
  obtain ⟨j, hj⟩ : ∃ j, (format p).fracBits = Nat.log2 m + j := Nat.exists_eq_add_of_le (by omega)
  have hsig : IsSignificand p (m * 2 ^ j) (k + Nat.log2 m) :=
    { low := by rw [hj, pow_add]; gcongr; exact Nat.log2_self_le hm0
      high := by rw [hj, add_right_comm, pow_add]; gcongr; exact Nat.lt_log2_self
      minExp := by omega
      maxExp := by omega }
  have hval : ((m * 2 ^ j : Nat) : ℚ) * 2 ^ (k + Nat.log2 m - (format p).fracBits) = m * 2 ^ k := by
    have hexp : k + Nat.log2 m - (format p).fracBits = k - j := by omega
    rw [hexp, zpow_sub₀ two_ne_zero, zpow_natCast]
    push_cast
    field_simp
  obtain ⟨hnum, hrval⟩ := normalBits_value hsig neg
  rw [hval] at hrval
  refine ⟨normalBits p neg (m * 2 ^ j) (k + Nat.log2 m), ?_, normalBits_prec .., hnum, hrval,
    (normalBits_fields hsig neg).1⟩
  rw [← hrval]
  exact roundResult_normalBits hsig rm zeroNeg neg

/-! ## The operations on numbers (43 R195, R197 to R202) -/

/-- A number of value 0 is a zero, of either sign. -/
theorem FpBits.value_eq_zero_iff {b : FpBits} (h : b.isNumber) : b.value = 0 ↔ b.classify.isZero = true := by
  rcases b.isNumber_iff.1 h with ⟨he, hf⟩ | ⟨he, he'⟩
  · exact iff_of_true (FpBits.value_zero he hf) (by rw [FpBits.classify_zero he hf]; rfl)
  · refine iff_of_false (fun h0 => ?_) (by rw [FpBits.classify_normal he he']; exact Bool.false_ne_true)
    rw [FpBits.value_normal he he', ← abs_eq_zero, abs_signed, abs_eq_zero] at h0
    exact absurd h0 (by positivity)

theorem FpBits.reserved_of_not_isNumber {b : FpBits} (h : ¬ b.isNumber) : b.classify.reserved = true := by
  simpa [FpBits.isNumber] using h

section
variable {a b : FpBits}

theorem not_reserved (ha : a.isNumber) (hb : b.isNumber) : ¬ (a.classify.reserved || b.classify.reserved) = true := by
  rw [show a.classify.reserved = false from ha, show b.classify.reserved = false from hb]
  decide

theorem reserved_of_not_isNumber (h : ¬ a.isNumber ∨ ¬ b.isNumber) :
    (a.classify.reserved || b.classify.reserved) = true :=
  Bool.or_eq_true_iff.2 (h.imp FpBits.reserved_of_not_isNumber FpBits.reserved_of_not_isNumber)

theorem fpAdd_number (p : Prec) (rm : BitVec 2) (ha : a.isNumber) (hb : b.isNumber) :
    fpAdd p rm a.classify b.classify = roundResult p rm (zeroSumSign rm a.sign b.sign) (a.value + b.value) := by
  rw [fpAdd, if_neg (not_reserved ha hb), FpBits.neg_eq_sign ha, FpBits.neg_eq_sign hb]
  rfl

theorem fpSub_number (p : Prec) (rm : BitVec 2) (ha : a.isNumber) (hb : b.isNumber) :
    fpSub p rm a.classify b.classify = roundResult p rm (zeroSumSign rm a.sign (!b.sign)) (a.value - b.value) := by
  rw [fpSub, if_neg (not_reserved ha hb), FpBits.neg_eq_sign ha, FpBits.neg_eq_sign hb]
  rfl

theorem fpMul_number (p : Prec) (rm : BitVec 2) (ha : a.isNumber) (hb : b.isNumber) :
    fpMul p rm a.classify b.classify = roundResult p rm (a.sign ^^ b.sign) (a.value * b.value) := by
  rw [fpMul, if_neg (not_reserved ha hb), FpBits.neg_eq_sign ha, FpBits.neg_eq_sign hb, Bool.bne_eq_xor]
  rfl

theorem fpDiv_number (p : Prec) (rm : BitVec 2) (ha : a.isNumber) (hb : b.isNumber) (h0 : b.value ≠ 0) :
    fpDiv p rm a.classify b.classify = roundResult p rm (a.sign ^^ b.sign) (a.value / b.value) := by
  rw [fpDiv, if_neg (not_reserved ha hb), if_neg (mt (FpBits.value_eq_zero_iff hb).2 h0), FpBits.neg_eq_sign ha,
    FpBits.neg_eq_sign hb, Bool.bne_eq_xor]
  rfl

theorem fpDiv_by_zero (p : Prec) (rm : BitVec 2) (ha : a.isNumber) (hb : b.isNumber) (h0 : b.value = 0) :
    fpDiv p rm a.classify b.classify = .error .fpDivideByZero := by
  rw [fpDiv, if_neg (not_reserved ha hb), if_pos ((FpBits.value_eq_zero_iff hb).1 h0)]

theorem fpConvert_number (p : Prec) (rm : BitVec 2) (hb : b.isNumber) :
    fpConvert p rm b.classify = roundResult p rm b.sign b.value := by
  rw [fpConvert, show b.classify.reserved = false from hb, FpBits.neg_eq_sign hb]
  rfl

theorem fpToInt_number (rm : BitVec 2) (hb : b.isNumber) :
    fpToInt rm b.classify =
      if signedFits (roundToInt rm b.value) then .ok (BitVec.ofInt 32 (roundToInt rm b.value))
      else .error .fpOverflow := by
  rw [fpToInt, show b.classify.reserved = false from hb]
  rfl

end

/-! ## The instructions -/

theorem operandBits_prec (s : State) (p : Prec) (r : Reg) : (operandBits s p r).prec = p := by cases p <;> rfl

theorem State.fpOperand_eq (s : State) (p : Prec) (r : Reg) : s.fpOperand p r = (operandBits s p r).classify := by
  rw [State.fpOperand, State.fpBits_eq]

/-- A well-formed instruction has no double result at `r31`. -/
theorem ne_last_of_pairs {qs : List Reg} {td : Prec} {d : Reg} (h : (qs ++ td.pair d).all (· != 31#5) = true)
    (hd : td = .double) : d ≠ 31#5 := by
  subst hd
  rw [List.all_append] at h
  simpa [Prec.pair] using (Bool.and_eq_true_iff.1 h).2

/-- An instruction that ends with a floating-point result writes it and nothing else. -/
theorem exec_writesFp {i : Instr} {s : State} {d : Reg} {td : Prec} {e : Except Cause FpBits} {r : FpBits}
    (hexec : exec i s = finishFp s d e) (he : e = .ok r) (hr : r.prec = td) (hd : td = .double → d ≠ 31#5) :
    ∃ t, exec i s = .next t ∧ WritesFp s t d r := by
  rw [hexec, he]
  exact ⟨_, rfl, setFp_retire s d r fun h => hd (hr.symm.trans h)⟩

/-- A condition is raised with exceptions enabled, and is the fault with exceptions inhibited (D14, D15). -/
theorem signals_of_fpCondition {i : Instr} {s : State} {c : Cause} (h : exec i s = fpCondition s c) :
    Signals i s c := by
  refine ⟨fun he => ⟨_, ?_, rfl⟩, fun he => ?_⟩
  · rw [h, fpCondition, he]
    rfl
  · rw [h, fpCondition, he]
    rfl

/-- An instruction that ends with a condition signals it. -/
theorem exec_signals {i : Instr} {s : State} {d : Reg} {e : Except Cause FpBits} {c : Cause}
    (hexec : exec i s = finishFp s d e) (he : e = .error c) : Signals i s c :=
  signals_of_fpCondition (by rw [hexec, he]; rfl)

section
variable {t1 t2 td : Prec} {d s1 s2 : Reg} {s : State}

theorem exec_fadd (hw : (Instr.fadd t1 t2 td d s1 s2).wellFormed = true) :
    exec (.fadd t1 t2 td d s1 s2) s =
      finishFp s d (fpAdd td s.rm (operandBits s t1 s1).classify (operandBits s t2 s2).classify) := by
  rw [← State.fpOperand_eq, ← State.fpOperand_eq]
  exact guardPairs_ok _ s _ hw

theorem exec_fsub (hw : (Instr.fsub t1 t2 td d s1 s2).wellFormed = true) :
    exec (.fsub t1 t2 td d s1 s2) s =
      finishFp s d (fpSub td s.rm (operandBits s t1 s1).classify (operandBits s t2 s2).classify) := by
  rw [← State.fpOperand_eq, ← State.fpOperand_eq]
  exact guardPairs_ok _ s _ hw

theorem exec_fmul (hw : (Instr.fmul t1 t2 td d s1 s2).wellFormed = true) :
    exec (.fmul t1 t2 td d s1 s2) s =
      finishFp s d (fpMul td s.rm (operandBits s t1 s1).classify (operandBits s t2 s2).classify) := by
  rw [← State.fpOperand_eq, ← State.fpOperand_eq]
  exact guardPairs_ok _ s _ hw

theorem exec_fdiv (hw : (Instr.fdiv t1 t2 td d s1 s2).wellFormed = true) :
    exec (.fdiv t1 t2 td d s1 s2) s =
      finishFp s d (fpDiv td s.rm (operandBits s t1 s1).classify (operandBits s t2 s2).classify) := by
  rw [← State.fpOperand_eq, ← State.fpOperand_eq]
  exact guardPairs_ok _ s _ hw

theorem exec_fcvt (hw : (Instr.fcvt t2 td d s2).wellFormed = true) :
    exec (.fcvt t2 td d s2) s = finishFp s d (fpConvert td s.rm (operandBits s t2 s2).classify) := by
  rw [← State.fpOperand_eq]
  exact guardPairs_ok _ s _ hw

theorem exec_flt (hw : (Instr.flt td d s2).wellFormed = true) :
    exec (.flt td d s2) s = finishFp s d (roundResult td s.rm false ((s.reg s2).toInt : ℚ)) :=
  guardPairs_ok _ s _ hw

theorem exec_fint (hw : (Instr.fint t2 d s2).wellFormed = true) :
    exec (.fint t2 d s2) s = finishFpWord s d (fpToInt s.rm (operandBits s t2 s2).classify) := by
  rw [← State.fpOperand_eq]
  exact guardPairs_ok _ s _ hw

theorem exec_fcmp (hw : (Instr.fcmp t1 t2 d s1 s2).wellFormed = true) :
    exec (.fcmp t1 t2 d s1 s2) s =
      writeBack s d (fcmpString (fpOrder (operandBits s t1 s1).classify (operandBits s t2 s2).classify)) := by
  rw [← State.fpOperand_eq, ← State.fpOperand_eq]
  exact guardPairs_ok _ s _ hw

end

/-- `x` is the exact result of `i`, one of the four operations, on the operands it names. -/
def ExactResult (i : Instr) (t1 t2 td : Prec) (d s1 s2 : Reg) (s : State) (x : ℚ) : Prop :=
  let a := operandBits s t1 s1
  let b := operandBits s t2 s2
  i = .fadd t1 t2 td d s1 s2 ∧ x = a.value + b.value ∨ i = .fsub t1 t2 td d s1 s2 ∧ x = a.value - b.value ∨
    i = .fmul t1 t2 td d s1 s2 ∧ x = a.value * b.value ∨
    i = .fdiv t1 t2 td d s1 s2 ∧ b.value ≠ 0 ∧ x = a.value / b.value

/-- Each of the four operations rounds its exact result once. -/
theorem exec_exactResult {i : Instr} {t1 t2 td : Prec} {d s1 s2 : Reg} {s : State} {x : ℚ}
    (hi : ExactResult i t1 t2 td d s1 s2 s x) (hw : i.wellFormed = true) (ha : (operandBits s t1 s1).isNumber)
    (hb : (operandBits s t2 s2).isNumber) :
    (td = .double → d ≠ 31#5) ∧ ∃ neg, exec i s = finishFp s d (roundResult td s.rm neg x) := by
  rcases hi with ⟨rfl, rfl⟩ | ⟨rfl, rfl⟩ | ⟨rfl, rfl⟩ | ⟨rfl, h0, rfl⟩
  · exact ⟨ne_last_of_pairs hw, _, by rw [exec_fadd hw, fpAdd_number _ _ ha hb]⟩
  · exact ⟨ne_last_of_pairs hw, _, by rw [exec_fsub hw, fpSub_number _ _ ha hb]⟩
  · exact ⟨ne_last_of_pairs hw, _, by rw [exec_fmul hw, fpMul_number _ _ ha hb]⟩
  · exact ⟨ne_last_of_pairs hw, _, by rw [exec_fdiv hw, fpDiv_number _ _ ha hb h0]⟩

/-! ## The four operations and the conversion (43 R192, R193, R197) -/

/-- An instruction that rounds an exact result in range writes it correctly rounded. -/
theorem exec_correctlyRounded {i : Instr} {s : State} {d : Reg} {td : Prec} {neg : Bool} {x : ℚ}
    (hexec : exec i s = finishFp s d (roundResult td s.rm neg x)) (hd : td = .double → d ≠ 31#5)
    (hlow : minNormal td ≤ |x|) (hhigh : ¬ RoundsAbove td s.rm x) :
    ∃ t r, exec i s = .next t ∧ WritesFp s t d r ∧ CorrectlyRounded td s.rm x r := by
  obtain ⟨r, hr, hcorrect⟩ := roundResult_correct neg hlow hhigh
  obtain ⟨t, ht, hwrites⟩ := exec_writesFp hexec hr hcorrect.1 hd
  exact ⟨t, r, ht, hwrites, hcorrect⟩

/-- An instruction that rounds an exact 0 writes the zero of the sign it has chosen. -/
theorem exec_writesZero {i : Instr} {s : State} {d : Reg} {td : Prec} {neg : Bool} {x : ℚ}
    (hexec : exec i s = finishFp s d (roundResult td s.rm neg x)) (hd : td = .double → d ≠ 31#5) (hx : x = 0) :
    ∃ t, exec i s = .next t ∧ WritesFp s t d (zeroBits td neg) := by
  subst hx
  exact exec_writesFp hexec (roundResult_zero td s.rm neg) (zeroBits_fields td neg).1 hd

/-- An instruction that rounds an exact result out of range signals underflow or overflow. -/
theorem exec_signals_range {i : Instr} {s : State} {d : Reg} {td : Prec} {neg : Bool} {x : ℚ}
    (hexec : exec i s = finishFp s d (roundResult td s.rm neg x)) :
    (x ≠ 0 → |x| < minNormal td → Signals i s .fpUnderflow) ∧
      (RoundsAbove td s.rm x → Signals i s .fpOverflow) :=
  ⟨fun hx h => exec_signals hexec (roundResult_underflow s.rm neg hx h),
    fun h => exec_signals hexec (roundResult_overflow neg h)⟩

/-- Settles O28: each operation rounds its exact result once, by `roundResult`, which rounds correctly in range. -/
theorem floatArithmetic : Obligations.FloatArithmetic := by
  intro i t1 t2 td d s1 s2 x s a b hi hw ha hb hlow hhigh
  obtain ⟨hd, neg, hexec⟩ := exec_exactResult hi hw ha hb
  exact exec_correctlyRounded hexec hd hlow hhigh

/-- Settles O29: the sign of a zero is the one each operation hands to `roundResult`. -/
theorem floatZeroResult : Obligations.FloatZeroResult := by
  intro i neg t1 t2 td d s1 s2 s a b ofSum hi hw ha hb
  rcases hi with ⟨rfl, hx, rfl⟩ | ⟨rfl, hx, rfl⟩ | ⟨rfl, hx, rfl⟩ | ⟨rfl, h0, hx, rfl⟩
  · exact exec_writesZero ((exec_fadd hw).trans (by rw [fpAdd_number _ _ ha hb]; rfl)) (ne_last_of_pairs hw) hx
  · exact exec_writesZero ((exec_fsub hw).trans (by rw [fpSub_number _ _ ha hb]; rfl)) (ne_last_of_pairs hw) hx
  · exact exec_writesZero ((exec_fmul hw).trans (by rw [fpMul_number _ _ ha hb])) (ne_last_of_pairs hw) hx
  · exact exec_writesZero ((exec_fdiv hw).trans (by rw [fpDiv_number _ _ ha hb h0])) (ne_last_of_pairs hw)
      (div_eq_zero_iff.2 (.inl hx))

/-- A single-precision number is rounded to double precision as it stands. -/
theorem roundResult_widen {b : FpBits} (hp : b.prec = .single) (hb : b.isNumber) (rm : BitVec 2) :
    ∃ r, roundResult .double rm b.sign b.value = .ok r ∧ r.prec = .double ∧ r.isNumber ∧ r.value = b.value ∧
      r.sign = b.sign := by
  rcases FpBits.number_cases hb with ⟨he, hf⟩ | ⟨m, e, hsig, -, hval⟩
  · obtain ⟨hprec, hsign, hnum, hval⟩ := zeroBits_fields .double b.sign
    rw [FpBits.value_zero he hf]
    exact ⟨_, roundResult_zero .double rm b.sign, hprec, hnum, hval, hsign⟩
  · obtain ⟨hm, hm', he, he'⟩ := hsig
    rw [hp] at hval hm hm' he he'
    simp only [format, Format.minExp, Format.maxExp] at hval hm hm' he he'
    rw [hval]
    exact roundResult_exact (by omega) (by simp only [format]; omega) (by simp only [format, Format.minExp]; omega)
      (by simp only [format, Format.maxExp]; omega) rm b.sign b.sign

/-- Settles O30: `fcvt` rounds the operand's value, which leaves the numbers of the result's format and those of a
narrower one. -/
theorem floatConversion : Obligations.FloatConversion := by
  intro t2 td d s2 s b hw hb
  have hprec : b.prec = t2 := operandBits_prec s t2 s2
  have hd : td = .double → d ≠ 31#5 := ne_last_of_pairs hw
  have hexec := (exec_fcvt (s := s) hw).trans (congrArg (finishFp s d) (fpConvert_number td s.rm hb))
  refine ⟨?_, ?_, ?_, ?_⟩
  · rintro rfl
    have hcopy := roundResult_number hb s.rm
    rw [hprec] at hcopy
    exact exec_writesFp hexec hcopy hprec hd
  · rintro rfl rfl
    obtain ⟨r, hr, hp, hrest⟩ := roundResult_widen hprec hb s.rm
    obtain ⟨t, ht, hwrites⟩ := exec_writesFp hexec hr hp hd
    exact ⟨t, r, ht, hwrites, hp, hrest⟩
  · exact exec_writesZero hexec hd
  · exact exec_correctlyRounded hexec hd

/-- Settles O34: a reserved operand is met first, then a zero divisor, then the range of the exact result. -/
theorem floatConditions : Obligations.FloatConditions := by
  intro i t1 t2 td d s1 s2 s hw a b
  refine ⟨?_, ?_, ?_, fun x hi ha hb => ?_, ?_⟩
  · rintro (rfl | rfl | rfl | rfl) h
    · exact exec_signals (exec_fadd hw) (if_pos (reserved_of_not_isNumber h))
    · exact exec_signals (exec_fsub hw) (if_pos (reserved_of_not_isNumber h))
    · exact exec_signals (exec_fmul hw) (if_pos (reserved_of_not_isNumber h))
    · exact exec_signals (exec_fdiv hw) (if_pos (reserved_of_not_isNumber h))
  · rintro (rfl | rfl) h
    · exact exec_signals (exec_fcvt hw) (if_pos (FpBits.reserved_of_not_isNumber h))
    · exact signals_of_fpCondition
        ((exec_fint hw).trans (congrArg (finishFpWord s d) (if_pos (FpBits.reserved_of_not_isNumber h))))
  · rintro rfl ha hb h0
    exact exec_signals (exec_fdiv hw) (fpDiv_by_zero td s.rm ha hb h0)
  · obtain ⟨-, neg, hexec⟩ := exec_exactResult hi hw ha hb
    exact exec_signals_range hexec
  · rintro rfl hb
    exact exec_signals_range ((exec_fcvt hw).trans (congrArg (finishFp s d) (fpConvert_number td s.rm hb)))

/-! ## Integers to floating point (43 R199) -/

/-- An integer that is not 0 and needs no more than 32 bits is in the range of both formats. -/
theorem int_inRange (p : Prec) (rm : BitVec 2) {n : Int} (hn : n ≠ 0) (hlt : |n| < 2 ^ 32) :
    minNormal p ≤ |(n : ℚ)| ∧ ¬ RoundsAbove p rm (n : ℚ) := by
  have hn0 : (n : ℚ) ≠ 0 := by exact_mod_cast hn
  have hone : (2 : ℚ) ^ (0 : Int) ≤ |(n : ℚ)| := by exact_mod_cast Int.one_le_abs hn
  have hhigh : |(n : ℚ)| < (2 : ℚ) ^ (32 : Int) := by exact_mod_cast hlt
  rw [two_zpow_le_abs_iff hn0] at hone
  rw [abs_lt_two_zpow_iff hn0] at hhigh
  have hmin : (format p).minExp ≤ 0 := by cases p <;> decide
  have hmax : 32 ≤ (format p).maxExp := by cases p <;> decide
  refine ⟨?_, not_roundsAbove_of_exponentOf_lt rm hn0 (hhigh.trans_le hmax)⟩
  rw [minNormal_eq, two_zpow_le_abs_iff hn0]
  exact hmin.trans hone

/-- Such an integer is a number of double precision, and rounding leaves it. -/
theorem roundResult_int_double (rm : BitVec 2) (zeroNeg : Bool) {n : Int} (hn : n ≠ 0) (hlt : |n| < 2 ^ 32) :
    ∃ r, roundResult .double rm zeroNeg (n : ℚ) = .ok r ∧ r.value = n := by
  have hval : signed (n < 0) (n.natAbs * (2 : ℚ) ^ (0 : Int)) = n := by
    rw [zpow_zero, mul_one, Nat.cast_natAbs, Int.cast_abs]
    rcases lt_or_ge n 0 with h | h
    · rw [decide_eq_true h, abs_of_neg (by exact_mod_cast h)]
      exact neg_neg _
    · rw [decide_eq_false (not_lt.2 h), abs_of_nonneg (by exact_mod_cast h)]
      rfl
  have hwidth : n.natAbs < 2 ^ ((format .double).fracBits + 1) := by
    rw [Int.abs_eq_natAbs] at hlt
    simp only [format]
    omega
  obtain ⟨r, hr, -, -, hrval, -⟩ :=
    roundResult_exact (k := 0) (Int.natAbs_ne_zero.2 hn) hwidth (by decide) (by decide) rm zeroNeg (n < 0)
  rw [hval] at hr hrval
  exact ⟨r, hr, hrval⟩

theorem abs_toInt_lt (w : Word) : |w.toInt| < 2 ^ 32 := by
  have hlow := BitVec.le_toInt w
  have hhigh := BitVec.toInt_lt (x := w)
  rw [abs_lt]
  constructor <;> omega

/-- Settles O31: `flt` rounds the integer, which is in range in both formats and a number of the wider one. -/
theorem floatFromInteger : Obligations.FloatFromInteger := by
  intro td d s2 s hw
  have hd : td = .double → d ≠ 31#5 := ne_last_of_pairs (qs := []) hw
  have hexec := exec_flt (s := s) hw
  by_cases h0 : s.reg s2 = 0#32
  · have hint : (s.reg s2).toInt = 0 := by rw [h0]; rfl
    rw [hint, Int.cast_zero] at hexec ⊢
    obtain ⟨t, ht, hwrites⟩ := exec_writesZero hexec hd rfl
    obtain ⟨-, -, -, hval⟩ := zeroBits_fields td false
    exact ⟨t, _, ht, hwrites, fun _ => rfl, fun h => absurd h0 h, fun _ => hval⟩
  · have hn : (s.reg s2).toInt ≠ 0 := fun h => h0 (BitVec.eq_of_toInt_eq h)
    obtain ⟨hlow, hhigh⟩ := int_inRange td s.rm hn (abs_toInt_lt _)
    obtain ⟨r, hr, hcorrect⟩ := roundResult_correct false hlow hhigh
    obtain ⟨t, ht, hwrites⟩ := exec_writesFp hexec hr hcorrect.1 hd
    refine ⟨t, r, ht, hwrites, fun h => absurd h h0, fun _ => hcorrect, ?_⟩
    rintro rfl
    obtain ⟨r', hr', hval⟩ := roundResult_int_double s.rm false hn (abs_toInt_lt _)
    obtain rfl : r = r' := Except.ok.inj (hr.symm.trans hr')
    exact hval

/-! ## Floating point to integers (43 R202) -/

/-- A number is rounded to an integer less than 1 away. -/
theorem abs_sub_roundToInt_lt (rm : BitVec 2) (x : ℚ) : |x - roundToInt rm x| < 1 := by
  have h := (roundMagnitude_rounds rm (x < 0) x).abs_sub_lt
  rw [roundToInt_eq]
  split
  · next hx =>
    rw [abs_of_neg hx, ← abs_neg] at h
    push_cast
    convert h using 2
    ring
  · next hx => rwa [abs_of_nonneg (not_lt.1 hx)] at h

/-- A number within the 32-bit integers is rounded to one of them. -/
theorem roundToInt_fits (rm : BitVec 2) {x : ℚ} (hlow : -2147483648 ≤ x) (hhigh : x ≤ 2147483647) :
    -2147483648 ≤ roundToInt rm x ∧ roundToInt rm x ≤ 2147483647 := by
  obtain ⟨h1, h2⟩ := abs_lt.1 (abs_sub_roundToInt_lt rm x)
  have hlow' : ((-2147483648 - 1 : Int) : ℚ) < roundToInt rm x := by push_cast; linarith
  have hhigh' : (roundToInt rm x : ℚ) < (2147483647 + 1 : Int) := by push_cast; linarith
  exact ⟨Int.sub_one_lt_iff.1 (by exact_mod_cast hlow'), Int.lt_add_one_iff.1 (by exact_mod_cast hhigh')⟩

theorem toInt_ofInt_of_fits {n : Int} (hlow : -2147483648 ≤ n) (hhigh : n ≤ 2147483647) :
    (BitVec.ofInt 32 n).toInt = n := by
  rw [BitVec.toInt_ofInt]
  exact Int.bmod_eq_of_le (by omega) (by omega)

/-- Settles O32: `roundToInt` is the one integer of the mode, and `int` tests whether it fits. -/
theorem integerFromFloat : Obligations.IntegerFromFloat := by
  intro t2 d s2 s x hw hb
  have hexec := (exec_fint (d := d) (s := s) hw).trans (congrArg (finishFpWord s d) (fpToInt_number s.rm hb))
  have hrounds : RoundsToInt s.rm x (roundToInt s.rm x) := roundToInt_rounds s.rm x
  have hfits : -2147483648 ≤ roundToInt s.rm x ∧ roundToInt s.rm x ≤ 2147483647 →
      ∃ t, exec (.fint t2 d s2) s = .next t ∧ WritesReg s t d (BitVec.ofInt 32 (roundToInt s.rm x)) := fun h =>
    exec_writesReg (hexec.trans (congrArg (finishFpWord s d) (if_pos ((signedFits_iff _).2 h)))) rfl
  refine ⟨fun hlow hhigh => ?_, fun n hn => ?_⟩
  · have h := roundToInt_fits s.rm hlow hhigh
    obtain ⟨t, ht, hwrites⟩ := hfits h
    refine ⟨t, _, ht, hwrites, ?_⟩
    rwa [toInt_ofInt_of_fits h.1 h.2]
  · obtain rfl := hn.unique hrounds
    refine ⟨hfits, fun h => signals_of_fpCondition ?_⟩
    exact hexec.trans (congrArg (finishFpWord s d) (if_neg (by rw [signedFits_eq_false h]; decide)))

/-! ## The string of `fcmp` (43 R196) -/

/-- The conditions of `fcmp` from bit 0 on, of the order of the operands. -/
def fcmpConditions (o : Option Ordering) : List Bool :=
  [o.isNone, o == some .eq, o != some .eq, o == some .gt, o == some .lt || o == some .eq, o == some .lt,
    o == some .gt || o == some .eq]

/-- Each bit of the string of `fcmp`: its condition, and 0 past bit 6. -/
theorem fcmpString_getLsbD (o : Option Ordering) (k : Nat) :
    (fcmpString o).getLsbD k = (fcmpConditions o).getD k false := by
  simp only [fcmpString, BitVec.getLsbD_or, condition_getLsbD, Nat.reduceLT]
  by_cases hk : k < 7
  · interval_cases k <;> simp [fcmpConditions]
  · obtain ⟨n, rfl⟩ := Nat.exists_eq_add_of_le' (Nat.le_of_not_lt hk)
    simp [fcmpConditions]

/-- A class that stands for a rational, subnormal numbers included. -/
def FpClass.isFinite (c : FpClass) : Bool :=
  match c with
  | .nan => false
  | .infinity _ => false
  | _ => true

/-- The value of a class among the rationals and the infinities. -/
def FpClass.extended (c : FpClass) : WithBot (WithTop ℚ) :=
  match c with
  | .infinity true => ⊥
  | .infinity false => ((⊤ : WithTop ℚ) : WithBot (WithTop ℚ))
  | c => ((c.value : WithTop ℚ) : WithBot (WithTop ℚ))

theorem FpClass.extended_of_isFinite {c : FpClass} (h : c.isFinite = true) :
    c.extended = ((c.value : WithTop ℚ) : WithBot (WithTop ℚ)) := by
  cases c with
  | nan | infinity => cases h
  | _ => rfl

theorem FpClass.isFinite_or {c : FpClass} (h : c ≠ .nan) : (∃ neg, c = .infinity neg) ∨ c.isFinite = true := by
  cases c with
  | nan => exact absurd rfl h
  | infinity neg => exact .inl ⟨neg, rfl⟩
  | _ => exact .inr rfl

theorem fpOrder_finite {a b : FpClass} (ha : a.isFinite = true) (hb : b.isFinite = true) :
    fpOrder a b = some (ratOrder a.value b.value) := by
  cases a with
  | nan | infinity => cases ha
  | _ =>
    cases b with
    | nan | infinity => cases hb
    | _ => rfl

theorem fpOrder_infinity_finite {b : FpClass} (neg : Bool) (hb : b.isFinite = true) :
    fpOrder (.infinity neg) b = some (if neg then .lt else .gt) := by
  cases b with
  | nan | infinity => cases hb
  | _ => rfl

theorem fpOrder_finite_infinity {a : FpClass} (neg : Bool) (ha : a.isFinite = true) :
    fpOrder a (.infinity neg) = some (if neg then .gt else .lt) := by
  cases a with
  | nan | infinity => cases ha
  | _ => rfl

theorem ratOrder_compares (x y : ℚ) :
    (ratOrder x y).Compares ((x : WithTop ℚ) : WithBot (WithTop ℚ)) ((y : WithTop ℚ) : WithBot (WithTop ℚ)) := by
  unfold ratOrder
  split
  · next h => exact WithBot.coe_lt_coe.2 (WithTop.coe_lt_coe.2 h)
  · split
    · next h => exact congrArg (fun q : ℚ => ((q : WithTop ℚ) : WithBot (WithTop ℚ))) h
    · next hlt hne => exact WithBot.coe_lt_coe.2 (WithTop.coe_lt_coe.2 (lt_of_le_of_ne (not_lt.1 hlt) (Ne.symm hne)))

/-- Minus infinity is below every finite value and plus infinity above. -/
theorem extended_infinity_finite (neg : Bool) (y : ℚ) :
    (if neg then Ordering.lt else .gt).Compares (FpClass.infinity neg).extended
      ((y : WithTop ℚ) : WithBot (WithTop ℚ)) := by
  cases neg with
  | false => exact WithBot.coe_lt_coe.2 (WithTop.coe_lt_top y)
  | true => exact WithBot.bot_lt_coe _

theorem extended_infinities (x y : Bool) :
    (if x = y then Ordering.eq else if x then .lt else .gt).Compares (FpClass.infinity x).extended
      (FpClass.infinity y).extended := by
  cases x <;> cases y
  · exact rfl
  · exact WithBot.bot_lt_coe _
  · exact WithBot.bot_lt_coe _
  · exact rfl

/-- The order of two operands neither of which is a NaN is that of their values (D32). -/
theorem fpOrder_compares {a b : FpClass} (ha : a ≠ .nan) (hb : b ≠ .nan) :
    ∃ o, fpOrder a b = some o ∧ o.Compares a.extended b.extended := by
  rcases FpClass.isFinite_or ha with ⟨x, rfl⟩ | ha
  · rcases FpClass.isFinite_or hb with ⟨y, rfl⟩ | hb
    · exact ⟨_, rfl, extended_infinities x y⟩
    · rw [FpClass.extended_of_isFinite hb]
      exact ⟨_, fpOrder_infinity_finite x hb, extended_infinity_finite x _⟩
  · rw [FpClass.extended_of_isFinite ha]
    rcases FpClass.isFinite_or hb with ⟨y, rfl⟩ | hb
    · refine ⟨_, fpOrder_finite_infinity y ha, ?_⟩
      have h := Ordering.Compares.swap (extended_infinity_finite y a.value)
      cases y <;> exact h
    · rw [FpClass.extended_of_isFinite hb]
      exact ⟨_, fpOrder_finite ha hb, ratOrder_compares _ _⟩

theorem fpOrder_nan {a b : FpClass} (h : a = .nan ∨ b = .nan) : fpOrder a b = none := by
  rcases h with rfl | rfl
  · cases b <;> rfl
  · cases a <;> rfl

/-- The string of two comparable operands: the six relations between them, and 0 elsewhere. -/
theorem fcmpString_of_compares {α : Type} [Preorder α] {x y : α} {o : Ordering} (h : o.Compares x y) :
    (fcmpString (some o)).getLsbD 0 = false ∧ ((fcmpString (some o)).getLsbD 1 = true ↔ x = y) ∧
      ((fcmpString (some o)).getLsbD 2 = true ↔ x ≠ y) ∧ ((fcmpString (some o)).getLsbD 3 = true ↔ y < x) ∧
      ((fcmpString (some o)).getLsbD 4 = true ↔ x ≤ y) ∧ ((fcmpString (some o)).getLsbD 5 = true ↔ x < y) ∧
      ((fcmpString (some o)).getLsbD 6 = true ↔ y ≤ x) ∧ ∀ k, 7 ≤ k → (fcmpString (some o)).getLsbD k = false := by
  rw [ne_eq, ← h.eq_eq, ← h.eq_gt, ← h.ne_gt, ← h.eq_lt, ← h.ne_lt]
  simp only [fcmpString_getLsbD]
  refine ⟨rfl, ?_, ?_, ?_, ?_, ?_, ?_, fun k hk => List.getD_eq_default _ _ hk⟩ <;> cases o <;> decide

/-- Settles O33: the string is that of the order of the operands, which has none where one is a NaN. -/
theorem floatCompare : Obligations.FloatCompare := by
  intro t1 t2 d s1 s2 s a b hw
  obtain ⟨t, ht, hwrites⟩ := exec_writesReg (exec_fcmp (d := d) (s := s) hw) rfl
  refine ⟨t, _, ht, hwrites, fun hnan => ?_, fun ha hb => ?_⟩
  · rw [fpOrder_nan hnan]
    rfl
  · obtain ⟨o, ho, hcompares⟩ := fpOrder_compares ha hb
    rw [ho]
    exact fcmpString_of_compares hcompares

end Sys2Proof.Machine

/-! # Control flow (spec 44): the words of its formats, where an instruction leaves `pc` and the pending branch -/

namespace Sys2Proof

/-! ## The words of the formats, field after field -/

/-- Format `BB` is its fields side by side (30 R89). -/
theorem encBb_eq_append (op : BitVec 5) (n : Bool) (b5 : BitVec 5) (s1 : Reg) (d16 : Half) :
    encBb op n b5 s1 d16 = op ++ BitVec.ofBool n ++ b5 ++ s1 ++ d16 := by
  refine .trans ?_ (place_word _)
  simp only [place_append]
  rfl

/-- Format `BR26` is its fields side by side (30 R90). -/
theorem encBr26_eq_append (op : BitVec 5) (n : Bool) (d26 : BitVec 26) :
    encBr26 op n d26 = op ++ BitVec.ofBool n ++ d26 := by
  refine .trans ?_ (place_word _)
  simp only [place_append]
  rfl

/-- Format `JMP` is its fields side by side, zeros where it has none (30 R91). -/
theorem encJmp_eq_append (sub : BitVec 5) (n : Bool) (s2 : Reg) :
    encJmp sub n s2 = 0b111101#6 ++ 0#10 ++ sub ++ BitVec.ofBool n ++ 0#5 ++ s2 := by
  refine .trans ?_ (place_word _)
  simp only [place_append, place_zero, BitVec.or_zero]
  rfl

end Sys2Proof

namespace Sys2Proof.Machine

/-! ## What a change of the general registers leaves of the sequence -/

theorem OnlyRegs.run_eq {s u : State} (h : OnlyRegs s u) : u.run = s.run := by rw [h.1]
theorem OnlyRegs.totInst_eq {s u : State} (h : OnlyRegs s u) : u.totInst = s.totInst := by rw [h.1]
theorem OnlyRegs.breakpoints_eq {s u : State} (h : OnlyRegs s u) : u.breakpoints = s.breakpoints := by rw [h.1]
theorem OnlyRegs.freeCount_eq {s u : State} (h : OnlyRegs s u) : u.freeCount = s.freeCount := by rw [h.1]

theorem OnlyRegs.byteAt_eq {s u : State} (h : OnlyRegs s u) (a : Nat) : u.byteAt a = s.byteAt a := by
  rw [State.byteAt, h.mem_eq, State.byteAt]

/-- The same bit of `CR` written in both. -/
theorem OnlyRegs.setCrBit {s u : State} (h : OnlyRegs s u) (k : Nat) (b : Bool) :
    OnlyRegs (s.setCrBit k b) (u.setCrBit k b) :=
  ⟨congrArg (State.setCrBit · k b) h.1, h.2⟩

/-- Completing an instruction that has written general registers advances. -/
theorem OnlyRegs.retire_advances {s u : State} (h : OnlyRegs s u) : Advances s u.retire := by
  rw [h.1]
  exact Machine.retire_advances { s with regs := u.regs }

/-! ## Completing a control-flow instruction (44 R221) -/

/-- Outside a delay slot a control-flow instruction completes. -/
theorem unlessInDelaySlot_free {s : State} (h : s.delay = none) (t : State) : unlessInDelaySlot s t = .next t := by
  simp only [unlessInDelaySlot, h]

/-- In a delay slot it is the fault (D16). -/
theorem unlessInDelaySlot_pending {s : State} {a : Word} (h : s.delay = some a) (t : State) :
    unlessInDelaySlot s t = .fault (.controlTransferInDelaySlot s.pc) := by
  simp only [unlessInDelaySlot, h]

/-- A branch after writing at most the registers of `ds`. -/
theorem OnlyRegs.branch_branches {s u : State} {ds : List Reg} (hu : OnlyRegs s u) (hr : KeepsRegs s u ds)
    (hd : s.delay = none) (n : Bool) (a : Word) : Branches s (u.branch n a) n a ds := by
  refine ⟨?_, ?_, ?_, ?_, fun r hmem => ?_, ⟨?_, ?_⟩, ⟨fun b => ?_, ?_⟩, ?_, ?_⟩
  · rw [State.branch_pc, hu.pc_eq]
  · rw [State.branch_delay, hu.delay_eq, hd]
  · rw [State.branch_run, hu.run_eq]
  · rw [State.branch_totInst, hu.totInst_eq]
  · rw [State.branch_reg, hr r hmem]
  · rw [State.branch_cr, hu.cr_eq]
  · rw [State.branch_freeCount, hu.freeCount_eq]
  · rw [State.byteAt_branch, hu.byteAt_eq]
  · rw [State.branch_stored, hu.stored_eq]
  · rw [State.branch_cfg, hu.cfg_eq]
  · rw [State.branch_breakpoints, hu.breakpoints_eq]

/-- A branch that writes no register. -/
theorem branch_branches {s : State} (hd : s.delay = none) (n : Bool) (a : Word) :
    Branches s (s.branch n a) n a [] :=
  (OnlyRegs.refl s).branch_branches (KeepsRegs.refl s []) hd n a

/-- Outside a delay slot, going to the next instruction is a branch to it without a delay slot. -/
theorem retire_branches {s : State} (hd : s.delay = none) : Branches s s.retire false (s.pc + 4#32) [] := by
  refine ⟨?_, rfl, rfl, rfl, KeepsRegs.refl s [], KeepsCr.refl s, KeepsMemory.refl s, KeepsHost.refl s⟩
  rw [State.retire_pc, State.nextPc_eq, hd]
  rfl

/-- A call leaves its return address in `r1` and writes no other register (44 R222). -/
theorem call_branches {s : State} (hd : s.delay = none) (n : Bool) (v a : Word) :
    ((s.setReg 1#5 v).branch n a).reg 1#5 = v ∧ Branches s ((s.setReg 1#5 v).branch n a) n a [1#5] := by
  refine ⟨?_, (OnlyRegs.setReg s 1#5 v).branch_branches (fun r hr => ?_) hd n a⟩
  · rw [State.branch_reg, State.reg_setReg_same]
    rfl
  · exact State.reg_setReg_other s 1#5 r v (by simpa using hr)

/-! ## The control-flow instructions -/

/-- Every control-flow instruction, taken or not, completes only outside a delay slot. -/
theorem exec_controlFlow {i : Instr} (s : State) (h : i.isControlFlow = true) :
    ∃ t, exec i s = unlessInDelaySlot s t := by
  cases i with
  | bb0 | bb1 | br | bsr | jmp | jsr => exact ⟨_, rfl⟩
  | _ => cases h

/-- Settles O37. -/
theorem delaySlotFault : Obligations.DelaySlotFault := by
  intro i s a hflow hpending
  obtain ⟨t, ht⟩ := exec_controlFlow s hflow
  rw [ht, unlessInDelaySlot_pending hpending]

/-- `bb0` and `bb1` branch when the bit is the one they name, and go on when it is not (44 R223, R224). -/
theorem exec_branchOnBit (one n : Bool) (b : BitVec 5) (s1 : Reg) (x : Half) (s : State) :
    exec (if one then .bb1 n b s1 x else .bb0 n b s1 x) s =
      unlessInDelaySlot s
        (if (s.reg s1).getLsbD b.toNat = one then s.branch n (target16 s x) else s.retire) := by
  cases one with
  | true => rfl
  | false =>
    change execBb0 n b s1 x s = _
    rw [execBb0]
    cases (s.reg s1).getLsbD b.toNat <;> rfl

/-- Settles O35: each word is format `BB` side by side, and `exec_branchOnBit` says which way each instruction goes. -/
theorem branchOnBit : Obligations.BranchOnBit := by
  intro n b s1 x s target
  refine ⟨decode_of_encode_eq (encBb_eq_append _ n b s1 x), decode_of_encode_eq (encBb_eq_append _ n b s1 x), ?_⟩
  rintro hd i one rfl
  rw [exec_branchOnBit, unlessInDelaySlot_free hd]
  refine ⟨fun htaken => ⟨_, rfl, ?_⟩, fun hnot => ⟨_, rfl, ?_⟩⟩
  · rw [if_pos htaken]
    exact branch_branches hd n target
  · rw [if_neg hnot]
    exact retire_branches hd

/-- Settles O36: each word is its format side by side; the calls read their target in the state before `r1` is
written (D30). -/
theorem unconditionalBranches : Obligations.UnconditionalBranches := by
  intro n x s2 s back near far
  refine ⟨?_, ?_, ?_, ?_, fun hd => ⟨?_, ?_, ?_, ?_⟩⟩
  · exact decode_of_encode_eq (encBr26_eq_append _ n x)
  · exact decode_of_encode_eq (encBr26_eq_append _ n x)
  · exact decode_of_encode_eq (encJmp_eq_append _ n s2)
  · exact decode_of_encode_eq (encJmp_eq_append _ n s2)
  · exact ⟨_, unlessInDelaySlot_free hd _, branch_branches hd n near⟩
  · exact ⟨_, unlessInDelaySlot_free hd _, call_branches hd n back near⟩
  · exact ⟨_, unlessInDelaySlot_free hd _, branch_branches hd n far⟩
  · exact ⟨_, unlessInDelaySlot_free hd _, call_branches hd n back far⟩

/-! ## Every instruction (44 R221) -/

/-- An instruction that leaves the machine running has advanced, in no delay slot if it is one of control flow, or has
branched, from no delay slot. -/
theorem Effect.advances_or_branches {i : Instr} {s t : State} (e : Effect i s t) (ht : t.run = .running) :
    (Advances s t ∧ (i.isControlFlow = true → s.delay = none)) ∨
      (i.isControlFlow = true ∧ s.delay = none ∧ ∃ u n a, OnlyRegs s u ∧ t = u.branch n a) := by
  cases e with
  | registers u hu hd => exact .inl ⟨hu.retire_advances, hd⟩
  | carry u c hu _ _ hf => exact .inl ⟨(hu.setCrBit 28 c).retire_advances, by simp [hf]⟩
  | records k c hk _ _ _ hf =>
    obtain ⟨-, -, -, hadv⟩ := recordFlag_retire_allBut s k (hk.imp And.left And.left)
    exact .inl ⟨hadv, by simp [hf]⟩
  | raises => cases ht
  | branches u n a hu hd _ hf => exact .inr ⟨hf, hd, u, n, a, hu, rfl⟩
  | stores a n v u _ _ hu _ hf => exact .inl ⟨hu.retire_advances, by simp [hf]⟩
  | control v _ _ _ hf => exact .inl ⟨retire_advances { s with cr := v }, by simp [hf]⟩
  | stops => cases ht

/-- No instruction makes a machine run again. -/
theorem running_of_exec {i : Instr} {s t : State} (h : exec i s = .next t) (ht : t.run = .running) :
    s.run = .running := by
  rcases (exec_effect i s t h).advances_or_branches ht with ⟨⟨-, -, hrun, -⟩, -⟩ | ⟨-, -, u, n, a, hu, rfl⟩
  · exact hrun.symm.trans ht
  · rw [← hu.run_eq, ← State.branch_run u n a, ht]

/-- Settles O8, by the two ways an instruction leaves the machine running (`Effect.advances_or_branches`). -/
theorem sequencing : Obligations.Sequencing := by
  intro i s t _ h ht
  rcases (exec_effect i s t h).advances_or_branches ht with
    ⟨⟨hpc, hdelay, -, htot, -⟩, hfree⟩ | ⟨hflow, hfree, u, n, a, hu, rfl⟩
  · exact ⟨htot, fun _ => ⟨hpc, hdelay⟩, fun hflow => ⟨hfree hflow, .inl hdelay⟩⟩
  · refine ⟨by rw [State.branch_totInst, hu.totInst_eq], by simp [hflow], fun _ => ⟨hfree, ?_⟩⟩
    cases n with
    | false => exact .inl (hu.delay_eq.trans hfree)
    | true => exact .inr (congrArg (· + 4#32) hu.pc_eq)

/-- Settles O38, by `sequencing` twice: only a control-flow instruction leaves a branch pending, and none is executed
with one pending. -/
theorem delayedBranch : Obligations.DelayedBranch := by
  intro i j s t u a hs hi hpending hj hu
  have ht := running_of_exec hj hu
  obtain ⟨-, hplain, htransfer⟩ := sequencing i s t hs hi ht
  obtain ⟨-, hslot, hslotTransfer⟩ := sequencing j t u ht hj hu
  have hne : t.delay ≠ none := by simp [hpending]
  have hiflow : i.isControlFlow = true := by
    by_contra hn
    exact hne (hplain (Bool.eq_false_iff.2 hn)).2
  have hjflow : j.isControlFlow = false := Bool.eq_false_iff.2 fun hflow => hne (hslotTransfer hflow).1
  obtain ⟨hupc, hudelay⟩ := hslot hjflow
  refine ⟨hiflow, (htransfer hiflow).2.resolve_left hne, hjflow, ?_, hudelay⟩
  rw [hupc, hpending]
  rfl

end Sys2Proof.Machine

/-! # Loads, stores and exchange (spec 45): the words of their formats, values loaded, bytes stored, faults, `CR` -/

namespace Sys2Proof

/-! ## The words of the formats, field after field -/

/-- Format `TRI` with its option bit 9, as the stores have it for `.wt`, is its fields side by side, its sub-opcode in
bits 15:10 (30 R86, R94). -/
theorem encTri_writeThrough_eq_append (major : BitVec 6) (d s1 : Reg) {sub : BitVec 6} {sub11 : BitVec 11} (wt : Bool)
    (s2 : Reg) (h : sub ++ 0#5 = sub11) :
    encTri major d s1 sub11 s2 ||| optionBit wt 9 = major ++ d ++ s1 ++ sub ++ BitVec.ofBool wt ++ 0#4 ++ s2 := by
  subst h
  refine .trans ?_ (place_word _)
  simp only [encTri, optionBit, place_append, place_zero, BitVec.or_zero]
  rw [BitVec.or_assoc, BitVec.or_comm (place s2 0), ← BitVec.or_assoc]

/-- The word of `ldcr` is its fields side by side (30 R92). -/
theorem encode_ldcr (d : Reg) : encode (.ldcr d) = 0b100000#6 ++ d ++ 0#21 := by
  refine .trans ?_ (place_word _)
  simp only [place_append, place_zero, BitVec.or_zero]
  rfl

/-- The word of `stcr` is its fields side by side (30 R92). -/
theorem encode_stcr (s1 : Reg) : encode (.stcr s1) = 0b100000#6 ++ 0#5 ++ s1 ++ 0x8000#16 := by
  refine .trans ?_ (place_word _)
  simp only [place_append, place_zero, BitVec.or_zero]
  rfl

end Sys2Proof

namespace Sys2Proof.Machine

/-! ## Loads (45 R241) -/

/-- An instruction that is a load of `n` bytes writes the extended value and nothing else, in whatever form that value
is given. -/
theorem exec_load {i : Instr} {s : State} {n : Nat} {ext : DWord → Word} {d : Reg} {ea : Word} {v : Word}
    (h : exec i s = load s n ext d ea) (hv : ext (assemble s.le (s.mem.readBytes ea.toNat n)) = v)
    (ha : IsAligned ea n) (hr : InRange ea n) (hn : n ∈ [1, 2, 4, 8] := by decide) :
    ∃ t, exec i s = .next t ∧ WritesReg s t d v := by
  rw [h, ← hv]
  exact load_writesReg s n ext d ea hn hr ha

theorem sextByte_assemble (s : State) (a : Nat) :
    sextByte (assemble s.le (s.mem.readBytes a 1)) = (s.byteAt a).signExtend 32 := by
  rw [sextByte, assemble_one]

theorem zextByte_assemble (s : State) (a : Nat) :
    zextByte (assemble s.le (s.mem.readBytes a 1)) = (s.byteAt a).setWidth 32 := by
  rw [zextByte, assemble_one]

theorem sextHalf_assemble (s : State) (a : Nat) :
    sextHalf (assemble s.le (s.mem.readBytes a 2)) = (halfAt s a).signExtend 32 := by
  rw [sextHalf, assemble_two]

theorem zextHalf_assemble (s : State) (a : Nat) :
    zextHalf (assemble s.le (s.mem.readBytes a 2)) = (halfAt s a).setWidth 32 := by
  rw [zextHalf, assemble_two]

theorem lowWord_assemble (s : State) (a : Nat) : lowWord (assemble s.le (s.mem.readBytes a 4)) = wordAt s a :=
  assemble_four s a

/-- An instruction that loads a double word writes it to its pair, where that is not at `r31`, and nothing else. -/
theorem exec_loadDouble {i : Instr} {s : State} {d : Reg} {ea : Word} (h : exec i s = loadDouble s d ea)
    (hd : d ≠ 31#5) (ha : IsAligned ea 8) (hr : InRange ea 8) :
    ∃ t, exec i s = .next t ∧ WritesPair s t d (dwordAt s ea.toNat) := by
  have hload : loadDouble s d ea = .next (s.setPair d (dwordAt s ea.toNat)).retire := by
    rw [loadDouble, guardPairs_ok [d] s _ (by simpa using hd), memRead_ok (checkAccess_ok s ea 8 (by decide) hr ha),
      assemble_eight]
  exact ⟨_, h.trans hload, setPair_retire s d _ hd⟩

/-! ## Stores (45 R241) -/

/-- An instruction that is a store of `n` bytes stores them and nothing else, in whatever form they are given. -/
theorem exec_storeBytes {i : Instr} {s : State} {n : Nat} {v : DWord} {ea : Word} {bs : List Byte}
    (h : exec i s = storeBytes s n v ea) (hbs : bytesOf s.le n v = bs) (hm : s.mem.wf) (ha : IsAligned ea n)
    (hr : InRange ea n) (hn : n ∈ [1, 2, 4, 8] := by decide) :
    ∃ t, exec i s = .next t ∧ StoresOnly s t ea.toNat bs := by
  rw [h, ← hbs]
  exact storeBytes_storesOnly s n v ea hn hr ha hm

/-- A store of a pair that is not at `r31` is a store of its double word. -/
theorem storeDouble_eq (s : State) {d : Reg} (ea : Word) (hd : d ≠ 31#5) :
    storeDouble s d ea = storeBytes s 8 (s.pair d) ea :=
  guardPairs_ok [d] s _ (by simpa using hd)

/-- An instruction that stores a pair stores its double word, where it is not at `r31`, and nothing else. -/
theorem exec_storeDouble {i : Instr} {s : State} {d : Reg} {ea : Word} (h : exec i s = storeDouble s d ea)
    (hm : s.mem.wf) (hd : d ≠ 31#5) (ha : IsAligned ea 8) (hr : InRange ea 8) :
    ∃ t, exec i s = .next t ∧
      StoresOnly s t ea.toNat (inOrder s (wordBytes (s.reg (d + 1#5)) ++ wordBytes (s.reg d))) :=
  exec_storeBytes (h.trans (storeDouble_eq s ea hd)) (bytesOf_pair s d) hm ha hr

/-! ## Faults -/

/-- The two faults of an access, each where the other check passes (20 R55, R58). -/
theorem exec_access_stops {i : Instr} {s : State} {ea : Word} {n : Nat} (hw : i.wellFormed = true)
    (h : i.access s = some (ea, n)) :
    (IsAligned ea n → ¬ InRange ea n → exec i s = .fault (.addressOutOfRange s.pc ea)) ∧
      (¬ IsAligned ea n → InRange ea n → exec i s = .fault (.misaligned s.pc ea n)) := by
  obtain ⟨hrange, halign⟩ := accessFaults i s ea n hw h
  exact ⟨fun _ hr => hrange hr, fun ha hr => halign hr ha⟩

/-- The three faults of an instruction whose only pair is at `rD` and whose access is of that pair: the one of the pair
first (10 R24), then those of the access. -/
theorem exec_double_stops {i : Instr} {s : State} {d : Reg} {ea : Word} (hp : i.wellFormed = [d].all (· != 31#5))
    (h : i.access s = some (ea, 8)) :
    (d = 31#5 → exec i s = .fault (.pairAtR31 s.pc)) ∧
      (d ≠ 31#5 → IsAligned ea 8 → ¬ InRange ea 8 → exec i s = .fault (.addressOutOfRange s.pc ea)) ∧
      (d ≠ 31#5 → ¬ IsAligned ea 8 → InRange ea 8 → exec i s = .fault (.misaligned s.pc ea 8)) := by
  have hwf : d ≠ 31#5 → i.wellFormed = true := fun hd => hp.trans (by simpa using hd)
  refine ⟨fun hd => pairAtLastRegister i s (hp.trans (by simp [hd])), fun hd => ?_, fun hd => ?_⟩
  · exact (exec_access_stops (hwf hd) h).1
  · exact (exec_access_stops (hwf hd) h).2

/-! ## Loads with an immediate and with a register -/

/-- Settles O39: each word is its format side by side; a byte access is always aligned, so its only fault is that of the
range (`accessFaults`). -/
theorem loadByte : Obligations.LoadByte := by
  intro d s1 s2 x s ea ear
  have hfault : ∀ {i : Instr} {a : Word}, i.wellFormed = true → i.access s = some (a, 1) → ¬ InRange a 1 →
      exec i s = .fault (.addressOutOfRange s.pc a) := fun hw ha => (accessFaults _ s _ 1 hw ha).1
  refine ⟨?_, ?_, ?_, fun hr => ⟨?_, ?_⟩, fun hr => ?_, fun hr => ⟨?_, ?_⟩, fun hr => ?_⟩
  · exact decode_of_encode_eq (encImm16_eq_append _ d s1 x)
  · exact decode_of_encode_eq (encImm16_eq_append _ d s1 x)
  · exact decode_of_encode_eq (encTri_eq_append _ d s1 _ s2)
  · exact exec_load rfl (sextByte_assemble s _) (isAligned_one ea) hr
  · exact exec_load rfl (zextByte_assemble s _) (isAligned_one ea) hr
  · exact exec_load rfl (zextByte_assemble s _) (isAligned_one ear) hr
  · exact hfault rfl rfl hr
  · exact hfault rfl rfl hr
  · exact hfault rfl rfl hr

/-- Settles O40: each word is its format side by side, each instruction is a load with its extension, and its faults are
those of its access. -/
theorem loadHalfAndWord : Obligations.LoadHalfAndWord := by
  intro d s1 s2 x s ea ear stops
  have hword := fun op => encImm16_eq_append op d s1 x
  refine ⟨⟨?_, ?_, ?_⟩, ⟨?_, ?_, ?_⟩, ⟨?_, ?_, ?_⟩, ?_, ?_, ?_⟩
  · exact decode_of_encode_eq (hword _)
  · exact exec_access_stops rfl rfl
  · exact exec_load rfl (sextHalf_assemble s _)
  · exact decode_of_encode_eq (hword _)
  · exact exec_access_stops rfl rfl
  · exact exec_load rfl (zextHalf_assemble s _)
  · exact decode_of_encode_eq (hword _)
  · exact exec_access_stops rfl rfl
  · exact exec_load rfl (lowWord_assemble s _)
  · exact decode_of_encode_eq (encTri_eq_append _ d s1 _ s2)
  · exact exec_access_stops rfl rfl
  · exact exec_load rfl (zextHalf_assemble s _)

/-- Settles O42: the loads of the immediate forms at the address of the register form. -/
theorem loadIndexed : Obligations.LoadIndexed := by
  intro d s1 s2 s ea
  have hword := fun sub => encTri_eq_append ldstRegMajor d s1 sub s2
  refine ⟨?_, ?_, ?_, ?_, ?_, ?_, ?_, ?_⟩
  · exact decode_of_encode_eq (hword _)
  · exact decode_of_encode_eq (hword _)
  · exact decode_of_encode_eq (hword _)
  · exact decode_of_encode_eq (hword _)
  · exact exec_loadDouble rfl
  · exact exec_load rfl (lowWord_assemble s _)
  · exact exec_load rfl (sextHalf_assemble s _)
  · exact exec_load rfl (sextByte_assemble s _) (isAligned_one ea)

/-! ## Double words, stores and exchange -/

/-- Settles O41: the pair is checked first, then the access, then the double word is loaded or stored. -/
theorem doubleImmediate : Obligations.DoubleImmediate := by
  intro d s1 x s hm ea stops
  refine ⟨?_, ?_, ?_, ?_, fun hd ha hr => ⟨?_, ?_⟩⟩
  · exact decode_of_encode_eq (encImm16_eq_append _ d s1 x)
  · exact exec_double_stops rfl rfl
  · exact decode_of_encode_eq (encImm16_eq_append _ d s1 x)
  · exact exec_double_stops rfl rfl
  · exact exec_loadDouble rfl hd ha hr
  · exact exec_storeDouble rfl hm hd ha hr

/-- Settles O43: each instruction is a store of the low bytes of `rD`, and its faults are those of its access. -/
theorem storeImmediate : Obligations.StoreImmediate := by
  intro d s1 x s hm ea stores
  have hword := fun op => encImm16_eq_append op d s1 x
  refine ⟨⟨?_, ?_, ?_⟩, ⟨?_, ?_, ?_⟩, ?_, ?_, ?_⟩
  · exact decode_of_encode_eq (hword _)
  · exact exec_storeBytes rfl (bytesOf_four s _) hm
  · exact exec_access_stops rfl rfl
  · exact decode_of_encode_eq (hword _)
  · exact exec_storeBytes rfl (bytesOf_two s _) hm
  · exact exec_access_stops rfl rfl
  · exact decode_of_encode_eq (hword _)
  · exact exec_storeBytes rfl (bytesOf_one s _) hm
  · exact exec_access_stops rfl rfl

/-- Settles O44: the stores of the immediate forms at the address of the register form; no meaning looks at `.wt`. -/
theorem storeIndexed : Obligations.StoreIndexed := by
  intro wt d s1 s2 s hm ea stores
  refine ⟨⟨?_, ?_⟩, ⟨?_, ?_⟩, ⟨?_, ?_⟩, ?_, ?_⟩
  · exact decode_of_encode_eq (encTri_writeThrough_eq_append _ d s1 wt s2 rfl)
  · exact exec_storeDouble rfl hm
  · exact decode_of_encode_eq (encTri_writeThrough_eq_append _ d s1 wt s2 rfl)
  · exact exec_storeBytes rfl (bytesOf_four s _) hm
  · exact decode_of_encode_eq (encTri_writeThrough_eq_append _ d s1 wt s2 rfl)
  · exact exec_storeBytes rfl (bytesOf_two s _) hm
  · exact decode_of_encode_eq (encTri_writeThrough_eq_append _ d s1 wt s2 rfl)
  · exact exec_storeBytes rfl (bytesOf_one s _) hm

/-- What was stored stays so under whatever leaves memory. -/
theorem StoresBytes.trans_keepsMemory {s u t : State} {ea : Nat} {bs : List Byte} (h : StoresBytes s u ea bs)
    (hk : KeepsMemory u t) : StoresBytes s t ea bs := by
  obtain ⟨hsame, hother, hstored⟩ := h
  obtain ⟨hbyte, hrecord⟩ := hk
  refine ⟨fun k b hb => ?_, fun a ha => ?_, fun a => ?_⟩
  · rw [hbyte, hsame k b hb]
  · rw [hbyte, hother a ha]
  · rw [hrecord, hstored]

/-- An exchange in range and aligned: the word of `rD` is stored and the word that was there goes to `rD`, both taken
from the state before (D30). -/
theorem execXmem_ok {s : State} {s1 s2 : Reg} (d : Reg) (ha : IsAligned (eaReg s s1 s2) 4)
    (hr : InRange (eaReg s s1 s2) 4) :
    execXmem d s1 s2 s =
      writeBack (s.store (eaReg s s1 s2) 4 ((s.reg d).setWidth 64)) d (wordAt s (eaReg s s1 s2).toNat) := by
  rw [execXmem, memRead_ok (checkAccess_ok s _ 4 (by decide) hr ha), ← lowWord_assemble]

/-- Settles O45: a store of the word of `rD`, which changes no register, and then a write of the word loaded before it,
which leaves what was stored. -/
theorem exchange : Obligations.Exchange := by
  intro d s1 s2 s hm ea ha hr
  obtain ⟨t, ht, hd, hregs, hcr, hmem, hadv⟩ :=
    writeBack_writesReg (s.store ea 4 ((s.reg d).setWidth 64)) d (wordAt s ea.toNat)
  have hstore := store_storesBytes s ea 4 ((s.reg d).setWidth 64) hm
  rw [bytesOf_four] at hstore
  exact ⟨t, (execXmem_ok d ha hr).trans ht, hd, hregs, hcr, hstore.trans_keepsMemory hmem, hadv⟩

/-! ## The control register -/

/-- Settles O50: under CR_UNUSED_BITS = as-written `ldcr` writes back `CR` as it is. -/
theorem loadControl : Obligations.LoadControl := by
  intro d s
  exact ⟨decode_of_encode_eq (encode_ldcr d), exec_writesReg rfl rfl⟩

/-- `stcr` of a value that keeps the byte order of the load (D26). -/
theorem execStcr_sameOrder {s1 : Reg} {s : State} (h : (s.reg s1).getLsbD 30 = s.cfg.littleEndian) :
    execStcr s1 s = .next { s with cr := s.reg s1 }.retire := by
  rw [execStcr, if_neg (by rw [bne_eq_false_iff_eq.2 h, Bool.and_false]; exact Bool.false_ne_true)]

/-- `stcr` of a value that changes the byte order of the load (D18). -/
theorem execStcr_otherOrder {s1 : Reg} {s : State} (h : (s.reg s1).getLsbD 30 ≠ s.cfg.littleEndian) :
    execStcr s1 s = .fault (.byteOrderChanged s.pc) := by
  rw [execStcr, if_pos (by rw [bne_iff_ne.2 h]; rfl)]

/-- Settles O51: bit 30 of the value decides between the write and the fault. -/
theorem storeControl : Obligations.StoreControl := by
  intro s1 s
  refine ⟨decode_of_encode_eq (encode_stcr s1), fun h => ?_, execStcr_otherOrder⟩
  exact ⟨_, execStcr_sameOrder h, rfl, rfl, fun _ _ => rfl, .of_eq rfl rfl, retire_advances { s with cr := s.reg s1 }⟩

end Sys2Proof.Machine

/-! # `stop` (spec 46): what an instruction makes of the run state -/

namespace Sys2Proof.Machine

/-- `stop` meets no condition: in every state it ends the run (46 R280). -/
theorem exec_stop (s : State) : exec .stop s = .next s.halt := rfl

/-- `stop` leaves the run state `stopped`, every other instruction the one there was, unless it raises an exception. -/
theorem Effect.run_cases {i : Instr} {s t : State} (e : Effect i s t) :
    t.run = s.run ∨ (∃ c, s.ei = false ∧ c ∈ i.causes ∧ Raises s t c) ∨ (i = .stop ∧ t = s.halt) := by
  cases e with
  | registers u hu => exact .inl hu.run_eq
  | carry u c hu => exact .inl hu.run_eq
  | records k => exact .inl (s.recordFlag_run k)
  | raises c he hc => exact .inr (.inl ⟨c, he, hc, rfl⟩)
  | branches u n a hu => exact .inl ((u.branch_run n a).trans hu.run_eq)
  | stores a n v u _ _ hu => exact .inl hu.run_eq
  | control => exact .inl rfl
  | stops h1 => exact .inr (.inr ⟨h1, rfl⟩)

/-- Settles O53: `State.halt` is the effect of `stop`, and by `Effect.run_cases` no other effect gives a stopped
state from a running one. -/
theorem stopEndsTheRun : Obligations.StopEndsTheRun := by
  refine ⟨fun s => ⟨s.halt, exec_stop s, s.halt_run, s.halt_pc, s.halt_delay, s.halt_totInst,
    KeepsRegs.refl s [], KeepsCr.refl s, KeepsMemory.refl s, KeepsHost.refl s⟩, fun i s t hs h ht => ?_⟩
  rcases (exec_effect i s t h).run_cases with hrun | ⟨c, -, -, rfl⟩ | ⟨hstop, -⟩
  · rw [hrun, hs] at ht
    cases ht
  · cases ht
  · exact hstop

end Sys2Proof.Machine

/-! # Exceptions (spec 60): what the run state records -/

namespace Sys2Proof.Machine

/-- Settles O54: by `Effect.run_cases` only the raising effect makes an exception of a running state; the other effects
leave the run state as it was, or `stop` makes it `stopped`. -/
theorem preciseExceptions : Obligations.PreciseExceptions := by
  intro i s t c p hs h ht
  rcases (exec_effect i s t h).run_cases with hrun | ⟨c', he, hc, hraises⟩ | ⟨-, rfl⟩
  · rw [hrun, hs] at ht
    cases ht
  · have hrecord : RunState.exception c' s.pc = .exception c p := by rw [← ht, hraises]
    cases hrecord
    exact ⟨hc, he, rfl, hraises⟩
  · rw [s.halt_run] at ht
    cases ht

end Sys2Proof.Machine

/-! # Loading (spec 70): the memory an image is placed in, the state a machine starts in -/

namespace Sys2Proof.Machine

/-! ## Placing blocks of bytes -/

/-- The addresses and the count of the bytes of a block. -/
def blockRange (b : Nat × List Byte) : Nat × Nat := (b.1, b.2.length)

/-- A memory with blocks of bytes written one after another. -/
def Memory.place (m : Memory) (bs : List (Nat × List Byte)) : Memory :=
  bs.foldl (fun mem b => mem.writeBytes b.1 b.2) m

@[simp] theorem Memory.place_nil (m : Memory) : m.place [] = m := rfl
@[simp] theorem Memory.place_cons (m : Memory) (b : Nat × List Byte) (bs : List (Nat × List Byte)) :
    m.place (b :: bs) = (m.writeBytes b.1 b.2).place bs := rfl

theorem Memory.place_wf {m : Memory} (h : m.wf) (bs : List (Nat × List Byte)) : (m.place bs).wf := by
  induction bs generalizing m with
  | nil => exact h
  | cons b bs ih => exact ih (Memory.writeBytes_wf m b.1 b.2 h)

/-- Blocks below a bound leave every entry below it. -/
theorem Memory.place_range {m : Memory} {N : Nat} (h : ∀ c ∈ m, c.1 < N) {bs : List (Nat × List Byte)}
    (hbs : ∀ b ∈ bs, b.1 + b.2.length ≤ N) : ∀ c ∈ m.place bs, c.1 < N := by
  induction bs generalizing m with
  | nil => exact h
  | cons b bs ih =>
    obtain ⟨hb, htail⟩ := List.forall_mem_cons.1 hbs
    exact ih (Memory.writeBytes_range m b.1 b.2 N h hb) htail

/-- An address outside every block reads as before. -/
theorem Memory.read_place_other (m : Memory) {bs : List (Nat × List Byte)} {a : Nat}
    (h : ∀ b ∈ bs, a < b.1 ∨ b.1 + b.2.length ≤ a) : (m.place bs).read a = m.read a := by
  induction bs generalizing m with
  | nil => rfl
  | cons b bs ih =>
    obtain ⟨hb, htail⟩ := List.forall_mem_cons.1 h
    rw [Memory.place_cons, ih _ htail, Memory.read_writeBytes_other m b.1 b.2 a hb]

/-- A byte of a range is outside every range apart from it. -/
theorem outside_of_apartRanges {x y : Nat × Nat} {k : Nat} (h : apartRanges x y = true) (hk : k < x.2) :
    x.1 + k < y.1 ∨ y.1 + y.2 ≤ x.1 + k := by
  simp only [apartRanges, Bool.or_eq_true, decide_eq_true_eq] at h
  omega

/-- Where no two blocks share a byte, the bytes of each are read: no later block is written over them. -/
theorem Memory.read_place_same {m : Memory} (h : m.wf) {bs : List (Nat × List Byte)}
    (hapart : bs.Pairwise (fun b c => apartRanges (blockRange b) (blockRange c) = true)) {b : Nat × List Byte}
    (hb : b ∈ bs) {k : Nat} {x : Byte} (hx : b.2[k]? = some x) : (m.place bs).read (b.1 + k) = x := by
  induction bs generalizing m with
  | nil => cases hb
  | cons c bs ih =>
    obtain ⟨hc, htail⟩ := List.pairwise_cons.1 hapart
    rcases List.mem_cons.1 hb with rfl | hb
    · obtain ⟨hk, -⟩ := List.getElem?_eq_some_iff.1 hx
      have houtside : ∀ d ∈ bs, b.1 + k < d.1 ∨ d.1 + d.2.length ≤ b.1 + k :=
        fun d hd => outside_of_apartRanges (hc d hd) hk
      rw [Memory.place_cons, Memory.read_place_other _ houtside]
      exact Memory.read_writeBytes_same m b.1 b.2 k x h hx
    · exact ih (Memory.writeBytes_wf m c.1 c.2 h) htail hb

/-! ## Images (70 R330, R331, R334) -/

@[simp] theorem reservedBytes_length (free : Nat → Byte) (a n : Nat) : (reservedBytes free a n).length = n := by
  induction n generalizing a with
  | zero => rfl
  | succ n ih => simp [reservedBytes, ih]

/-- Every reserved byte is the free value of its own address (70 R334). -/
theorem reservedBytes_getElem? (free : Nat → Byte) (a : Nat) {n k : Nat} (h : k < n) :
    (reservedBytes free a n)[k]? = some (free (a + k)) := by
  induction n generalizing a k with
  | zero => omega
  | succ n ih =>
    cases k with
    | zero => rfl
    | succ k =>
      rw [reservedBytes, List.getElem?_cons_succ, ih (a + 1) (by omega)]
      congr 2
      omega

/-- All that loading an image writes: its blocks, and its reserved ranges filled with free values. -/
def Image.contents (m : Image) (free : Nat → Byte) : List (Nat × List Byte) :=
  m.blocks ++ m.reserved.map (fun r => (r.1, reservedBytes free r.1 r.2))

/-- Memory after loading is the contents placed in an empty memory. -/
theorem Image.memory_eq_place (m : Image) (free : Nat → Byte) : m.memory free = Memory.place [] (m.contents free) := by
  rw [Image.memory, Memory.place, Image.contents, List.foldl_append, List.foldl_map]

/-- The contents occupy the ranges of the image, in order. -/
theorem Image.contents_map_blockRange (m : Image) (free : Nat → Byte) :
    (m.contents free).map blockRange = m.ranges := by
  simp [Image.contents, Image.ranges, blockRange, Function.comp_def]

theorem Image.blockRange_mem_ranges {m : Image} {free : Nat → Byte} {b : Nat × List Byte} (hb : b ∈ m.contents free) :
    blockRange b ∈ m.ranges := by
  rw [← m.contents_map_blockRange free]
  exact List.mem_map_of_mem hb

/-- `allApart` compares every two ranges of a list. -/
theorem allApart_iff (rs : List (Nat × Nat)) :
    allApart rs = true ↔ rs.Pairwise (fun x y => apartRanges x y = true) := by
  induction rs with
  | nil => simp [allApart]
  | cons r rs ih => rw [allApart, Bool.and_eq_true, List.all_eq_true, ih, List.pairwise_cons]

/-- What a well-formed image gives (70 R330, R332, 93 U23). -/
theorem Image.wellFormed_inv {m : Image} (h : m.wellFormed = true) :
    m.entry % 4 = 0 ∧ m.entry ≤ 0x3fffc ∧ (∀ r ∈ m.ranges, r.1 + r.2 ≤ memSize) ∧
      m.ranges.Pairwise (fun x y => apartRanges x y = true) := by
  simp only [Image.wellFormed, Bool.and_eq_true, beq_iff_eq, decide_eq_true_eq, List.all_eq_true, allApart_iff] at h
  obtain ⟨⟨⟨⟨halign, hentry⟩, hrange⟩, hapart⟩, -⟩ := h
  exact ⟨halign, hentry, hrange, hapart⟩

theorem Image.memory_wf (m : Image) (free : Nat → Byte) : (m.memory free).wf := by
  rw [m.memory_eq_place free]
  exact Memory.place_wf (by simp [Memory.wf]) _

/-- Loading writes below the end of memory only (93 U23). -/
theorem Image.memory_range {m : Image} (h : m.wellFormed = true) (free : Nat → Byte) :
    ∀ c ∈ m.memory free, c.1 < memSize := by
  obtain ⟨-, -, hrange, -⟩ := Image.wellFormed_inv h
  rw [m.memory_eq_place free]
  exact Memory.place_range (by simp) fun b hb => hrange _ (Image.blockRange_mem_ranges hb)

/-- Every byte of the contents is in memory after loading. -/
theorem Image.read_memory_contents {m : Image} (h : m.wellFormed = true) {free : Nat → Byte} {b : Nat × List Byte}
    (hb : b ∈ m.contents free) {k : Nat} {x : Byte} (hx : b.2[k]? = some x) : (m.memory free).read (b.1 + k) = x := by
  obtain ⟨-, -, -, hapart⟩ := Image.wellFormed_inv h
  rw [← m.contents_map_blockRange free, List.pairwise_map] at hapart
  rw [m.memory_eq_place free]
  exact Memory.read_place_same (by simp [Memory.wf]) hapart hb hx

/-- An address outside the ranges of an image reads 0 after loading (70 R331). -/
theorem Image.read_memory_outside {m : Image} (free : Nat → Byte) {a : Nat}
    (h : ∀ r ∈ m.ranges, a < r.1 ∨ r.1 + r.2 ≤ a) : (m.memory free).read a = 0x00#8 := by
  rw [m.memory_eq_place free]
  exact Memory.read_place_other [] fun b hb => h _ (Image.blockRange_mem_ranges hb)

/-! ## The loaded machine (70 R331, R332) -/

/-- Every register reads 0 when the emulator is started. -/
@[simp] theorem State.start_reg (cfg : Config.Emulator) (r : Reg) : (State.start cfg).reg r = 0#32 := by
  simp [State.reg, State.start]

/-- A started emulator has the invariant in every configuration: its byte order is the configuration's. -/
theorem State.start_inv (cfg : Config.Emulator) : Inv (State.start cfg) where
  zero := rfl
  pc := rfl
  delay := by simp [State.start]
  mem := by simp [State.start, Memory.wf]
  memRange := by simp [State.start]
  stored := by simp [State.start]
  storedRange := by simp [State.start]
  order := rfl

/-- The invariant asks of memory its canonical form and its range (20 R50). -/
theorem Inv.withMem {s : State} (h : Inv s) {m : Memory} (hwf : m.wf) (hrange : ∀ c ∈ m, c.1 < memSize) :
    Inv { s with mem := m } :=
  { h with
    mem := hwf
    memRange := hrange }

/-- The invariant asks of `pc` that it is a multiple of 4 (10 R25). -/
theorem Inv.withPc {s : State} (h : Inv s) {p : Word} (hp : p.toNat % 4 = 0) : Inv { s with pc := p } :=
  { h with pc := hp }

/-- The machine started with an image. -/
def Image.loaded (m : Image) (cfg : Config.Emulator) (free : Nat → Byte) : State :=
  { State.start cfg with mem := m.memory free, pc := BitVec.ofNat 32 m.entry }

theorem loadImage_of_wellFormed {cfg : Config.Emulator} {m : Image} (hm : m.wellFormed = true)
    (hcfg : cfg.wellFormed = true) (free : Nat → Byte) : loadImage cfg m free = some (m.loaded cfg free) :=
  if_pos (by rw [hm, hcfg]; rfl)

/-- A malformed image is refused (70 R331). -/
theorem loadImage_of_malformed {m : Image} (h : m.wellFormed = false) (cfg : Config.Emulator) (free : Nat → Byte) :
    loadImage cfg m free = none :=
  if_neg (by simp [h])

/-- The entry of a well-formed image is the `pc` of the loaded machine (70 R332). -/
theorem Image.loaded_pc_toNat {m : Image} (h : m.wellFormed = true) (cfg : Config.Emulator) (free : Nat → Byte) :
    (m.loaded cfg free).pc.toNat = m.entry := by
  obtain ⟨-, hentry, -, -⟩ := Image.wellFormed_inv h
  exact Nat.mod_eq_of_lt (by omega)

theorem Image.loaded_inv {m : Image} (h : m.wellFormed = true) (cfg : Config.Emulator) (free : Nat → Byte) :
    Inv (m.loaded cfg free) := by
  obtain ⟨halign, -, -, -⟩ := Image.wellFormed_inv h
  rw [← m.loaded_pc_toNat h cfg free] at halign
  exact ((State.start_inv cfg).withMem (m.memory_wf free) (Image.memory_range h free)).withPc halign

/-- Settles O58: blocks and reserved ranges are contents of the image alike, and no two of them share a byte. -/
theorem loading : Obligations.Loading := by
  intro cfg m free
  refine ⟨fun hm hcfg => ?_, fun hm => loadImage_of_malformed hm cfg free⟩
  refine ⟨m.loaded cfg free, loadImage_of_wellFormed hm hcfg free, m.loaded_pc_toNat hm cfg free,
    State.start_reg cfg, rfl, rfl, rfl, rfl, rfl, rfl, rfl, fun b hb k x hx => ?_, fun r hr k hk => ?_,
    fun a ha => Image.read_memory_outside free ha, m.loaded_inv hm cfg free⟩
  · exact Image.read_memory_contents hm (List.mem_append_left _ hb) hx
  · have hcontent : (r.1, reservedBytes free r.1 r.2) ∈ m.contents free :=
      List.mem_append_right _ (List.mem_map_of_mem hr)
    exact Image.read_memory_contents hm hcontent (reservedBytes_getElem? free r.1 hk)

end Sys2Proof.Machine

/-! # The host (spec 70): its setters, a run to a breakpoint -/

namespace Sys2Proof.Machine

/-! ## Setting a register or a word (70 R353) -/

/-- `R n v` in its range writes the register as an instruction would. -/
theorem hostSetRegister_eq (s : State) {n v : Nat} (hn : n < 32) (hv : v < 2 ^ 32) :
    hostSetRegister s n v = some (s.setReg (BitVec.ofNat 5 n) (BitVec.ofNat 32 v)) :=
  if_pos (by rw [decide_eq_true hn, decide_eq_true hv]; rfl)

/-- `I a v` in its range writes the four bytes of the word and records no store. -/
theorem hostSetWord_eq (s : State) {a v : Nat} (ha : a % 4 = 0) (hr : a + 4 ≤ memSize) (hv : v < 2 ^ 32) :
    hostSetWord s a v = some { s with mem := s.mem.writeBytes a (bytesOf s.le 4 (BitVec.ofNat 64 v)) } :=
  if_pos (by rw [ha, decide_eq_true hr, decide_eq_true hv]; rfl)

/-- A register number is that of `r0` only if it is 0. -/
theorem ofNat_reg_eq_zero_iff {n : Nat} (h : n < 32) : BitVec.ofNat 5 n = 0#5 ↔ n = 0 := by
  rw [← BitVec.toNat_inj, BitVec.toNat_ofNat, Nat.mod_eq_of_lt h]
  rfl

/-- The word read where the four bytes of a value were written, in the same byte order (20 R52, R53). -/
theorem wordAt_writeBytes_bytesOf (s : State) (a : Nat) (v : DWord) (h : s.mem.wf) :
    wordAt { s with mem := s.mem.writeBytes a (bytesOf s.le 4 v) } a = v.setWidth 32 := by
  have hread := Memory.readBytes_writeBytes s.mem a (bytesOf s.le 4 v) h
  rw [bytesOf_length] at hread
  rw [← assemble_four]
  change (assemble s.le (Memory.readBytes (s.mem.writeBytes a (bytesOf s.le 4 v)) a 4)).setWidth 32 = _
  rw [hread, assemble_bytesOf]
  simp

/-- Settles O59: a register is written as by an instruction, a word as by a store that nothing records. -/
theorem hostSetters : Obligations.HostSetters := by
  intro s hs
  refine ⟨fun n v hn hv => ?_, fun a v ha hr hv => ?_⟩
  · have honly := OnlyRegs.setReg s (BitVec.ofNat 5 n) (BitVec.ofNat 32 v)
    refine ⟨_, hostSetRegister_eq s hn hv, hs.onlyRegs honly, honly.1, fun r hr => ?_, ?_⟩
    · exact State.reg_setReg_other s _ r _ (by simpa using hr)
    · simp only [State.reg_setReg_same, ofNat_reg_eq_zero_iff hn]
  · refine ⟨_, hostSetWord_eq s ha hr hv, ?_, rfl, ?_, fun b hb => ?_⟩
    · exact hs.withMem (Memory.writeBytes_wf _ _ _ hs.mem)
        (Memory.writeBytes_range _ _ _ _ hs.memRange (by rw [bytesOf_length]; exact hr))
    · rw [wordAt_writeBytes_bytesOf s a _ hs.mem, BitVec.setWidth_ofNat_of_le (by decide)]
    · exact Memory.read_writeBytes_other _ _ _ _ (by rwa [bytesOf_length])

/-! ## Running (70 R351, R356) -/

/-- A step that leaves the machine running counts one instruction and keeps the breakpoints (10 R42). -/
theorem step_running {s t : State} (h : step s = .next t) (ht : t.run = .running) :
    t.totInst = s.totInst + 1 ∧ t.breakpoints = s.breakpoints := by
  obtain ⟨-, i, -, hi⟩ := step_next h
  rcases (exec_effect i s t hi).advances_or_branches ht with
    ⟨⟨-, -, -, htot, -, hbreaks⟩, -⟩ | ⟨-, -, u, n, a, hu, rfl⟩
  · exact ⟨htot, hbreaks⟩
  · rw [State.branch_totInst, State.branch_breakpoints]
    exact ⟨congrArg (· + 1) hu.totInst_eq, hu.breakpoints_eq⟩

/-- Steps are determined: after the first, the rest start from the state it gives. -/
theorem Steps.tail {k : Nat} {s u v : State} (h : Steps (k + 1) s v) (hu : step s = .next u) : Steps k u v := by
  obtain ⟨u', hu', hsteps⟩ := h
  rw [hu] at hu'
  cases hu'
  exact hsteps

/-- The first step of a run that ends at a breakpoint: either it reaches one, and the run ends there, or it reaches none
and the run goes on. -/
theorem runSteps_breakpoint_cases {n : Nat} {s t : State} (h : runSteps true (n + 1) s = .breakpoint t) :
    ∃ u, step s = .next u ∧ u.run = .running ∧
      ((u.pc.toNat ∈ u.breakpoints ∧ u = t) ∨
        (u.pc.toNat ∉ u.breakpoints ∧ runSteps true n u = .breakpoint t)) := by
  rw [runSteps] at h
  split at h
  · cases h
  · cases h
  · rename_i u hstep
    split at h
    · cases h
    · cases h
    · rename_i hrun
      refine ⟨u, hstep, hrun, ?_⟩
      by_cases hbreak : u.pc.toNat ∈ u.breakpoints
      · rw [if_pos (by simpa using hbreak)] at h
        cases h
        exact .inl ⟨hbreak, rfl⟩
      · rw [if_neg (by simpa using hbreak)] at h
        exact .inr ⟨hbreak, h⟩

/-- Settles O60, by induction on the steps allowed: the first step reaches the breakpoint, or passes a state that stands
at none. -/
theorem runToBreakpoint : Obligations.RunToBreakpoint := by
  intro n
  induction n with
  | zero => intro s t h; cases h
  | succ n ih =>
    intro s t h
    obtain ⟨u, hstep, hrun, hend⟩ := runSteps_breakpoint_cases h
    obtain ⟨htot, hbreaks⟩ := step_running hstep hrun
    rcases hend with ⟨hbreak, rfl⟩ | ⟨hpast, hrest⟩
    · exact ⟨1, by omega, by omega, ⟨u, hstep, rfl⟩, htot, hrun, hbreak, hbreaks, fun j v _ _ _ => by omega⟩
    · obtain ⟨k, hpos, hle, hsteps, htot', hrun', hbreak', hbreaks', hpassed⟩ := ih u t hrest
      refine ⟨k + 1, by omega, by omega, ⟨u, hstep, hsteps⟩, by omega, hrun', hbreak', hbreaks'.trans hbreaks, ?_⟩
      rintro (_ | _ | j) v hj hjk hv
      · omega
      · obtain rfl : u = v := hv.tail hstep
        exact ⟨hrun, hpast⟩
      · exact hpassed (j + 1) v (by omega) (by omega) (hv.tail hstep)

end Sys2Proof.Machine

/-! # Words of the examples of the spec (spec 95) -/

namespace Sys2Proof

/-- Settles O5: each word is the encoding of its instruction, and the major opcode of the last is unused (30 R95). -/
theorem decodedWords : Obligations.DecodedWords := by
  refine ⟨?_, ?_, ?_, ?_, ?_, ?_, ?_, ?_, ?_, ?_, ?_, ?_, (notInstructions 0x00000000#32).1 (by decide)⟩ <;>
    exact decode_of_encode_eq (by decide)

end Sys2Proof
